-- ==== Sys2Proof/Word.lean ====
section
/-! DEFINITION. The word types of the block (spec 00_scope.md R8): bytes, 32-bit bus words, and byte
sequences with the sequence notation of R9. Every value is unsigned. -/

namespace Sys2Proof

/-- A byte: 8 bits, unsigned (R8). -/
abbrev Byte := BitVec 8

/-- A 32-bit host-bus word: a register value or an operation word (R19, R63). -/
abbrev Word := BitVec 32

/-- `tail_k(s)`: the last `k` elements of `s`, all of `s` when it is shorter (R9). -/
def tailN {α : Type} (k : Nat) (s : List α) : List α := s.drop (s.length - k)

end Sys2Proof
end

