-- ==== Sys2Proof/Config.lean ====
section
/-! DEFINITION. The implementation parameters of the block (spec 00_scope.md R7), each an argument of the
model with the default the spec gives. The parameters the spec leaves OPEN with no default are constants
without a body, so no proof can depend on their value. A `Config` is carried in `State` unchanged by every
step (log entry 1). -/

namespace Sys2Proof

/-- TIMEOUT_MODE: how a read's timeout is measured (R93, D9). Without effect in this untimed model (log entry 4). -/
inductive TimeoutMode where
  | overall
  | interByte
deriving DecidableEq, Repr

/-- RETRY_SIGNAL_POLICY: when `R` is sent on a retry (R124, D15). -/
inductive RetrySignalPolicy where
  | onePerRetry
  | literalDouble
deriving DecidableEq, Repr

/-- XFER_BEGIN_ACK: whether XFER verifies an echo of the `X` frame (R117, D16). -/
inductive XferBeginAck where
  | echo
  | noEcho
deriving DecidableEq, Repr

/-- BAUD_CODE_FORM: the second byte of the wire command `B` (R140, D29). -/
inductive BaudCodeForm where
  | asciiDigit
  | binary
deriving DecidableEq, Repr

/-- TICK_BYTE_ORDER: the byte order of the tick count of the wire command `T` (R141, D30). -/
inductive TickByteOrder where
  | msbFirst
  | lsbFirst
deriving DecidableEq, Repr

/-- Parity of the line format (R7 LINE_FORMAT). -/
inductive Parity where
  | noParity
  | odd
  | even
deriving DecidableEq, Repr

/-- LINE_FORMAT: data bits, parity, stop bits (R7, R74). -/
structure LineFormat where
  dataBits : Nat
  parity   : Parity
  stopBits : Nat
deriving DecidableEq, Repr

/-- One value of a tabulated BLOCK_TIMEOUT_FN: the timeout in microseconds at one rate and block size. -/
structure BlockTimeoutEntry where
  baud       : Nat
  blockBytes : Nat
  micros     : Nat
deriving DecidableEq, Repr

/-- BLOCK_TIMEOUT_FN, a function of the rate and the block bytes (R7, R119), as plain data; its value is
`Machine.blockTimeout` (log entry 3). -/
inductive BlockTimeoutFn where
  /-- ceil(slack × bits per byte × (block bytes + extra bytes) × 10^6 / baud), R119's form (90_conflicts.md C4) -/
  | slacked (bitsPerByte extraBytes slackNum slackDen : Nat)
  /-- any function, by its value at each rate and block size the block can use, and one value elsewhere -/
  | table (entries : List BlockTimeoutEntry) (otherwise : Nat)
deriving DecidableEq, Repr

/-- The slack is a fraction. -/
def BlockTimeoutFn.wf : BlockTimeoutFn → Bool
  | .slacked _ _ _ slackDen => decide (0 < slackDen)
  | .table _ _ => true

/-- The parameters of R7, one field each (BASE is R45's). -/
structure Config where
  /-- BASE, the block's base address on the host bus (R45, D36). -/
  base              : Word
  /-- BAUD_TABLE, the seven rates by code 0..6. -/
  baudTable         : List Nat
  lineFormat        : LineFormat
  txbufSize         : Nat
  rxbufSize         : Nat
  rxqDepth          : Nat
  imgbufSize        : Nat
  blkbufSize        : Nat
  rstBlockPixels    : Nat
  rstPixelSize      : Nat
  rstMaxTries       : Nat
  rstImgW           : Nat
  rstImgH           : Nat
  blockTimeoutFn    : BlockTimeoutFn
  timeoutMode       : TimeoutMode
  retrySignalPolicy : RetrySignalPolicy
  xferBeginAck      : XferBeginAck
  baudCodeForm      : BaudCodeForm
  tickByteOrder     : TickByteOrder
  /-- T_MODE0 and T_MODE1, the two fixed mode bytes of `T` (OPEN). -/
  tMode0            : Byte
  tMode1            : Byte
  /-- BAUD_TOKEN1 and BAUD_TOKEN2, the unchecksummed tokens of the baud-change handshake (OPEN). -/
  baudToken1        : List Byte
  baudToken2        : List Byte
  /-- DEVICE_BAUD, the rate the device is configured for, in bits per second (OPEN). -/
  deviceBaud        : Nat
  maxExposureTicks  : Nat
  /-- EXPOSURE_SLACK in microseconds. -/
  exposureSlackUs   : Nat
deriving DecidableEq, Repr

/-- The value of BASE: OPEN in the spec (D36), so it has no body (log entry 2). -/
opaque Config.openBase : Word
/-- The value of T_MODE0: OPEN in the spec (D30), so it has no body (log entry 2). -/
opaque Config.openTMode0 : Byte
/-- The value of T_MODE1: OPEN in the spec (D30), so it has no body (log entry 2). -/
opaque Config.openTMode1 : Byte
/-- The value of BAUD_TOKEN1: OPEN in the spec (D31), so it has no body (log entry 2). -/
opaque Config.openBaudToken1 : List Byte
/-- The value of BAUD_TOKEN2: OPEN in the spec (D31), so it has no body (log entry 2). -/
opaque Config.openBaudToken2 : List Byte
/-- The value of DEVICE_BAUD: OPEN in the spec (D13), so it has no body (log entry 2). -/
opaque Config.openDeviceBaud : Nat

/-- The defaults of R7; the OPEN parameters take the values above. -/
def Config.default : Config where
  base              := Config.openBase
  baudTable         := [9600, 19200, 38400, 57600, 115200, 230400, 460800]
  lineFormat        := ⟨8, .noParity, 1⟩
  txbufSize         := 256
  rxbufSize         := 256
  rxqDepth          := 4096
  imgbufSize        := 614400
  blkbufSize        := 8193
  rstBlockPixels    := 4096
  rstPixelSize      := 2
  rstMaxTries       := 10
  rstImgW           := 640
  rstImgH           := 480
  blockTimeoutFn    := .slacked 8 1 3 2
  timeoutMode       := .overall
  retrySignalPolicy := .onePerRetry
  xferBeginAck      := .echo
  baudCodeForm      := .asciiDigit
  tickByteOrder     := .msbFirst
  tMode0            := Config.openTMode0
  tMode1            := Config.openTMode1
  baudToken1        := Config.openBaudToken1
  baudToken2        := Config.openBaudToken2
  deviceBaud        := Config.openDeviceBaud
  maxExposureTicks  := 0xFFFFFF
  exposureSlackUs   := 1000000

/-- What the spec requires of a choice of parameters: each buffer fits its window (R46), an echo fits RXBUF
(R107, R117), there are seven rates (R7), each rate is positive and the block-timeout slack is a fraction (both
needed for R119's formula to mean anything), a character carries a whole byte (R52), the reset values fit their fields
(R35, R36), and a tick count fits three bytes (D32). -/
def Config.wf (c : Config) : Bool :=
  decide (c.txbufSize ≤ 4096) && decide (1 ≤ c.rxbufSize) && decide (c.rxbufSize ≤ 4096)
    && decide (c.imgbufSize ≤ 0x100000)
    && decide (c.baudTable.length = 7) && c.baudTable.all (fun r => decide (0 < r))
    && c.blockTimeoutFn.wf && decide (c.lineFormat.dataBits = 8)
    && decide (c.rstBlockPixels < 2 ^ 16) && decide (c.rstPixelSize < 2 ^ 4) && decide (c.rstMaxTries < 2 ^ 8)
    && decide (c.rstImgW < 2 ^ 16) && decide (c.rstImgH < 2 ^ 16)
    && decide (c.maxExposureTicks ≤ 0xFFFFFF)

end Sys2Proof
end

