-- ==== Sys2Proof/Syntax.lean ====
section
/-! DEFINITION. The instructions: one constructor per row of spec/opcode_table.json. The eleven operation
words (format OPWORD32, 30_encoding.md R65) carry the fields N and B as the word holds them; the wire rows
(formats WIRE_FRAME, WIRE_SIGNAL and WIRE_RX, 44_wire_commands.md) carry their argument bytes as they stand on
the link. -/

namespace Sys2Proof

/-- The instructions of the opcode table. -/
inductive Instr where
  -- operation words, R65
  /-- CSUMC n (R87) -/
  | csumc (n : BitVec 16)
  /-- CSUMB n (R88) -/
  | csumb (n : BitVec 16)
  /-- WRITE n (R96) -/
  | write (n : BitVec 16)
  /-- READ n (R97) -/
  | read (n : BitVec 16)
  /-- RDUNT n, b (R98) -/
  | rdunt (n : BitVec 16) (b : Byte)
  /-- SETBAUD c (R100) -/
  | setbaud (c : Byte)
  /-- DRAIN (R101) -/
  | drain
  /-- SEND n (R106) -/
  | send (n : BitVec 16)
  /-- SENDV n (R107) -/
  | sendv (n : BitVec 16)
  /-- EXPECT n, m (R110) -/
  | expect (n : BitVec 16) (m : Byte)
  /-- XFER (R114) -/
  | xfer
  -- framed wire commands, R132 to R145
  /-- `E`, communications test (R132) -/
  | wireE
  /-- `O`, open shutter (R133) -/
  | wireO
  /-- `C`, close shutter (R134) -/
  | wireC
  /-- `K`, de-energize shutter motor (R135) -/
  | wireK
  /-- `g` 01, heater on (R136) -/
  | wireG1
  /-- `g` 00, heater off (R137) -/
  | wireG0
  /-- `V`, get firmware version (R138) -/
  | wireV
  /-- `r`, get serial number (R139) -/
  | wireR
  /-- `B`, select baud rate, with its argument byte (R140) -/
  | wireB (arg : Byte)
  /-- `T`, take image, with its three tick bytes and two mode bytes in wire order (R141) -/
  | wireT (t0 t1 t2 m0 m1 : Byte)
  /-- `A`, abort image (R142) -/
  | wireA
  /-- `X`, begin image transfer (R143) -/
  | wireX
  /-- `H`, calibrate guider (R144) -/
  | wireH
  /-- `I`, begin autonomous guide (R145) -/
  | wireI
  -- unframed signal bytes, R146 to R148
  /-- signal `K`, checksum OK (R146) -/
  | signalK
  /-- signal `R`, checksum error, resend (R147) -/
  | signalR
  /-- signal `S`, stop transfer (R148) -/
  | signalS
  -- bytes received with a fixed meaning, R149 and R150
  /-- `D`, exposure completion marker (R149) -/
  | markerD
  /-- 0x1A, reply terminator of `H` and `I` (R150) -/
  | marker1A
deriving DecidableEq, Repr

/-- The signal byte `K`, checksum OK (R72, R146). -/
def sigOk : Byte := 0x4B#8
/-- The signal byte `R`, checksum error (R72, R147). -/
def sigResend : Byte := 0x52#8
/-- The signal byte `S`, stop transfer (R72, R148). -/
def sigStop : Byte := 0x53#8
/-- The exposure completion marker `D` (R72, R149). -/
def doneMarker : Byte := 0x44#8
/-- The reply terminator of `H` and `I` (R72, R150). -/
def replyTerminator : Byte := 0x1A#8

end Sys2Proof
end

