-- ==== Sys2Proof/WellFormed.lean ====
section
/-! DEFINITION. Well-formed instructions under a configuration: the operand ranges of 30_encoding.md R65 and of
each operation's rule, and the argument bytes the wire commands `B` and `T` may carry (R140, R141). The block
runs an ill-formed operation word too, as R67 says (BAD_ARG), and frames an ill-formed wire command as given
(R112): well-formedness says which instructions the spec's tables describe. -/

namespace Sys2Proof

/-- A byte count 0..TXBUF_SIZE (CSUMC, CSUMB, WRITE). -/
def wfTxCount (c : Config) (n : BitVec 16) : Bool := decide (n.toNat ≤ c.txbufSize)

/-- A command length 1..TXBUF_SIZE (SEND, SENDV). -/
def wfCommandLength (c : Config) (n : BitVec 16) : Bool :=
  decide (1 ≤ n.toNat) && decide (n.toNat ≤ c.txbufSize)

/-- The argument byte of `B` is the form of a code 0..6 (R140). -/
def wfBaudArg (c : Config) (d : Byte) : Bool :=
  match c.baudCodeForm with
  | .asciiDigit => decide (0x30 ≤ d.toNat) && decide (d.toNat ≤ 0x36)
  | .binary     => decide (d.toNat ≤ 6)

/-- The tick count three wire bytes stand for (R141). -/
def ticksOfBytes (c : Config) (t0 t1 t2 : Byte) : Nat :=
  match c.tickByteOrder with
  | .msbFirst => t0.toNat * 65536 + t1.toNat * 256 + t2.toNat
  | .lsbFirst => t2.toNat * 65536 + t1.toNat * 256 + t0.toNat

/-- The instruction is one the spec's tables describe under configuration `c`. -/
def Instr.wf (c : Config) : Instr → Bool
  | .csumc n => wfTxCount c n
  | .csumb n => wfTxCount c n
  | .write n => wfTxCount c n
  | .read n => decide (n.toNat ≤ c.rxbufSize)
  | .rdunt n _ => decide (1 ≤ n.toNat) && decide (n.toNat ≤ c.rxbufSize)
  | .setbaud b => decide (b.toNat ≤ 6)
  | .drain => true
  | .send n => wfCommandLength c n
  | .sendv n => wfCommandLength c n
  | .expect n m =>
    decide (1 ≤ n.toNat) && decide (n.toNat + m.toNat ≤ c.txbufSize) && decide (m.toNat + 1 ≤ c.rxbufSize)
  | .xfer => true
  | .wireE => true
  | .wireO => true
  | .wireC => true
  | .wireK => true
  | .wireG1 => true
  | .wireG0 => true
  | .wireV => true
  | .wireR => true
  | .wireB d => wfBaudArg c d
  | .wireT t0 t1 t2 m0 m1 =>
    decide (m0 = c.tMode0) && decide (m1 = c.tMode1) && decide (ticksOfBytes c t0 t1 t2 ≤ c.maxExposureTicks)
  | .wireA => true
  | .wireX => true
  | .wireH => true
  | .wireI => true
  | .signalK => true
  | .signalR => true
  | .signalS => true
  | .markerD => true
  | .marker1A => true

end Sys2Proof
end

