-- ==== Sys2Proof/Decode.lean ====
section
/-! DEFINITION. The decoder and the encoder (30_encoding.md). Two encodings meet in the block: the 32-bit
operation word written to OP (R63 to R68), and the bytes on the serial link (R70 to R72). `Encoded` keeps their
formats apart, as the opcode table's "format" column does. -/

namespace Sys2Proof

/-- An encoded instruction, by the format of its row in the opcode table. -/
inductive Encoded where
  /-- OPWORD32: a value written to OP -/
  | op (w : Word)
  /-- WIRE_FRAME: the command bytes in wire order, before the checksum byte -/
  | frame (bs : List Byte)
  /-- WIRE_SIGNAL: one unframed byte the block transmits -/
  | signal (b : Byte)
  /-- WIRE_RX: one byte received from the device -/
  | marker (b : Byte)
deriving DecidableEq, Repr

/-- Why an encoding is rejected. -/
inductive DecodeError where
  /-- an operation word whose OPC is not listed (R66) -/
  | illegalOp
  /-- an operation word with a nonzero must-be-zero field (R67) -/
  | badArg
  /-- the first byte of a command is no wire opcode (R71) -/
  | unknownCommand
  /-- the command's length is not the one its opcode gives (R71) -/
  | wrongLength
  /-- `g` with an argument that is neither 00 nor 01 (R136, R137) -/
  | unknownArgument
  /-- a byte that is no signal (R72) -/
  | unknownSignal
  /-- a byte that is no marker (R72) -/
  | unknownMarker
deriving DecidableEq, Repr

/-- OPC, bits 7:0 of an operation word (R63). -/
def opcOf (w : Word) : Byte := w.extractLsb' 0 8
/-- B, bits 15:8 of an operation word (R63, R64). -/
def bOf (w : Word) : Byte := w.extractLsb' 8 8
/-- N, bits 31:16 of an operation word (R63, R64). -/
def nOf (w : Word) : BitVec 16 := w.extractLsb' 16 16

/-- `i` when the must-be-zero field test holds, else BAD_ARG (R67). -/
def requireZero (zero : Bool) (i : Instr) : Except DecodeError Instr :=
  if zero then .ok i else .error .badArg

/-- Decode an operation word (R65 to R68 steps 1 and 2, the must-be-zero fields). The operand ranges of R67
depend on the configuration and are checked by each operation's meaning. -/
def decodeOp (w : Word) : Except DecodeError Instr :=
  let b := bOf w
  let n := nOf w
  match (opcOf w).toNat with
  | 0x01 => requireZero (b == 0#8) (.csumc n)
  | 0x02 => requireZero (b == 0#8) (.csumb n)
  | 0x10 => requireZero (b == 0#8) (.write n)
  | 0x11 => requireZero (b == 0#8) (.read n)
  | 0x12 => .ok (.rdunt n b)
  | 0x13 => requireZero (n == 0#16) (.setbaud b)
  | 0x14 => requireZero (b == 0#8 && n == 0#16) .drain
  | 0x20 => requireZero (b == 0#8) (.send n)
  | 0x21 => requireZero (b == 0#8) (.sendv n)
  | 0x22 => .ok (.expect n b)
  | 0x30 => requireZero (b == 0#8 && n == 0#16) .xfer
  | _ => .error .illegalOp

/-- The length of a wire command before its checksum, by its opcode (R71). -/
def commandLength (opcode : Byte) : Option Nat :=
  match opcode.toNat with
  | 0x45 => some 1
  | 0x4F => some 1
  | 0x43 => some 1
  | 0x4B => some 1
  | 0x56 => some 1
  | 0x72 => some 1
  | 0x41 => some 1
  | 0x58 => some 1
  | 0x48 => some 1
  | 0x49 => some 1
  | 0x67 => some 2
  | 0x42 => some 2
  | 0x54 => some 6
  | _ => none

/-- A one-byte command takes no argument bytes. -/
def noArgs (args : List Byte) (i : Instr) : Except DecodeError Instr :=
  match args with
  | [] => .ok i
  | _ :: _ => .error .wrongLength

/-- The heater command `g` (R136, R137). -/
def decodeHeater : List Byte → Except DecodeError Instr
  | [a] => if a = 1#8 then .ok .wireG1 else if a = 0#8 then .ok .wireG0 else .error .unknownArgument
  | _ => .error .wrongLength

/-- The baud-select command `B` (R140). -/
def decodeBaudSelect : List Byte → Except DecodeError Instr
  | [d] => .ok (.wireB d)
  | _ => .error .wrongLength

/-- The take-image command `T` (R141). -/
def decodeTakeImage : List Byte → Except DecodeError Instr
  | [t0, t1, t2, m0, m1] => .ok (.wireT t0 t1 t2 m0 m1)
  | _ => .error .wrongLength

/-- Decode the bytes of a wire command, before its checksum (R71, R132 to R145). -/
def decodeCommand : List Byte → Except DecodeError Instr
  | [] => .error .unknownCommand
  | opcode :: args =>
    match opcode.toNat with
    | 0x45 => noArgs args .wireE
    | 0x4F => noArgs args .wireO
    | 0x43 => noArgs args .wireC
    | 0x4B => noArgs args .wireK
    | 0x67 => decodeHeater args
    | 0x56 => noArgs args .wireV
    | 0x72 => noArgs args .wireR
    | 0x42 => decodeBaudSelect args
    | 0x54 => decodeTakeImage args
    | 0x41 => noArgs args .wireA
    | 0x58 => noArgs args .wireX
    | 0x48 => noArgs args .wireH
    | 0x49 => noArgs args .wireI
    | _ => .error .unknownCommand

/-- Decode a signal byte (R146 to R148). -/
def decodeSignal (b : Byte) : Except DecodeError Instr :=
  match b.toNat with
  | 0x4B => .ok .signalK
  | 0x52 => .ok .signalR
  | 0x53 => .ok .signalS
  | _ => .error .unknownSignal

/-- Decode a received marker byte (R149, R150). -/
def decodeMarker (b : Byte) : Except DecodeError Instr :=
  match b.toNat with
  | 0x44 => .ok .markerD
  | 0x1A => .ok .marker1A
  | _ => .error .unknownMarker

/-- The decoder, total on every encoding of every format. -/
def decode : Encoded → Except DecodeError Instr
  | .op w => decodeOp w
  | .frame bs => decodeCommand bs
  | .signal b => decodeSignal b
  | .marker b => decodeMarker b

/-- Assemble an operation word: `zext_32(n) << 16 | b << 8 | OPC` (R63, R75). -/
def opWord (opc b : Byte) (n : BitVec 16) : Word := n ++ b ++ opc

/-- The encoder: the words or bytes of an instruction, from the tables of R65, R71, R72 and R132 to R150. -/
def encode : Instr → Encoded
  | .csumc n => .op (opWord 0x01#8 0#8 n)
  | .csumb n => .op (opWord 0x02#8 0#8 n)
  | .write n => .op (opWord 0x10#8 0#8 n)
  | .read n => .op (opWord 0x11#8 0#8 n)
  | .rdunt n b => .op (opWord 0x12#8 b n)
  | .setbaud c => .op (opWord 0x13#8 c 0#16)
  | .drain => .op (opWord 0x14#8 0#8 0#16)
  | .send n => .op (opWord 0x20#8 0#8 n)
  | .sendv n => .op (opWord 0x21#8 0#8 n)
  | .expect n m => .op (opWord 0x22#8 m n)
  | .xfer => .op (opWord 0x30#8 0#8 0#16)
  | .wireE => .frame [0x45#8]
  | .wireO => .frame [0x4F#8]
  | .wireC => .frame [0x43#8]
  | .wireK => .frame [0x4B#8]
  | .wireG1 => .frame [0x67#8, 0x01#8]
  | .wireG0 => .frame [0x67#8, 0x00#8]
  | .wireV => .frame [0x56#8]
  | .wireR => .frame [0x72#8]
  | .wireB d => .frame [0x42#8, d]
  | .wireT t0 t1 t2 m0 m1 => .frame [0x54#8, t0, t1, t2, m0, m1]
  | .wireA => .frame [0x41#8]
  | .wireX => .frame [0x58#8]
  | .wireH => .frame [0x48#8]
  | .wireI => .frame [0x49#8]
  | .signalK => .signal sigOk
  | .signalR => .signal sigResend
  | .signalS => .signal sigStop
  | .markerD => .marker doneMarker
  | .marker1A => .marker replyTerminator

/-- Byte `k` of a table word, bit 0 of the word being bit 0 of the first byte. -/
def tableByte (w k : Nat) : Byte := BitVec.ofNat 8 (w / 256 ^ k)

/-- The encoding an opcode-table word stands for: a 32-bit row is an operation word; a shorter row is the
first byte or bytes of a wire row, zero above, of the length its first byte gives. The byte 4B is both the
command `K` and the signal `K` (R151) and the table's numbering cannot tell them apart: it is read as the
command (log entry 11). -/
def tableEncoded (nbits w : Nat) : Encoded :=
  if 32 ≤ nbits then .op (BitVec.ofNat 32 w)
  else
    let first := tableByte w 0
    match commandLength first with
    | some len => .frame ((List.range len).map (tableByte w))
    | none =>
      match decodeSignal first with
      | .ok _ => .signal first
      | .error _ => .marker first

/-- The instruction the decoder reads from a word numbered as spec/opcode_table.json numbers it. -/
def decodeTableWord (nbits w : Nat) : Option Instr :=
  match decode (tableEncoded nbits w) with
  | .ok i => some i
  | .error _ => none

end Sys2Proof
end

