-- ==== Sys2Proof/Machine/State.lean ====
section
/-! DEFINITION. The state of the block (spec 10_state.md R13), as plain data, and its reset (R44, R174). The
fields the model adds to the spec's state are marked MODEL: the parameters, the schedule of the agents' moves,
the host's last bus response and the exposure monitor of R155. -/

namespace Sys2Proof.Machine

open Sys2Proof

/-- A byte buffer: the bytes that have been written, as (offset, byte) pairs with offsets strictly rising. An
unlisted offset holds no value (R42; log entry 8). -/
abbrev Memory := List Host.Cell

/-- The error codes of STATUS.ERR (R26, R159). Codes 7 to 15 are never written and have no constructor. -/
inductive ErrCode where
  | noError
  | nack
  | protocol
  | checksum
  | timeout
  | illegalOp
  | badArg
deriving DecidableEq, Repr

/-- The stored bits of STATUS (R22 to R29). BUSY is not stored: it is SEQ ≠ IDLE (R17). -/
structure Status where
  /-- bit 1, DONE (R22) -/
  done    : Bool
  /-- bit 2, OK (R23) -/
  ok      : Bool
  /-- bit 3, TERM (R24) -/
  term    : Bool
  /-- bit 4, LIMIT (R25) -/
  limit   : Bool
  /-- bits 11:8, ERR (R26) -/
  err     : ErrCode
  /-- bit 16, F_BUSYWR, sticky (R27) -/
  fBusyWr : Bool
  /-- bit 17, F_RXOVR, sticky (R28) -/
  fRxOvr  : Bool
  /-- bit 18, F_BUS, sticky (R29) -/
  fBus    : Bool
deriving DecidableEq, Repr

/-- The operands an operation latches at the OP write that starts it (R53). -/
structure Operands where
  timeout : Word
  chkDis  : Bool
  xferCfg : Word
  imgDim  : Word
  baud    : BitVec 3
  txbuf   : Memory
deriving DecidableEq, Repr

/-- What the operation does when its read returns: the rest of its pseudocode, with the values it still needs. -/
inductive Kont where
  /-- READ (R97) -/
  | read
  /-- RDUNT with its terminator (R98) -/
  | rdunt (b : Byte)
  /-- SENDV with the command it framed (R107) -/
  | sendv (cmd : List Byte)
  /-- EXPECT with the command it framed and the expected reply (R110) -/
  | expect (cmd reply : List Byte)
  /-- XFER's begin-echo read (R117) -/
  | xferEcho
  /-- XFER's attempt `i` of block `k` (R118, R119) -/
  | xferBlock (k i : Nat)
deriving DecidableEq, Repr

/-- An RxRead in progress (R94): the bytes got so far, the limit `n` (none is infinity), the terminator (none is
NONE), and `budget`, which is none while `expired` is 0 and `some k` once it is 1. `timeout` is the read's t in
microseconds. -/
structure ReadCtx where
  got     : List Byte
  limit   : Option Nat
  term    : Option Byte
  budget  : Option Nat
  timeout : Nat
  kont    : Kont
deriving DecidableEq, Repr

/-- The phases of SEQ (R18). -/
inductive Phase where
  /-- EXEC: the operation has been started and the block's step has not been taken -/
  | exec
  /-- WAIT_RX: an RxRead in progress -/
  | waitRx (r : ReadCtx)
deriving DecidableEq, Repr

/-- SEQ (R17): IDLE, or RUN(op, phase) with the latched operation word, and with the operands of R53. -/
inductive Seq where
  | idle
  | run (op : Word) (operands : Operands) (phase : Phase)
deriving DecidableEq, Repr

/-- An event of the observable trace (R12). -/
inductive Event where
  /-- a transmitted byte (R91) -/
  | tx (b : Byte)
  /-- Progress(p) (R125) -/
  | progress (p : BitVec 7)
deriving DecidableEq, Repr

/-- The width of a host bus access (R47, R48). -/
inductive Width where
  | w8
  | w16
  | w32
deriving DecidableEq, Repr

/-- MODEL. What the host's last bus access got: nothing yet, an acknowledged write, a read value (an 8-bit read
zero-extended), or an error response (R49). -/
inductive BusResponse where
  | noAccess
  | ack
  | data (v : Word)
  | error
deriving DecidableEq, Repr

/-- MODEL. One move of one agent (R6). The list `State.inputs` says who moves next. -/
inductive Move where
  /-- HOST: a bus write of `v` at byte address `addr` -/
  | busWrite (w : Width) (addr v : Word)
  /-- HOST: a bus read at byte address `addr` -/
  | busRead (w : Width) (addr : Word)
  /-- HOST: the macro `CMD`, bytes to TXBUF and `SENDV` (R77), or a wire command's own host operation -/
  | command (bs : List Byte)
  /-- HOST: the macro `SIG`, one byte to TXBUF and `WRITE 1` (R77) -/
  | signal (b : Byte)
  /-- DEVICE: a byte arrives at the block's receiver, of any value and meaning but a marker (R55) -/
  | device (b : Byte)
  /-- DEVICE: a marker byte arrives: `D` as its exposure completes, 0x1A as a reply ends (R149, R150) -/
  | marker (b : Byte)
  /-- DEVICE: it did not take the `T` it was sent, so no exposure is in progress (R56, R155; log entry 9) -/
  | takeLost
  /-- TIMER: the deadline of the read in progress (R95) -/
  | timer
  /-- BLOCK: the sequencer's step -/
  | block
  /-- the reset input (R174) -/
  | reset
deriving DecidableEq, Repr

/-- The state of the machine. -/
structure State where
  /-- MODEL. The parameters of R7, unchanged by every step (log entry 1). -/
  cfg      : Config
  /-- MODEL. The agents' moves to come, next first (log entry 5). -/
  inputs   : List Move
  /-- MODEL. The host's last bus response (log entry 14). -/
  bus      : BusResponse
  /-- MODEL. An exposure is in progress on the device (R155; log entry 9). -/
  exposing : Bool
  /-- CACC (R15) -/
  cacc     : Byte
  /-- BACC (R16) -/
  bacc     : Byte
  /-- SEQ (R17, R18) -/
  seq      : Seq
  /-- CTRL.CHK_DIS (R20) -/
  chkDis   : Bool
  /-- STATUS (R21 to R29) -/
  status   : Status
  /-- TIMEOUT (R31) -/
  timeout  : Word
  /-- BAUD.CODE (R32) -/
  baud     : BitVec 3
  /-- RESULT bits 7:0 (R33) -/
  result   : Byte
  /-- RXLEN bits 15:0 (R34) -/
  rxlen    : BitVec 16
  /-- XFER_CFG (R35) -/
  xferCfg  : Word
  /-- IMG_DIM (R36) -/
  imgDim   : Word
  /-- BLK_TOTAL (R37) -/
  blkTotal : Word
  /-- BLK_RCVD (R38) -/
  blkRcvd  : Word
  /-- TRY bits 7:0 (R39) -/
  tryNo    : Byte
  /-- PROGRESS bits 6:0 (R40) -/
  progress : BitVec 7
  /-- IMGLEN (R41) -/
  imglen   : Word
  /-- TXBUF (R42) -/
  txbuf    : Memory
  /-- RXBUF (R42) -/
  rxbuf    : Memory
  /-- IMGBUF (R42) -/
  imgbuf   : Memory
  /-- BLKBUF, internal (R42) -/
  blkbuf   : Memory
  /-- RXQ, oldest byte first (R55) -/
  rxq      : List Byte
  /-- the event trace, oldest event first (R12) -/
  trace    : List Event
deriving DecidableEq, Repr

/-- Why a run is faulted (93_implementation_defined.md, treatment `fault`). The bus fault (U5) and the OP write
while BUSY (U6) are not here: the spec gives both an effect, so the machine goes on with a sticky bit set
(`Sys2Proof.Safety.runFaulted`; log entry 7). -/
inductive Fault where
  /-- U3: an operation, or a host read, reads a TXBUF byte the host has not written since reset (R42, R54). Safe. -/
  | txbufUnwritten
  /-- U1: a host read of an RXBUF byte at or beyond RXLEN, or of any RXBUF byte while BUSY (R54). Safe. -/
  | rxbufUndefined
  /-- U2: a host read of an IMGBUF byte at or beyond IMGLEN (R54). Safe. -/
  | imgbufUndefined
  /-- S1: the host frames `T` while an exposure is in progress (R155). Safe. -/
  | takeImageDuringExposure
deriving DecidableEq, Repr

/-- Why a step is refused. -/
inductive Refusal where
  /-- an instruction without a meaning yet, by its mnemonic; raised by exec's arms only. Safe. -/
  | notModelled (mnemonic : String)
deriving DecidableEq, Repr

/-- STATUS at reset: all zero (R21 to R29). -/
def Status.reset : Status := ⟨false, false, false, false, .noError, false, false, false⟩

/-- XFER_CFG at reset: RST_MAX_TRIES, zero, RST_PIXEL_SIZE, RST_BLOCK_PIXELS (R35). -/
def resetXferCfg (c : Config) : Word :=
  BitVec.ofNat 8 c.rstMaxTries ++ 0#4 ++ BitVec.ofNat 4 c.rstPixelSize ++ BitVec.ofNat 16 c.rstBlockPixels

/-- IMG_DIM at reset: RST_IMG_H, RST_IMG_W (R36). -/
def resetImgDim (c : Config) : Word := BitVec.ofNat 16 c.rstImgH ++ BitVec.ofNat 16 c.rstImgW

/-- The block right after reset, under parameters `c` (R44, R174). -/
def State.resetWith (c : Config) : State where
  cfg      := c
  inputs   := []
  bus      := .noAccess
  exposing := false
  cacc     := 0#8
  bacc     := 0#8
  seq      := .idle
  chkDis   := false
  status   := Status.reset
  timeout  := 0#32
  baud     := 0#3
  result   := 0#8
  rxlen    := 0#16
  xferCfg  := resetXferCfg c
  imgDim   := resetImgDim c
  blkTotal := 0#32
  blkRcvd  := 0#32
  tryNo    := 0#8
  progress := 0#7
  imglen   := 0#32
  txbuf    := []
  rxbuf    := []
  imgbuf   := []
  blkbuf   := []
  rxq      := []
  trace    := []

/-- The machine right after reset, with the default parameters of R7. -/
def State.reset : State := State.resetWith Config.default

end Sys2Proof.Machine
end

