-- ==== Sys2Proof/Machine/Checksum.lean ====
section
/-! DEFINITION. The two checksum functions (40_checksum.md R78 to R89) and the frame (R70, R103). Both are pure
and total (R78). -/

namespace Sys2Proof.Machine

open Sys2Proof

/-- `inv7(b) = (~b) & 0x7F`, the per-byte term of the command checksum (R80). -/
def inv7 (b : Byte) : Byte := (~~~b) &&& 0x7F#8

/-- CmdChecksum(s): CACC from 0x00, XORed with each byte's term in order (R79, R81). -/
def cmdChecksum (s : List Byte) : Byte := s.foldl (fun acc b => acc ^^^ inv7 b) 0x00#8

/-- BlkChecksum(s): BACC from 0x00, XORed with each raw byte in order (R84). -/
def blkChecksum (s : List Byte) : Byte := s.foldl (fun acc b => acc ^^^ b) 0x00#8

/-- Frame(cmd) = cmd ‖ [CmdChecksum(cmd)] (R70, R103). -/
def frameOf (cmd : List Byte) : List Byte := cmd ++ [cmdChecksum cmd]

end Sys2Proof.Machine
end

