-- ==== Sys2Proof/Machine/Flags.lean ====
section
/-! DEFINITION. The flags: STATUS as the host reads it (R21 to R29), what the OP write clears (R30) and what
`finish` writes (R161). No operation reads a flag as an input (R43). -/

namespace Sys2Proof.Machine

open Sys2Proof

/-- The code of an error in STATUS.ERR (R159). -/
def ErrCode.code : ErrCode → BitVec 4
  | .noError   => 0#4
  | .nack      => 1#4
  | .protocol  => 2#4
  | .checksum  => 3#4
  | .timeout   => 4#4
  | .illegalOp => 5#4
  | .badArg    => 6#4

/-- STATUS.BUSY: SEQ is not IDLE (R17, R21). -/
def State.busy (s : State) : Bool :=
  match s.seq with
  | .idle => false
  | .run _ _ _ => true

/-- One bit of a register. -/
def bit (b : Bool) : BitVec 1 := BitVec.ofBool b

/-- STATUS as a host read returns it; the reserved bits 7:5, 15:12 and 31:19 read 0 (R21 to R29). -/
def Status.word (st : Status) (busy : Bool) : Word :=
  0#13 ++ bit st.fBus ++ bit st.fRxOvr ++ bit st.fBusyWr ++ 0#4 ++ st.err.code ++ 0#3
    ++ bit st.limit ++ bit st.term ++ bit st.ok ++ bit st.done ++ bit busy

/-- The OP write that starts an operation clears DONE, OK, TERM, LIMIT and ERR (R30). -/
def Status.start (st : Status) : Status :=
  { st with done := false, ok := false, term := false, limit := false, err := .noError }

/-- `finish(ok, err)` on STATUS: OK, ERR and DONE (R161). TERM, LIMIT and the sticky bits stay. -/
def Status.finish (st : Status) (ok : Bool) (err : ErrCode) : Status :=
  { st with ok := ok, err := err, done := true }

end Sys2Proof.Machine
end

