-- ==== Sys2Proof/Machine/Operands.lean ====
section
/-! DEFINITION. Operand forms: the operands an operation latches (R53), the fields of the transfer
configuration (R35, R36), the operand ranges (R65, R67), the transfer's derived quantities (R115, R116, R119)
and the host bus map (R46 to R48). -/

namespace Sys2Proof.Machine

open Sys2Proof

/-- The operands an OP write would latch now (R53). -/
def State.registerOperands (s : State) : Operands where
  timeout := s.timeout
  chkDis  := s.chkDis
  xferCfg := s.xferCfg
  imgDim  := s.imgDim
  baud    := s.baud
  txbuf   := s.txbuf

/-- The operands of the operation in progress; in IDLE, those an OP write would latch now (R53; log entry 15). -/
def State.operands (s : State) : Operands :=
  match s.seq with
  | .idle => s.registerOperands
  | .run _ o _ => o

/-! ### The fields of XFER_CFG and IMG_DIM -/

/-- XFER_CFG.BLOCK_PIXELS, bits 15:0 (R35). -/
def Operands.blockPixels (o : Operands) : Nat := (o.xferCfg.extractLsb' 0 16).toNat
/-- XFER_CFG.PIXEL_SIZE, bits 19:16 (R35). -/
def Operands.pixelSize (o : Operands) : Nat := (o.xferCfg.extractLsb' 16 4).toNat
/-- XFER_CFG.MAX_TRIES, bits 31:24 (R35). -/
def Operands.maxTries (o : Operands) : Nat := (o.xferCfg.extractLsb' 24 8).toNat
/-- IMG_DIM.W, bits 15:0 (R36). -/
def Operands.imgW (o : Operands) : Nat := (o.imgDim.extractLsb' 0 16).toNat
/-- IMG_DIM.H, bits 31:16 (R36). -/
def Operands.imgH (o : Operands) : Nat := (o.imgDim.extractLsb' 16 16).toNat

/-- What a host write of `v` stores in XFER_CFG: bits 23:20 are reserved (R35, R50). -/
def storedXferCfg (v : Word) : Word := v &&& 0xFF0FFFFF#32

/-! ### Operand ranges (R65, R67) -/

/-- A byte count of CSUMC, CSUMB and WRITE: 0..TXBUF_SIZE. -/
def txCountOk (c : Config) (n : BitVec 16) : Bool := decide (n.toNat ≤ c.txbufSize)
/-- A byte count of READ: 0..RXBUF_SIZE. -/
def rxCountOk (c : Config) (n : BitVec 16) : Bool := decide (n.toNat ≤ c.rxbufSize)
/-- A byte limit of RDUNT: 1..RXBUF_SIZE. -/
def rxLimitOk (c : Config) (n : BitVec 16) : Bool := decide (1 ≤ n.toNat) && decide (n.toNat ≤ c.rxbufSize)
/-- A command length of SEND and SENDV: 1..TXBUF_SIZE. -/
def commandCountOk (c : Config) (n : BitVec 16) : Bool := decide (1 ≤ n.toNat) && decide (n.toNat ≤ c.txbufSize)
/-- EXPECT's operands: n ≥ 1, n + m ≤ TXBUF_SIZE, m + 1 ≤ RXBUF_SIZE (R110). -/
def expectCountOk (c : Config) (n : BitVec 16) (m : Byte) : Bool :=
  decide (1 ≤ n.toNat) && decide (n.toNat + m.toNat ≤ c.txbufSize) && decide (m.toNat + 1 ≤ c.rxbufSize)
/-- A baud code 0..6 (R100). -/
def baudCodeOk (b : Byte) : Bool := decide (b.toNat ≤ 6)

/-! ### The transfer -/

/-- bb, the bytes of a block without its checksum (R119). -/
def Operands.blockBytes (o : Operands) : Nat := o.blockPixels * o.pixelSize
/-- The number of blocks, (W × H) / BLOCK_PIXELS (R116). -/
def Operands.totalBlocks (o : Operands) : Nat := (o.imgW * o.imgH) / o.blockPixels

/-- The configuration checks of R115, on exact products. -/
def xferConfigOk (c : Config) (o : Operands) : Bool :=
  decide (o.blockPixels ≠ 0) && decide (o.pixelSize ≠ 0) && decide (o.maxTries ≠ 0)
    && decide (o.imgW ≠ 0) && decide (o.imgH ≠ 0)
    && decide ((o.imgW * o.imgH) % o.blockPixels = 0)
    && decide (o.blockBytes + 1 ≤ c.blkbufSize)
    && decide (o.imgW * o.imgH * o.pixelSize ≤ c.imgbufSize)

/-- BAUD_TABLE[code] (R32, R7). -/
def baudRate (c : Config) (code : BitVec 3) : Nat := c.baudTable.getD code.toNat 0

/-- The value of a tabulated BLOCK_TIMEOUT_FN. -/
def tableTimeout (otherwise baud bb : Nat) : List BlockTimeoutEntry → Nat
  | [] => otherwise
  | e :: es => if e.baud = baud ∧ e.blockBytes = bb then e.micros else tableTimeout otherwise baud bb es

/-- BLOCK_TIMEOUT_FN in microseconds, rounded up (R119, R193, 90_conflicts.md C4). -/
def blockTimeout (c : Config) (baud bb : Nat) : Nat :=
  match c.blockTimeoutFn with
  | .slacked bitsPerByte extraBytes slackNum slackDen =>
    let num := slackNum * bitsPerByte * (bb + extraBytes) * 1000000
    let den := slackDen * baud
    (num + (den - 1)) / den
  | .table entries otherwise => tableTimeout otherwise baud bb entries

/-- The timeout of the operation's block reads, from the rate latched at its start (R119). -/
def Operands.blockReadTimeout (c : Config) (o : Operands) : Nat :=
  blockTimeout c (baudRate c o.baud) o.blockBytes

/-- floor(100 × received / total) (R125). -/
def progressOf (received total : Nat) : Nat := 100 * received / total

/-! ### The host bus map (R46 to R48) -/

/-- What a host access reaches: a register by its offset, bytes of a buffer from an index, or a bus fault. -/
inductive BusTarget where
  | register (off : Nat)
  | tx (i : Nat)
  | rx (i : Nat)
  | img (i : Nat)
  | fault
deriving DecidableEq, Repr

/-- The number of bytes of an access. -/
def Width.bytes : Width → Nat
  | .w8  => 1
  | .w16 => 2
  | .w32 => 4

/-- The offset of a bus address from BASE (R45), the difference modulo 2^32. DESIGN CHOICE: the spec does not say whether an
address below BASE, or an offset past the top of the 32-bit space, reaches the block; here it does (log entry 26). -/
def busOffset (c : Config) (addr : Word) : Nat := (addr - c.base).toNat

/-- An access of width `w` at index `i` of a buffer of `size` bytes is allowed (R48). -/
def bufferAccessOk (w : Width) (i size : Nat) : Bool :=
  match w with
  | .w8  => decide (i < size)
  | .w16 => false
  | .w32 => decide (i % 4 = 0) && decide (i + 4 ≤ size)

/-- The bus map of R46 with the width and alignment rules R47 and R48. -/
def busTarget (c : Config) (w : Width) (off : Nat) : BusTarget :=
  if off < 0x1000 then
    if w = .w32 ∧ off % 4 = 0 ∧ off ≤ 0x34 then .register off else .fault
  else if off < 0x2000 then
    if bufferAccessOk w (off - 0x1000) c.txbufSize then .tx (off - 0x1000) else .fault
  else if off < 0x3000 then
    if bufferAccessOk w (off - 0x2000) c.rxbufSize then .rx (off - 0x2000) else .fault
  else if 0x100000 ≤ off ∧ off < 0x200000 then
    if bufferAccessOk w (off - 0x100000) c.imgbufSize then .img (off - 0x100000) else .fault
  else .fault

/-- The bytes of a bus value, lowest offset first (R48, R51). -/
def wordBytes (w : Width) (v : Word) : List Byte :=
  match w with
  | .w8  => [v.extractLsb' 0 8]
  | .w16 => [v.extractLsb' 0 8, v.extractLsb' 8 8]
  | .w32 => [v.extractLsb' 0 8, v.extractLsb' 8 8, v.extractLsb' 16 8, v.extractLsb' 24 8]

/-- The bus value of bytes, the byte at the lowest offset in bits 7:0 (R48, R51). -/
def bytesWord : List Byte → Word
  | [] => 0#32
  | b :: bs => (bytesWord bs <<< 8) ||| b.setWidth 32

end Sys2Proof.Machine
end

