-- ==== Sys2Proof/Machine/Ops.lean ====
section
/-! DEFINITION. The shared operations of the block: TxWrite (R91), RxRead (R94), the TIMER's expiry (R95), the
DEVICE's delivery (R55), the start of an operation at the OP write (R30), and `finish` (R161). The block has no
trap (R157): an error ends its operation through `finish`, which is the model's one exception entry, and there is
no return from it (R168). -/

namespace Sys2Proof.Machine

open Sys2Proof

/-! ### Starting and ending an operation -/

/-- The OP write while BUSY = 0: latch the operation word and the operands, set BUSY, clear DONE, OK, TERM, LIMIT
and ERR (R30, R53). The block's own step follows in phase EXEC. -/
def acceptOp (op : Word) (s : State) : State :=
  { s with seq := .run op s.registerOperands .exec, status := s.status.start }

/-- The OP write while BUSY = 1: ignored, F_BUSYWR set (R27, R165). -/
def rejectOp (s : State) : State := { s with status := { s.status with fBusyWr := true } }

/-- A host write of `v` to OP (R30). -/
def hostWriteOp (v : Word) (s : State) : State := if s.busy then rejectOp s else acceptOp v s

/-- `finish(ok, err)`: OK, ERR, DONE and BUSY = 0 in one step (R161). -/
def finish (ok : Bool) (err : ErrCode) (s : State) : State :=
  { s with status := s.status.finish ok err, seq := .idle }

/-- `finish(ok=1, err=NONE)`. -/
def succeed (s : State) : State := finish true .noError s

/-- `finish(ok=0, err=e)`. -/
def fail (e : ErrCode) (s : State) : State := finish false e s

/-! ### Registers and buffers an operation writes -/

/-- A command checksum is computed: CACC ends at it and RESULT takes it (R81, R33). -/
def putCommandChecksum (c : Byte) (s : State) : State := { s with cacc := c, result := c }

/-- CSUMB's block checksum: BACC ends at it and RESULT takes it (R84, R33). -/
def putBlockChecksum (x : Byte) (s : State) : State := { s with bacc := x, result := x }

/-- A validated block's checksum: BACC ends at it; RESULT is not touched (R121, R130). -/
def putBacc (x : Byte) (s : State) : State := { s with bacc := x }

/-- `MemWrite(RXBUF, 0, len(got), got); RXLEN <- len(got)`. -/
def putReceived (got : List Byte) (s : State) : State :=
  { s with rxbuf := Memory.writeBytes s.rxbuf 0 got, rxlen := BitVec.ofNat 16 got.length }

/-- `TERM <- term; LIMIT <- limit` (R24, R25). -/
def putReadFlags (term limit : Bool) (s : State) : State :=
  { s with status := { s.status with term := term, limit := limit } }

/-- `LIMIT <- limit` (R25). -/
def putLimit (limit : Bool) (s : State) : State := { s with status := { s.status with limit := limit } }

/-- The exposure monitor of R155 (log entry 9). -/
def putExposing (e : Bool) (s : State) : State := { s with exposing := e }

/-- `TxWrite(bs)`: the bytes leave in order, each appended to the trace (R91). -/
def transmit (bs : List Byte) (s : State) : State := { s with trace := s.trace ++ bs.map Event.tx }

/-- The latched TXBUF bytes [off, off + n) (R53, R190); none when one holds no value (R54). -/
def latchedTx (o : Operands) (off n : Nat) : Option (List Byte) := Memory.readBytes o.txbuf off n

/-! ### The link -/

/-- The DEVICE delivers byte `b` (R55): appended to RXQ, or dropped with F_RXOVR when RXQ is full. -/
def receive (b : Byte) (s : State) : State :=
  if s.rxq.length < s.cfg.rxqDepth then { s with rxq := s.rxq ++ [b] }
  else { s with status := { s.status with fRxOvr := true } }

/-- The TIMER's step (R95): in WAIT_RX of a read that has not expired, `expired <- 1` and `k <- len(RXQ)`. At any
other point the TIMER has no step and nothing changes (log entry 23). -/
def expireTimer (s : State) : State :=
  match s.seq with
  | .run op o (.waitRx r) =>
    match r.budget with
    | none => { s with seq := .run op o (.waitRx { r with budget := some s.rxq.length }) }
    | some _ => s
  | .run _ _ .exec => s
  | .idle => s

/-- Why RxRead's consuming loop stopped: the limit, the terminator, or no byte to take. -/
inductive ScanEnd where
  | limit
  | term
  | dry
deriving DecidableEq, Repr

/-- What RxRead's consuming loop took, what it left in RXQ, and why it stopped. -/
structure Scan where
  taken : List Byte
  rest  : List Byte
  stop  : ScanEnd
deriving DecidableEq, Repr

/-- The consuming part of RxRead's loop (R94). `room` is n - len(got), none for infinity; `budget` is none before
expiry and k after it. The limit is tested before RXQ, and a terminator is consumed but not taken. -/
def rxScan (term : Option Byte) : Option Nat → Option Nat → List Byte → Scan
  | some 0, _, q => ⟨[], q, .limit⟩
  | _, _, [] => ⟨[], [], .dry⟩
  | _, some 0, b :: q => ⟨[], b :: q, .dry⟩
  | room, budget, b :: q =>
    if term = some b then ⟨[], q, .term⟩
    else
      let r := rxScan term (room.map (· - 1)) (budget.map (· - 1)) q
      ⟨b :: r.taken, r.rest, r.stop⟩

/-- What a run of RxRead comes to: the read returned (got, seen, limit), or the block is in WAIT_RX. -/
inductive ReadOutcome where
  | returned (got : List Byte) (seen limit : Bool) (s : State)
  | waiting (s : State)

/-- RxRead from the read context `r`, until it returns or blocks (R94). -/
def rxContinue (op : Word) (o : Operands) (r : ReadCtx) (s : State) : ReadOutcome :=
  let sc := rxScan r.term (r.limit.map (· - r.got.length)) r.budget s.rxq
  let got := r.got ++ sc.taken
  let s' := { s with rxq := sc.rest }
  match sc.stop with
  | .limit => .returned got false r.term.isSome s'
  | .term => .returned got true false s'
  | .dry =>
    if r.budget.isSome then .returned got false false s'
    else .waiting { s' with seq := .run op o (.waitRx { r with got := got }) }

/-- `RxRead(limit, t, term)` from its start: expired at once, with k = len(RXQ), when t = 0 (R94). -/
def rxRead (op : Word) (o : Operands) (limit : Option Nat) (t : Nat) (term : Option Byte) (kont : Kont)
    (s : State) : ReadOutcome :=
  rxContinue op o
    { got := [], limit := limit, term := term, budget := if t = 0 then some s.rxq.length else none,
      timeout := t, kont := kont } s

/-- The state after a read that either blocks or goes on with what it returned. -/
def ReadOutcome.andThen (r : ReadOutcome) (f : List Byte → Bool → Bool → State → State) : State :=
  match r with
  | .returned got seen limit s => f got seen limit s
  | .waiting s => s

/-! ### Framing -/

/-- The command is the wire command `T` (R71, R141): opcode 54 and six bytes. -/
def isTakeImage (cmd : List Byte) : Bool := decide (cmd.length = 6) && decide (cmd.head? = some 0x54#8)

/-- Compute the checksum afresh, record it and transmit the frame (R103, R104). -/
def transmitFrame (cmd : List Byte) (s : State) : State :=
  transmit (frameOf cmd) (putCommandChecksum (cmdChecksum cmd) s)

/-- Transmit the frame of a host command. A frame of `T` starts an exposure, and one framed while an exposure is in
progress faults the run (R155). -/
def frameCommand (cmd : List Byte) (s : State) (k : State → Host.Outcome State Fault Refusal) :
    Host.Outcome State Fault Refusal :=
  if isTakeImage cmd && s.exposing then .fault .takeImageDuringExposure
  else k (transmitFrame cmd (putExposing (s.exposing || isTakeImage cmd) s))

/-! ### Reset -/

/-- The reset input (R174): every piece of the block's state takes its reset value. The device is not reached
(R176), so the exposure monitor stays, as do the parameters and the agents' moves to come. -/
def resetBlock (s : State) : State :=
  { State.resetWith s.cfg with inputs := s.inputs, exposing := s.exposing }

end Sys2Proof.Machine
end

