-- ==== Sys2Proof/Machine/Codec.lean ====
section
/-! DEFINITION. The checksum codec's operations CSUMC and CSUMB (40_checksum.md R87, R88). -/

namespace Sys2Proof.Machine

open Sys2Proof

/-- CSUMC n: the command checksum of TXBUF[0..n) to RESULT (R87). -/
def execCsumc (n : BitVec 16) (s : State) : Host.Outcome State Fault Refusal :=
  if txCountOk s.cfg n then
    match latchedTx s.operands 0 n.toNat with
    | some bs => .next (succeed (putCommandChecksum (cmdChecksum bs) s))
    | none => .fault .txbufUnwritten
  else .next (fail .badArg s)

/-- CSUMB n: the block checksum of TXBUF[0..n) to RESULT (R88). -/
def execCsumb (n : BitVec 16) (s : State) : Host.Outcome State Fault Refusal :=
  if txCountOk s.cfg n then
    match latchedTx s.operands 0 n.toNat with
    | some bs => .next (succeed (putBlockChecksum (blkChecksum bs) s))
    | none => .fault .txbufUnwritten
  else .next (fail .badArg s)

end Sys2Proof.Machine
end

