-- ==== Sys2Proof/Machine/Protocol.lean ====
section
/-! DEFINITION. The command protocol's operations SEND, SENDV and EXPECT (42_command_protocol.md R103 to R112). -/

namespace Sys2Proof.Machine

open Sys2Proof

/-- SEND n: frame and transmit TXBUF[0..n), reading no acknowledgement (R106). -/
def execSend (n : BitVec 16) (s : State) : Host.Outcome State Fault Refusal :=
  if commandCountOk s.cfg n then
    match latchedTx s.operands 0 n.toNat with
    | some cmd => frameCommand cmd s fun s' => .next (succeed s')
    | none => .fault .txbufUnwritten
  else .next (fail .badArg s)

/-- SENDV after its read: accepted exactly when one byte was read and it equals the checksum sent (R105, R107). -/
def sendvDone (cmd got : List Byte) (s : State) : State :=
  if got = [cmdChecksum cmd] then succeed (putReceived got s)
  else fail .nack (putReceived got s)

/-- SENDV n: frame and transmit TXBUF[0..n) and verify the one-byte echo (R107). -/
def execSendv (n : BitVec 16) (s : State) : Host.Outcome State Fault Refusal :=
  if commandCountOk s.cfg n then
    let o := s.operands
    match latchedTx o 0 n.toNat with
    | some cmd =>
      frameCommand cmd s fun s' =>
        .next ((rxRead (opWord 0x21#8 0#8 n) o (some 1) o.timeout.toNat none (.sendv cmd) s').andThen
          fun got _ _ s'' => sendvDone cmd got s'')
    | none => .fault .txbufUnwritten
  else .next (fail .badArg s)

/-- EXPECT's success: the tail of everything read is the checksum followed by the expected reply (R110). -/
def expectMatches (cmd reply got : List Byte) : Bool :=
  decide (reply.length + 1 ≤ got.length)
    && decide (tailN (reply.length + 1) got = cmdChecksum cmd :: reply)

/-- EXPECT after its read: the last RXBUF_SIZE bytes are kept, LIMIT says that more arrived (R110, R111). -/
def expectDone (cmd reply got : List Byte) (s : State) : State :=
  let s1 := putLimit (decide (s.cfg.rxbufSize < got.length)) (putReceived (tailN s.cfg.rxbufSize got) s)
  if expectMatches cmd reply got then succeed s1 else fail .nack s1

/-- EXPECT n, m: frame and transmit TXBUF[0..n), read to the deadline without limit, and compare the tail with the
checksum and TXBUF[n..n+m) (R110). -/
def execExpect (n : BitVec 16) (m : Byte) (s : State) : Host.Outcome State Fault Refusal :=
  if expectCountOk s.cfg n m then
    let o := s.operands
    match latchedTx o 0 n.toNat, latchedTx o n.toNat m.toNat with
    | some cmd, some reply =>
      frameCommand cmd s fun s' =>
        .next ((rxRead (opWord 0x22#8 m n) o none o.timeout.toNat none (.expect cmd reply) s').andThen
          fun got _ _ s'' => expectDone cmd reply got s'')
    | none, _ => .fault .txbufUnwritten
    | some _, none => .fault .txbufUnwritten
  else .next (fail .badArg s)

end Sys2Proof.Machine
end

