-- ==== Sys2Proof/Machine/Transfer.lean ====
section
/-! DEFINITION. The transfer engine's operation XFER (43_image_transfer.md R113 to R130). The pseudocode's two loops
are `attemptLoop` (the attempts left for one block) and `blockLoop` (the blocks left); a read that blocks leaves
them with the block and attempt numbers in the read's continuation, and `xferBlockDone` takes them up again. -/

namespace Sys2Proof.Machine

open Sys2Proof

/-- XFER's operation word (R114). -/
def xferWord : Word := opWord 0x30#8 0#8 0#16

/-- Session start: the five session registers (R116). -/
def startSession (total : Nat) (s : State) : State :=
  { s with blkTotal := BitVec.ofNat 32 total, blkRcvd := 0#32, tryNo := 0#8, progress := 0#7, imglen := 0#32 }

/-- `TRY <- i + 1` (R118). -/
def putTry (i : Nat) (s : State) : State := { s with tryNo := BitVec.ofNat 8 (i + 1) }

/-- Attempt i starts: TRY, and `R` before the read of a retry (R118). -/
def startAttempt (i : Nat) (s : State) : State :=
  if i = 0 then putTry i s else transmit [sigResend] (putTry i s)

/-- `MemWrite(BLKBUF, 0, len(d), d)` (R119). -/
def putBlkbuf (d : List Byte) (s : State) : State := { s with blkbuf := Memory.writeBytes s.blkbuf 0 d }

/-- The one step of acceptance after `K`: the data to IMGBUF[k × bb ..), IMGLEN, BLK_RCVD, PROGRESS and its event
(R123, R125). -/
def storeBlock (o : Operands) (k : Nat) (data : List Byte) (s : State) : State :=
  let p : BitVec 7 := BitVec.ofNat 7 (progressOf (k + 1) o.totalBlocks)
  { s with
    imgbuf   := Memory.writeBytes s.imgbuf (k * o.blockBytes) data
    imglen   := BitVec.ofNat 32 ((k + 1) * o.blockBytes)
    blkRcvd  := BitVec.ofNat 32 (k + 1)
    progress := p
    trace    := s.trace ++ [Event.progress p] }

/-- An accepted attempt of block k: `K`, then the store (R123). -/
def acceptBlock (o : Operands) (k : Nat) (data : List Byte) (s : State) : State :=
  storeBlock o k data (transmit [sigOk] s)

/-- A full-length attempt that fails validation: under LITERAL_DOUBLE it sends `R` at once (R124). -/
def signalMismatch (s : State) : State :=
  match s.cfg.retrySignalPolicy with
  | .onePerRetry => s
  | .literalDouble => transmit [sigResend] s

/-- `IMGLEN <- 0` (R126). -/
def discardImage (s : State) : State := { s with imglen := 0#32 }

/-- Exhaustion: `S`, the accepted data discarded, and the cause of the last attempt (R126). -/
def abortTransfer (cause : ErrCode) (s : State) : State := fail cause (discardImage (transmit [sigStop] s))

/-- How an attempt, or the attempts left for a block, come out. -/
inductive AttemptOutcome where
  | accepted (s : State)
  | failed (cause : ErrCode) (s : State)
  | waiting (s : State)

/-- Judge the bytes `d` of an attempt of block k (R120 to R124): short, accepted, or mismatched. -/
def judgeAttempt (o : Operands) (k : Nat) (d : List Byte) (s : State) : AttemptOutcome :=
  let bb := o.blockBytes
  let s1 := putBlkbuf d s
  let data := d.take bb
  if d.length < bb + 1 then .failed .timeout s1
  else if o.chkDis then .accepted (acceptBlock o k data s1)
  else
    let s2 := putBacc (blkChecksum data) s1
    if d[bb]? = some (blkChecksum data) then .accepted (acceptBlock o k data s2)
    else .failed .checksum (signalMismatch s2)

/-- The attempts left for block k, from attempt i; `cause` is the cause of the attempt before (R118 to R124). -/
def attemptLoop (o : Operands) (k : Nat) : Nat → Nat → ErrCode → State → AttemptOutcome
  | 0, _, cause, s => .failed cause s
  | left + 1, i, _, s =>
    match rxRead xferWord o (some (o.blockBytes + 1)) (o.blockReadTimeout s.cfg) none (.xferBlock k i)
        (startAttempt i s) with
    | .waiting s' => .waiting s'
    | .returned d _ _ s' =>
      match judgeAttempt o k d s' with
      | .accepted s'' => .accepted s''
      | .failed cause' s'' => attemptLoop o k left (i + 1) cause' s''
      | .waiting s'' => .waiting s''

/-- The blocks left, from block k; after the last one the transfer has succeeded (R114, R126, R127). -/
def blockLoop (o : Operands) : Nat → Nat → State → State
  | 0, _, s => succeed s
  | left + 1, k, s =>
    match attemptLoop o k o.maxTries 0 .noError s with
    | .waiting s' => s'
    | .failed cause s' => abortTransfer cause s'
    | .accepted s' => blockLoop o left (k + 1) s'

/-- XFER after the read of attempt i of block k returned `d`: judge it and go on with the attempts and blocks left. -/
def xferBlockDone (o : Operands) (k i : Nat) (d : List Byte) (s : State) : State :=
  match judgeAttempt o k d s with
  | .waiting s' => s'
  | .accepted s' => blockLoop o (o.totalBlocks - (k + 1)) (k + 1) s'
  | .failed cause s' =>
    match attemptLoop o k (o.maxTries - (i + 1)) (i + 1) cause s' with
    | .waiting s'' => s''
    | .failed cause' s'' => abortTransfer cause' s''
    | .accepted s'' => blockLoop o (o.totalBlocks - (k + 1)) (k + 1) s''

/-- XFER after its begin-echo read: PROTOCOL unless the byte 27 came, else the blocks (R117). -/
def xferEchoDone (o : Operands) (got : List Byte) (s : State) : State :=
  let s1 := putReceived got s
  if got = [cmdChecksum [0x58#8]] then blockLoop o o.totalBlocks 0 s1 else fail .protocol s1

/-- XFER after its configuration checks: the session, the begin frame 58 27, and the echo read or the first block
(R116, R117). -/
def beginTransfer (o : Operands) (s : State) : State :=
  let s1 := transmitFrame [0x58#8] (startSession o.totalBlocks s)
  match s.cfg.xferBeginAck with
  | .echo =>
    (rxRead xferWord o (some 1) o.timeout.toNat none .xferEcho s1).andThen fun got _ _ s' => xferEchoDone o got s'
  | .noEcho => blockLoop o o.totalBlocks 0 s1

/-- XFER: download one image (R114); an illegal configuration finishes at once with BAD_ARG (R115). -/
def execXfer (s : State) : Host.Outcome State Fault Refusal :=
  let o := s.operands
  if xferConfigOk s.cfg o then .next (beginTransfer o s) else .next (fail .badArg s)

end Sys2Proof.Machine
end

