-- ==== Sys2Proof/Machine/Transport.lean ====
section
/-! DEFINITION. The UART framer's byte-level operations WRITE, READ, RDUNT, SETBAUD and DRAIN
(41_transport.md R96 to R101). A `…Done` function is what its operation does with what its read returned. -/

namespace Sys2Proof.Machine

open Sys2Proof

/-- WRITE n: transmit TXBUF[0..n) raw (R96). -/
def execWrite (n : BitVec 16) (s : State) : Host.Outcome State Fault Refusal :=
  if txCountOk s.cfg n then
    match latchedTx s.operands 0 n.toNat with
    | some bs => .next (succeed (transmit bs s))
    | none => .fault .txbufUnwritten
  else .next (fail .badArg s)

/-- READ after its read: the bytes to RXBUF and RXLEN, OK whether or not the read was short (R97). -/
def readDone (got : List Byte) (s : State) : State := succeed (putReceived got s)

/-- READ n: up to n bytes with the TIMEOUT register's timeout (R97). -/
def execRead (n : BitVec 16) (s : State) : Host.Outcome State Fault Refusal :=
  if rxCountOk s.cfg n then
    let o := s.operands
    .next ((rxRead (opWord 0x11#8 0#8 n) o (some n.toNat) o.timeout.toNat none .read s).andThen
      fun got _ _ s' => readDone got s')
  else .next (fail .badArg s)

/-- A RDUNT of the done marker that times out abandons the exposure (R155; log entry 9). -/
def endExposure (b : Byte) (seen limit : Bool) (s : State) : State :=
  if b = doneMarker ∧ seen = false ∧ limit = false then putExposing false s else s

/-- RDUNT after its read: the bytes to RXBUF and RXLEN, TERM and LIMIT as the read ended (R98). -/
def rduntDone (b : Byte) (got : List Byte) (seen limit : Bool) (s : State) : State :=
  succeed (putReadFlags seen limit (putReceived got (endExposure b seen limit s)))

/-- RDUNT n, b: read until the terminator b, the timeout, or n bytes (R98). -/
def execRdunt (n : BitVec 16) (b : Byte) (s : State) : Host.Outcome State Fault Refusal :=
  if rxLimitOk s.cfg n then
    let o := s.operands
    .next ((rxRead (opWord 0x12#8 b n) o (some n.toNat) o.timeout.toNat (some b) (.rdunt b) s).andThen
      fun got seen limit s' => rduntDone b got seen limit s')
  else .next (fail .badArg s)

/-- `BAUD.CODE <- c` (R100). -/
def putBaud (c : Byte) (s : State) : State := { s with baud := c.setWidth 3 }

/-- SETBAUD c: select the link rate (R100). -/
def execSetbaud (c : Byte) (s : State) : Host.Outcome State Fault Refusal :=
  if baudCodeOk c then .next (succeed (putBaud c s)) else .next (fail .badArg s)

/-- `RXQ <- []` (R101). -/
def clearRxq (s : State) : State := { s with rxq := [] }

/-- DRAIN: discard the bytes queued now (R101). -/
def execDrain (s : State) : Host.Outcome State Fault Refusal := .next (succeed (clearRxq s))

end Sys2Proof.Machine
end

