-- ==== Sys2Proof/Machine/Bus.lean ====
section
/-! DEFINITION. The host bus: reads and writes of the registers and buffers (10_state.md R19 to R42, 20_memory.md
R45 to R54). A bus fault has no effect but F_BUS and the error response (R49; log entry 7). -/

namespace Sys2Proof.Machine

open Sys2Proof

/-- The response of the host's last access. -/
def respond (r : BusResponse) (s : State) : State := { s with bus := r }

/-- A bus fault (R49): F_BUS, an error response, and no other effect. -/
def busFault (s : State) : State := respond .error { s with status := { s.status with fBus := true } }

/-- The value a host read of the register at offset `off` returns (R19 to R41, R50). -/
def registerValue (s : State) (off : Nat) : Word :=
  match off with
  | 0x00 => (bit s.chkDis).setWidth 32
  | 0x04 => s.status.word s.busy
  | 0x08 => 0#32
  | 0x0C => s.timeout
  | 0x10 => s.baud.setWidth 32
  | 0x14 => s.result.setWidth 32
  | 0x18 => s.rxlen.setWidth 32
  | 0x1C => s.xferCfg
  | 0x20 => s.imgDim
  | 0x24 => s.blkTotal
  | 0x28 => s.blkRcvd
  | 0x2C => s.tryNo.setWidth 32
  | 0x30 => s.progress.setWidth 32
  | 0x34 => s.imglen
  | _ => 0#32

/-- A host write of `v` to the register at offset `off`: RW registers store their non-reserved bits, RO registers
ignore it (R50), and OP starts an operation (R30). -/
def writeRegister (off : Nat) (v : Word) (s : State) : State :=
  match off with
  | 0x00 => { s with chkDis := v.getLsbD 0 }
  | 0x08 => hostWriteOp v s
  | 0x0C => { s with timeout := v }
  | 0x1C => { s with xferCfg := storedXferCfg v }
  | 0x20 => { s with imgDim := v }
  | _ => s

/-- The TXBUF bytes a host write stores (R42, R48). -/
def writeTxbuf (i : Nat) (bs : List Byte) (s : State) : State :=
  { s with txbuf := Memory.writeBytes s.txbuf i bs }

/-- A host bus write at offset `off` from BASE (R47 to R50). -/
def hostWriteAt (w : Width) (off : Nat) (v : Word) (s : State) : State :=
  match busTarget s.cfg w off with
  | .register off => respond .ack (writeRegister off v s)
  | .tx i => respond .ack (writeTxbuf i (wordBytes w v) s)
  | .rx _ => busFault s
  | .img _ => busFault s
  | .fault => busFault s

/-- A host bus write at a bus address (R45, R47 to R50). -/
def hostWrite (w : Width) (addr v : Word) (s : State) : State := hostWriteAt w (busOffset s.cfg addr) v s

/-- The bytes of a buffer read, as a bus value; a byte that holds no value faults the run (R54). -/
def bufferRead (m : Memory) (i n : Nat) (f : Fault) (s : State) : Host.Outcome State Fault Refusal :=
  match Memory.readBytes m i n with
  | some bs => .next (respond (.data (bytesWord bs)) s)
  | none => .fault f

/-- A host bus read (R47 to R50, R54, R61, R62). -/
def hostRead (w : Width) (addr : Word) (s : State) : Host.Outcome State Fault Refusal :=
  match busTarget s.cfg w (busOffset s.cfg addr) with
  | .register off => .next (respond (.data (registerValue s off)) s)
  | .tx i => bufferRead s.txbuf i w.bytes .txbufUnwritten s
  | .rx i =>
    if s.busy = false ∧ i + w.bytes ≤ s.rxlen.toNat then bufferRead s.rxbuf i w.bytes .rxbufUndefined s
    else .fault .rxbufUndefined
  | .img i =>
    if i + w.bytes ≤ s.imglen.toNat then bufferRead s.imgbuf i w.bytes .imgbufUndefined s
    else .fault .imgbufUndefined
  | .fault => .next (busFault s)

/-- `tx k: bs` (R76): 8-bit host writes of `bs` to TXBUF offsets k, k + 1, ... -/
def hostTx (k : Nat) (bs : List Byte) (s : State) : State :=
  match bs with
  | [] => s
  | b :: bs => hostTx (k + 1) bs (hostWriteAt .w8 (0x1000 + k) (b.setWidth 32) s)

end Sys2Proof.Machine
end

