-- ==== Sys2Proof/Machine/Wire.lean ====
section
/-! DEFINITION. The wire rows of the opcode table (44_wire_commands.md R131 to R150). A framed command is issued by
the host operation its rule names; a signal byte by the macro `SIG` of R77; a marker is a byte the DEVICE delivers
(log entry 10). The block does not decode any of them (R112). -/

namespace Sys2Proof.Machine

open Sys2Proof

/-- `tx 0: bs` and then the OP write of `op`, with the block's step `run` when the write is accepted. While BUSY the
bytes are stored for later operations (R53) and the OP write is R165's. -/
def issueOp (bs : List Byte) (op : Word) (run : State → Host.Outcome State Fault Refusal) (s : State) :
    Host.Outcome State Fault Refusal :=
  let s1 := respond .ack (hostTx 0 bs s)
  if s1.busy then .next (rejectOp s1) else run (acceptOp op s1)

/-- The macro `CMD b0 ... bk-1` (R77): the command by SENDV. -/
def issueCommand (bs : List Byte) (s : State) : Host.Outcome State Fault Refusal :=
  issueOp bs (opWord 0x21#8 0#8 (BitVec.ofNat 16 bs.length)) (execSendv (BitVec.ofNat 16 bs.length)) s

/-- The macro `SIG b` (R77): one unframed byte by WRITE. -/
def issueSignal (b : Byte) (s : State) : Host.Outcome State Fault Refusal :=
  issueOp [b] (opWord 0x10#8 0#8 1#16) (execWrite 1#16) s

/-- The DEVICE delivers the marker `D`, which ends an exposure (R149, R155). -/
def receiveDoneMarker (s : State) : State := receive doneMarker (putExposing false s)

/-- `E`, communications test: `SENDV 1` of 45 (R132). -/
def execWireE (s : State) : Host.Outcome State Fault Refusal := issueCommand [0x45#8] s
/-- `O`, open shutter: `SENDV 1` of 4F (R133). -/
def execWireO (s : State) : Host.Outcome State Fault Refusal := issueCommand [0x4F#8] s
/-- `C`, close shutter: `SENDV 1` of 43 (R134). -/
def execWireC (s : State) : Host.Outcome State Fault Refusal := issueCommand [0x43#8] s
/-- `K`, de-energize shutter motor: `SENDV 1` of 4B (R135). -/
def execWireK (s : State) : Host.Outcome State Fault Refusal := issueCommand [0x4B#8] s
/-- `g` 01, heater on: `SENDV 2` of 67 01 (R136). -/
def execWireG1 (s : State) : Host.Outcome State Fault Refusal := issueCommand [0x67#8, 0x01#8] s
/-- `g` 00, heater off: `SENDV 2` of 67 00 (R137). -/
def execWireG0 (s : State) : Host.Outcome State Fault Refusal := issueCommand [0x67#8, 0x00#8] s
/-- `V`, get firmware version: `SENDV 1` of 56; the reply stays queued for a following `READ 2` (R138). -/
def execWireV (s : State) : Host.Outcome State Fault Refusal := issueCommand [0x56#8] s
/-- `r`, get serial number: `SENDV 1` of 72; the reply stays queued for a following `READ 9` (R139). -/
def execWireR (s : State) : Host.Outcome State Fault Refusal := issueCommand [0x72#8] s
/-- `B`, select baud rate: `SEND 2` of 42 and its argument byte (R140). -/
def execWireB (arg : Byte) (s : State) : Host.Outcome State Fault Refusal :=
  issueOp [0x42#8, arg] (opWord 0x20#8 0#8 2#16) (execSend 2#16) s
/-- `T`, take image: `SENDV 6` of 54, the tick bytes and the mode bytes (R141). -/
def execWireT (t0 t1 t2 m0 m1 : Byte) (s : State) : Host.Outcome State Fault Refusal :=
  issueCommand [0x54#8, t0, t1, t2, m0, m1] s
/-- `A`, abort image: `SENDV 1` of 41 (R142). -/
def execWireA (s : State) : Host.Outcome State Fault Refusal := issueCommand [0x41#8] s
/-- `X`, begin image transfer: sent only by XFER (R143, R117). -/
def execWireX (s : State) : Host.Outcome State Fault Refusal := issueOp [] xferWord execXfer s
/-- `H`, calibrate guider: `SENDV 1` of 48; the reply stays queued for a following `RDUNT n, 0x1A` (R144). -/
def execWireH (s : State) : Host.Outcome State Fault Refusal := issueCommand [0x48#8] s
/-- `I`, begin autonomous guide: `SENDV 1` of 49; the reply stays queued for a following `RDUNT n, 0x1A` (R145). -/
def execWireI (s : State) : Host.Outcome State Fault Refusal := issueCommand [0x49#8] s
/-- Signal `K`, checksum OK, sent by the host with WRITE (R146, R96). XFER's own is `acceptBlock`'s. -/
def execSignalK (s : State) : Host.Outcome State Fault Refusal := issueSignal sigOk s
/-- Signal `R`, resend, sent by the host with WRITE (R147, R96). XFER's own is `startAttempt`'s. -/
def execSignalR (s : State) : Host.Outcome State Fault Refusal := issueSignal sigResend s
/-- Signal `S`, stop transfer, sent by the host with WRITE (R148, R96). XFER's own is `abortTransfer`'s. -/
def execSignalS (s : State) : Host.Outcome State Fault Refusal := issueSignal sigStop s
/-- Marker `D` arrives from the device (R149). -/
def execMarkerD (s : State) : Host.Outcome State Fault Refusal := .next (receiveDoneMarker s)
/-- Terminator 0x1A arrives from the device (R150). -/
def execMarker1A (s : State) : Host.Outcome State Fault Refusal := .next (receive replyTerminator s)

end Sys2Proof.Machine
end

