-- ==== Sys2Proof/Machine/Dispatch.lean ====
section
/-! DEFINITION. One arm per instruction of the opcode table. -/

namespace Sys2Proof.Machine

open Sys2Proof

def exec (i : Instr) (s : State) : Host.Outcome State Fault Refusal :=
  match i with
  | .csumc n => Sys2Proof.Machine.execCsumc n s
  | .csumb n => Sys2Proof.Machine.execCsumb n s
  | .write n => Sys2Proof.Machine.execWrite n s
  | .read n => Sys2Proof.Machine.execRead n s
  | .rdunt n b => Sys2Proof.Machine.execRdunt n b s
  | .setbaud c => Sys2Proof.Machine.execSetbaud c s
  | .drain => Sys2Proof.Machine.execDrain s
  | .send n => Sys2Proof.Machine.execSend n s
  | .sendv n => Sys2Proof.Machine.execSendv n s
  | .expect n m => Sys2Proof.Machine.execExpect n m s
  | .xfer => Sys2Proof.Machine.execXfer s
  | .wireE => Sys2Proof.Machine.execWireE s
  | .wireO => Sys2Proof.Machine.execWireO s
  | .wireC => Sys2Proof.Machine.execWireC s
  | .wireK => Sys2Proof.Machine.execWireK s
  | .wireG1 => Sys2Proof.Machine.execWireG1 s
  | .wireG0 => Sys2Proof.Machine.execWireG0 s
  | .wireV => Sys2Proof.Machine.execWireV s
  | .wireR => Sys2Proof.Machine.execWireR s
  | .wireB arg => Sys2Proof.Machine.execWireB arg s
  | .wireT t0 t1 t2 m0 m1 => Sys2Proof.Machine.execWireT t0 t1 t2 m0 m1 s
  | .wireA => Sys2Proof.Machine.execWireA s
  | .wireX => Sys2Proof.Machine.execWireX s
  | .wireH => Sys2Proof.Machine.execWireH s
  | .wireI => Sys2Proof.Machine.execWireI s
  | .signalK => Sys2Proof.Machine.execSignalK s
  | .signalR => Sys2Proof.Machine.execSignalR s
  | .signalS => Sys2Proof.Machine.execSignalS s
  | .markerD => Sys2Proof.Machine.execMarkerD s
  | .marker1A => Sys2Proof.Machine.execMarker1A s

end Sys2Proof.Machine
end

