-- ==== Sys2Proof/Machine/Sequencer.lean ====
section
/-! DEFINITION. The agents' moves (00_scope.md R6): the BLOCK's step (decode and run the latched operation word, or
take up a read again), the HOST's, the DEVICE's and the TIMER's, and the move taken when none is listed. -/

namespace Sys2Proof.Machine

open Sys2Proof

/-- What the operation does with what its read returned. -/
def afterRead (o : Operands) (kont : Kont) (got : List Byte) (seen limit : Bool) (s : State) : State :=
  match kont with
  | .read => readDone got s
  | .rdunt b => rduntDone b got seen limit s
  | .sendv cmd => sendvDone cmd got s
  | .expect cmd reply => expectDone cmd reply got s
  | .xferEcho => xferEchoDone o got s
  | .xferBlock k i => xferBlockDone o k i got s

/-- The block takes up the read in progress, and goes on with its operation when the read returns (R94). -/
def resumeRead (op : Word) (o : Operands) (r : ReadCtx) (s : State) : State :=
  (rxContinue op o r s).andThen fun got seen limit s' => afterRead o r.kont got seen limit s'

/-- How an operation word that does not decode finishes (R66, R67, R166). -/
def rejectWord (e : DecodeError) (s : State) : State :=
  match e with
  | .illegalOp => fail .illegalOp s
  | .badArg => fail .badArg s
  | .unknownCommand => fail .illegalOp s
  | .wrongLength => fail .illegalOp s
  | .unknownArgument => fail .illegalOp s
  | .unknownSignal => fail .illegalOp s
  | .unknownMarker => fail .illegalOp s

/-- The block decodes the latched operation word and runs it (R68). -/
def runOperation (op : Word) (s : State) : Host.Outcome State Fault Refusal :=
  match decode (.op op) with
  | .ok i => exec i s
  | .error e => .next (rejectWord e s)

/-- The BLOCK's step. In IDLE it has none, and in WAIT_RX it has none until RXQ holds a byte or the read has expired
(R94): nothing changes then (log entry 23). -/
def blockMove (s : State) : Host.Outcome State Fault Refusal :=
  match s.seq with
  | .idle => .next s
  | .run op _ .exec => runOperation op s
  | .run op o (.waitRx r) => .next (resumeRead op o r s)

/-- The HOST issues the bytes of a command: a wire command by its own host operation, any other by `CMD` (R77,
R112). -/
def commandMove (bs : List Byte) (s : State) : Host.Outcome State Fault Refusal :=
  match decode (.frame bs) with
  | .ok i => exec i s
  | .error _ => issueCommand bs s

/-- The HOST issues an unframed byte by `SIG` (R77). -/
def signalMove (b : Byte) (s : State) : Host.Outcome State Fault Refusal :=
  match decode (.signal b) with
  | .ok i => exec i s
  | .error _ => issueSignal b s

/-- The DEVICE delivers a byte (R55). A 44 that is the echo of a command or a byte of a reply comes this way. -/
def deviceMove (b : Byte) (s : State) : Host.Outcome State Fault Refusal := .next (receive b s)

/-- The DEVICE delivers a marker (R149, R150); any other byte is only a byte. -/
def markerMove (b : Byte) (s : State) : Host.Outcome State Fault Refusal :=
  match decode (.marker b) with
  | .ok i => exec i s
  | .error _ => deviceMove b s

/-- One agent's move. -/
def agentMove (m : Move) (s : State) : Host.Outcome State Fault Refusal :=
  match m with
  | .busWrite w addr v => .next (hostWrite w addr v s)
  | .busRead w addr => hostRead w addr s
  | .command bs => commandMove bs s
  | .signal b => signalMove b s
  | .device b => deviceMove b s
  | .marker b => markerMove b s
  | .takeLost => .next (putExposing false s)
  | .timer => .next (expireTimer s)
  | .block => blockMove s
  | .reset => .next (resetBlock s)

/-- The move when no agent's move is listed: the block steps when it can, else the read in progress expires (R95's
fairness), else the block is IDLE and waits (R172; log entry 5). -/
def defaultMove (s : State) : Move :=
  match s.seq with
  | .idle => .block
  | .run _ _ .exec => .block
  | .run _ _ (.waitRx r) => if s.rxq = [] ∧ r.budget = none then .timer else .block

/-- Put an encoded instruction where the next step fetches it: an operation word is latched by the OP write that the
block's next step decodes; a wire row is the next move of the agent that makes it (log entry 6). -/
def placeEncoded (e : Encoded) (s : State) : State :=
  match e with
  | .op w => { acceptOp w { s with seq := .idle } with inputs := .block :: s.inputs }
  | .frame bs => { s with seq := .idle, inputs := .command bs :: s.inputs }
  | .signal b => { s with seq := .idle, inputs := .signal b :: s.inputs }
  | .marker b => { s with inputs := .marker b :: s.inputs }

end Sys2Proof.Machine
end

