-- ==== Sys2Proof/Machine/Step.lean ====
section
/-! DEFINITION. The step: the next listed move, or the default move when none is listed. -/

namespace Sys2Proof.Machine

open Sys2Proof

/-- One step of the machine (R6, R11, R57). -/
def step (s : State) : Host.Outcome State Fault Refusal :=
  match s.inputs with
  | [] => agentMove (defaultMove s) s
  | m :: rest => agentMove m { s with inputs := rest }

/-- `s` with the instruction of an opcode-table word placed where the next step fetches it. -/
def State.withFetchWord (s : State) (nbits w : Nat) : State := placeEncoded (tableEncoded nbits w) s

end Sys2Proof.Machine
end

