-- ==== Sys2Proof/Machine/Device.lean ====
section
/-! DEFINITION. The peer contract (44_wire_commands.md R73, R131 to R145, R152, R153): what a device that follows the
source sends back. The DEVICE agent of the machine is an oracle (R6): its bytes are the `device` and
`marker` moves of `State.inputs`, and nothing here constrains them. Statements about a conforming device take these definitions as
their premises. -/

namespace Sys2Proof.Machine

open Sys2Proof

/-- The shape of what the device sends after the echo of a framed command. -/
inductive Reply where
  /-- the echo only -/
  | echoOnly
  /-- so many bytes after the echo -/
  | counted (n : Nat)
  /-- bytes ended by a terminator, after the echo -/
  | terminated (b : Byte)
  /-- the done marker after the echo, once the exposure completes -/
  | doneMarkerLater
  /-- the image blocks, after the echo under XFER_BEGIN_ACK = ECHO and without it otherwise -/
  | blocks
deriving DecidableEq, Repr

/-- The reply of each framed command (R132 to R145, D35); none for the rows that are not framed commands. -/
def replyOf : Instr → Option Reply
  | .wireE => some .echoOnly
  | .wireO => some .echoOnly
  | .wireC => some .echoOnly
  | .wireK => some .echoOnly
  | .wireG1 => some .echoOnly
  | .wireG0 => some .echoOnly
  | .wireV => some (.counted 2)
  | .wireR => some (.counted 9)
  | .wireB _ => some .echoOnly
  | .wireT _ _ _ _ _ => some .doneMarkerLater
  | .wireA => some .echoOnly
  | .wireX => some .blocks
  | .wireH => some (.terminated replyTerminator)
  | .wireI => some (.terminated replyTerminator)
  | .csumc _ => none
  | .csumb _ => none
  | .write _ => none
  | .read _ => none
  | .rdunt _ _ => none
  | .setbaud _ => none
  | .drain => none
  | .send _ => none
  | .sendv _ => none
  | .expect _ _ => none
  | .xfer => none
  | .signalK => none
  | .signalR => none
  | .signalS => none
  | .markerD => none
  | .marker1A => none

/-- One block on the wire: its data and their XOR (R73, R153). -/
def wireBlock (data : List Byte) : List Byte := data ++ [blkChecksum data]

/-- The blocks of an image on the wire, in order (R153). -/
def blockStream (blocks : List (List Byte)) : List Byte := (blocks.map wireBlock).flatten

/-- `sent` is some number of whole blocks of `bb` data bytes, each with its XOR, resends included (R153). `fuel` bounds
the number of blocks. -/
def isBlockStream (bb : Nat) : Nat → List Byte → Bool
  | 0, sent => decide (sent = [])
  | fuel + 1, sent =>
    decide (sent = [])
      || (decide (bb + 1 ≤ sent.length) && decide (blkChecksum (sent.take (bb + 1)) = 0#8)
        && isBlockStream bb fuel (sent.drop (bb + 1)))

/-- What the device sends in all for the blocks left, given the signals the block sends it: a block, and after `K` the
next one, after `R` the same one again, after `S` nothing more (R153). DESIGN CHOICE: the spec does not state what the device
sends when no signal comes within its own timeout (R153, R186), nor after a byte that is no signal, nor after a signal that
follows the last block's `K`; here it sends nothing more. Nor does it say whether two `R` between attempts (LITERAL_DOUBLE)
ask for one resend or two (90_conflicts.md C5; vector XF3 scripts one); here each `R` is answered by a resend (log entry
28). -/
def blocksFor : List (List Byte) → List Byte → List Byte
  | [], _ => []
  | d :: _, [] => wireBlock d
  | d :: ds, sig :: sigs =>
    wireBlock d ++
      (if sig = sigOk then blocksFor ds sigs else if sig = sigResend then blocksFor (d :: ds) sigs else [])

/-- The acknowledgement of the `X` frame, when the device sends one (R117, R143). -/
def beginEcho (ack : XferBeginAck) : List Byte :=
  match ack with
  | .echo => [cmdChecksum [0x58#8]]
  | .noEcho => []

/-- The bytes of `sent` after the echo of `cmd`; none when the first byte is not the echo (R152). -/
def afterEcho (cmd sent : List Byte) : Option (List Byte) :=
  match sent with
  | [] => none
  | echo :: rest => if echo = cmdChecksum cmd then some rest else none

/-- The bytes `sent` are an answer to the command bytes `cmd` of reply shape `r`, for blocks of `bb` data bytes: the
echo of the checksum, then the reply (R73, R152); for the image blocks, the echo only under XFER_BEGIN_ACK = ECHO
(R143). DESIGN CHOICE: the spec leaves the content of an `H` or `I` reply open and does not say whether its data may hold
the terminator 1A; here an answer has 1A at its end and nowhere before (log entry 27). -/
def answers (ack : XferBeginAck) (bb : Nat) (r : Reply) (cmd sent : List Byte) : Bool :=
  match r with
  | .echoOnly => decide (afterEcho cmd sent = some [])
  | .counted n => (afterEcho cmd sent).any fun rest => decide (rest.length = n)
  | .terminated b =>
    (afterEcho cmd sent).any fun rest => decide (rest.getLast? = some b) && decide (b ∉ rest.dropLast)
  | .doneMarkerLater =>
    (afterEcho cmd sent).any fun rest => decide (rest = []) || decide (rest = [doneMarker])
  | .blocks =>
    match ack with
    | .echo => (afterEcho cmd sent).any fun rest => isBlockStream bb rest.length rest
    | .noEcho => isBlockStream bb sent.length sent

/-- The block's rate is DEVICE_BAUD (R56). At any other rate the bytes that arrive are any bytes, which the DEVICE oracle
covers. DESIGN CHOICE: DEVICE_BAUD is the parameter and stays what it is, while R154 has the device change its rate after
`B` and its handshake and leaves it unknown after a failed change; so after a rate change this compares with the rate before
it (log entry 30). -/
def ratesMatch (s : State) : Bool := decide (baudRate s.cfg s.baud = s.cfg.deviceBaud)

end Sys2Proof.Machine
end

