-- ==== Sys2Proof/Machine/HostOps.lean ====
section
/-! DEFINITION. What a host program computes for the wire commands whose bytes depend on the parameters
(44_wire_commands.md R140, R141, R149, R154), and the straight-line parts of host programs as agents' moves (R76).
Host software is out of the spec's scope (R5); these give the host-side parameters of R7 the meaning their rules
give them. -/

namespace Sys2Proof.Machine

open Sys2Proof

/-- The argument byte of `B` for code `c` (R140). -/
def baudArg (cfg : Config) (c : Nat) : Byte :=
  match cfg.baudCodeForm with
  | .asciiDigit => BitVec.ofNat 8 (0x30 + c)
  | .binary => BitVec.ofNat 8 c

/-- The wire command `B` for code `c` (R140). -/
def baudSelect (cfg : Config) (c : Nat) : Instr := .wireB (baudArg cfg c)

/-- The tick count of an exposure in microseconds, clamped (R141). DESIGN CHOICE: how a host rounds to ticks is not stated
(R141, 93 U22); here down (log entry 29). -/
def exposureTicks (cfg : Config) (us : Nat) : Nat := min (us / 100) cfg.maxExposureTicks

/-- The wire command `T` for a tick count (R141). -/
def takeImage (cfg : Config) (ticks : Nat) : Instr :=
  let hi : Byte := BitVec.ofNat 8 (ticks / 65536)
  let mid : Byte := BitVec.ofNat 8 (ticks / 256)
  let lo : Byte := BitVec.ofNat 8 ticks
  match cfg.tickByteOrder with
  | .msbFirst => .wireT hi mid lo cfg.tMode0 cfg.tMode1
  | .lsbFirst => .wireT lo mid hi cfg.tMode0 cfg.tMode1

/-- TIMEOUT of the done-marker wait: the requested exposure plus EXPOSURE_SLACK (R149). -/
def doneMarkerTimeout (cfg : Config) (us : Nat) : Nat := us + cfg.exposureSlackUs

/-- `op`: the host's write of an operation word to OP, and the block's step (R76). -/
def opMoves (cfg : Config) (w : Word) : List Move := [.busWrite .w32 (cfg.base + 0x08#32) w, .block]

/-- `tx k: bs` as 8-bit writes (R76). -/
def txMoves (cfg : Config) : Nat → List Byte → List Move
  | _, [] => []
  | k, b :: bs => .busWrite .w8 (cfg.base + BitVec.ofNat 32 (0x1000 + k)) (b.setWidth 32) :: txMoves cfg (k + 1) bs

/-- `tx 0: bs` and `WRITE len(bs)`. -/
def writeMoves (cfg : Config) (bs : List Byte) : List Move :=
  txMoves cfg 0 bs ++ opMoves cfg (opWord 0x10#8 0#8 (BitVec.ofNat 16 bs.length))

/-- The rate change of R154 between its two communications checks: `B c` framed, SETBAUD c, DRAIN, the two tokens
raw, DRAIN. -/
def baudChangeMoves (cfg : Config) (c : Nat) : List Move :=
  [.command [0x42#8, baudArg cfg c]]
    ++ opMoves cfg (opWord 0x13#8 (BitVec.ofNat 8 c) 0#16)
    ++ opMoves cfg (opWord 0x14#8 0#8 0#16)
    ++ writeMoves cfg cfg.baudToken1
    ++ writeMoves cfg cfg.baudToken2
    ++ opMoves cfg (opWord 0x14#8 0#8 0#16)

end Sys2Proof.Machine
end

