-- ==== Sys2Proof/Machine/Line.lean ====
section
/-! DEFINITION. A byte as a character on the line and the idle line (30_encoding.md R74) under LINE_FORMAT (00_scope.md
R7), the levels of what the block has transmitted, and what a receiver reads from levels. PRESUMED: the spec marks the
start bit, the bit order and the idle level as general knowledge (log entry 21). The operations work on bytes and use none
of this, as R74 says. -/

namespace Sys2Proof.Machine

open Sys2Proof

/-- The parity bit of the data bits `bits`, when the format has one. -/
def parityBits (p : Parity) (bits : List Bool) : List Bool :=
  match p with
  | .noParity => []
  | .even => [bits.foldr Bool.xor false]
  | .odd => [!bits.foldr Bool.xor false]

/-- The data bits of a byte, least significant first (R74). -/
def dataBits (n : Nat) (b : Byte) : List Bool := (List.range n).map fun k => b.getLsbD k

/-- The line levels of one character: start bit 0, the data bits, the parity bit if any, the stop bits 1 (R74). -/
def charBits (f : LineFormat) (b : Byte) : List Bool :=
  let bits := dataBits f.dataBits b
  false :: (bits ++ (parityBits f.parity bits ++ List.replicate f.stopBits true))

/-- The byte whose data bits, least significant first, are `bits`. -/
def byteOfBits (bits : List Bool) : Byte :=
  BitVec.ofNat 8 (bits.foldr (fun bit acc => bit.toNat + 2 * acc) 0)

/-- What a receiver reads from the levels of one character; none when they are no character of the format. -/
def readChar (f : LineFormat) (levels : List Bool) : Option Byte :=
  match levels with
  | false :: rest =>
    let bits := rest.take f.dataBits
    if rest = bits ++ (parityBits f.parity bits ++ List.replicate f.stopBits true) then some (byteOfBits bits) else none
  | _ => none

/-- The level of the line when no character is on it: 1 (R74). -/
def idleLevel : Bool := true

/-- The bits of one character: start bit, data bits, parity bit if any, stop bits. -/
def charLength (f : LineFormat) : Nat := 1 + (f.dataBits + ((parityBits f.parity []).length + f.stopBits))

/-- The levels of a line that carries `bs`, in bit times: the line is idle for `idle k` before character `k`, counted from
the given number, and again after the last (R74). The idle times are the sender's timing, which nothing fixes. -/
def lineLevels (f : LineFormat) (idle : Nat → Nat) : Nat → List Byte → List Bool
  | k, [] => List.replicate (idle k) idleLevel
  | k, b :: bs => List.replicate (idle k) idleLevel ++ (charBits f b ++ lineLevels f idle (k + 1) bs)

/-- The bytes a receiver reads from the levels of a line, skipping the idle level before each start bit; none when a start
bit begins no character of the format. `fuel` bounds the number of bit times. -/
def readLine (f : LineFormat) : Nat → List Bool → Option (List Byte)
  | _, [] => some []
  | 0, _ :: _ => none
  | fuel + 1, level :: rest =>
    if level = idleLevel then readLine f fuel rest
    else
      match readChar f ((level :: rest).take (charLength f)) with
      | some b => (readLine f fuel ((level :: rest).drop (charLength f))).map (b :: ·)
      | none => none

/-- The bytes the block has transmitted, oldest first (R91). -/
def State.sent (s : State) : List Byte :=
  s.trace.filterMap fun e => match e with
    | .tx b => some b
    | .progress _ => none

/-- The levels of the block's transmit line since reset, idle for `idle k` bit times before its `k`th character (R74,
R91); before its first byte it is idle. -/
def State.lineOut (s : State) (idle : Nat → Nat) : List Bool := lineLevels s.cfg.lineFormat idle 0 s.sent

end Sys2Proof.Machine
end

