-- ==== Sys2Proof/Safety.lean ====
section
/-! DEFINITION. What counts as a safe run, in the terms the statements use: the faults of a run that leave the block
going on (20_memory.md R49, 60_exceptions.md R165), what a model observes (00_scope.md R12), and the invariant the
rules of 10_state.md and 43_image_transfer.md give the state. -/

namespace Sys2Proof.Safety

open Sys2Proof Sys2Proof.Machine

/-- The run has been faulted by the host program and the block has gone on: an OP write while BUSY (U6, R165) or a
bus fault (U5, R49). The sticky bits keep it until reset (R168). -/
def runFaulted (s : State) : Bool := s.status.fBusyWr || s.status.fBus

/-- What a model observes of a run (R12): the event trace, every register, every defined buffer byte; the sticky
bits are in STATUS. -/
structure Observation where
  trace     : List Event
  registers : List Word
  txbuf     : Memory
  rxbuf     : Memory
  imgbuf    : Memory
deriving DecidableEq, Repr

/-- The offsets of the fourteen registers (R19). -/
def registerOffsets : List Nat :=
  [0x00, 0x04, 0x08, 0x0C, 0x10, 0x14, 0x18, 0x1C, 0x20, 0x24, 0x28, 0x2C, 0x30, 0x34]

/-- The observation of a state (R12). -/
def observe (s : State) : Observation where
  trace     := s.trace
  registers := registerOffsets.map (registerValue s)
  txbuf     := s.txbuf
  rxbuf     := s.rxbuf.filter fun c => c.1 < s.rxlen.toNat
  imgbuf    := s.imgbuf.filter fun c => c.1 < s.imglen.toNat

/-! ### What a step may leave alone -/

/-- What no step of the block writes: the parameters, the other agents' moves, the bus response, the RW registers and
TXBUF (R20, R31, R35, R36, R42, R53). -/
def SameSetup (s t : State) : Prop :=
  t.cfg = s.cfg ∧ t.inputs = s.inputs ∧ t.bus = s.bus ∧ t.chkDis = s.chkDis ∧ t.timeout = s.timeout
    ∧ t.xferCfg = s.xferCfg ∧ t.imgDim = s.imgDim ∧ t.txbuf = s.txbuf

/-- The transfer session, its buffers and the block accumulator are as before (R37 to R42, R113). -/
def SameSession (s t : State) : Prop :=
  t.blkTotal = s.blkTotal ∧ t.blkRcvd = s.blkRcvd ∧ t.tryNo = s.tryNo ∧ t.progress = s.progress
    ∧ t.imglen = s.imglen ∧ t.imgbuf = s.imgbuf ∧ t.blkbuf = s.blkbuf

/-- The sticky fault bits are as before (R27 to R29). -/
def SameSticky (s t : State) : Prop :=
  t.status.fBusyWr = s.status.fBusyWr ∧ t.status.fRxOvr = s.status.fRxOvr ∧ t.status.fBus = s.status.fBus

/-! ### A delivered image -/

/-- The receive queue of `s` holds what a device that follows R153 sends for the transfer `o` latches: the echo of the
`X` frame under XFER_BEGIN_ACK = ECHO, then `blocks`, one full-length block each, each with its XOR, then `rest`. -/
def HoldsImage (o : Operands) (blocks : List (List Byte)) (rest : List Byte) (s : State) : Prop :=
  blocks.length = o.totalBlocks ∧ (∀ d ∈ blocks, d.length = o.blockBytes)
    ∧ s.rxq = beginEcho s.cfg.xferBeginAck ++ (blockStream blocks ++ rest)

/-- The events of a transfer's blocks `k`, `k + 1`, ... of `total`, when each is accepted at its first attempt: `K`,
then its progress event (R123, R125). -/
def acceptedEvents (total : Nat) : Nat → Nat → List Event
  | 0, _ => []
  | left + 1, k =>
    Event.tx sigOk :: Event.progress (BitVec.ofNat 7 (progressOf (k + 1) total)) :: acceptedEvents total left (k + 1)

/-- `t` is `s` after a transfer that delivered `blocks` (R123, R125, R127): OK, the session registers at their final
values, the image assembled in order in IMGBUF and nowhere else, the bytes after the image still queued, and on the
link the begin frame and one `K` for each block. -/
def ImageDelivered (o : Operands) (blocks : List (List Byte)) (rest : List Byte) (s t : State) : Prop :=
  t.seq = .idle
    ∧ t.status = s.status.finish true .noError
    ∧ t.blkTotal.toNat = o.totalBlocks ∧ t.blkRcvd.toNat = o.totalBlocks ∧ t.tryNo = 1#8
    ∧ t.progress = 100#7
    ∧ t.imglen.toNat = o.imgW * o.imgH * o.pixelSize
    ∧ (∀ j, j < t.imglen.toNat → Memory.read t.imgbuf j = blocks.flatten[j]?)
    ∧ (∀ j, t.imglen.toNat ≤ j → Memory.read t.imgbuf j = Memory.read s.imgbuf j)
    ∧ t.rxq = rest
    ∧ t.result = 0x27#8
    ∧ t.trace = s.trace ++ [Event.tx 0x58#8, Event.tx 0x27#8] ++ acceptedEvents o.totalBlocks o.totalBlocks 0
    ∧ t.rxlen = (match s.cfg.xferBeginAck with
        | .echo => 1#16
        | .noEcho => s.rxlen)
    ∧ Memory.read t.rxbuf 0 = (match s.cfg.xferBeginAck with
        | .echo => some 0x27#8
        | .noEcho => Memory.read s.rxbuf 0)
    ∧ (∀ j, 1 ≤ j → Memory.read t.rxbuf j = Memory.read s.rxbuf j)
    ∧ t.baud = s.baud ∧ SameSetup s t

/-! ### The invariant -/

/-- A buffer is in canonical form, inside its size, and defined on its first `defined` bytes (R42). -/
def BufferOk (m : Memory) (size defined : Nat) : Prop :=
  Memory.wf m = true ∧ (∀ c ∈ m, c.1 < size) ∧ ∀ a, a < defined → (Memory.read m a).isSome = true

/-- STATUS is coherent: OK exactly when ERR = NONE once DONE (R159); before a finish every result bit is 0 (R30),
and DONE and BUSY exclude each other (R21, R22). -/
def StatusOk (s : State) : Prop :=
  (s.status.done = true → (s.status.ok = true ↔ s.status.err = .noError))
    ∧ (s.status.done = false →
        s.status.ok = false ∧ s.status.term = false ∧ s.status.limit = false ∧ s.status.err = .noError)
    ∧ (s.busy = true → s.status.done = false)

/-- The latched operands are values the registers can hold (R32, R35, R42). -/
def OperandsOk (c : Config) (o : Operands) : Prop :=
  o.baud.toNat ≤ 6 ∧ o.xferCfg &&& 0x00F00000#32 = 0#32 ∧ BufferOk o.txbuf c.txbufSize 0

/-- The session registers when `k` blocks have been accepted (R113, R116, R123). -/
def SessionAt (o : Operands) (k : Nat) (s : State) : Prop :=
  s.blkTotal.toNat = o.totalBlocks ∧ s.blkRcvd.toNat = k ∧ s.imglen.toNat = k * o.blockBytes
    ∧ s.progress.toNat = progressOf k o.totalBlocks

/-- What the read in progress holds, by the operation it belongs to (R97, R98, R107, R110, R117, R118). -/
def KontOk (o : Operands) (r : ReadCtx) (s : State) : Prop :=
  match r.kont with
  | .read => r.term = none ∧ ∃ n, r.limit = some n ∧ n ≤ s.cfg.rxbufSize
  | .rdunt b => r.term = some b ∧ ∃ n, r.limit = some n ∧ n ≤ s.cfg.rxbufSize
  | .sendv _ => r.term = none ∧ r.limit = some 1
  | .expect _ reply => r.term = none ∧ r.limit = none ∧ reply.length + 1 ≤ s.cfg.rxbufSize
  | .xferEcho =>
    r.term = none ∧ r.limit = some 1 ∧ xferConfigOk s.cfg o = true ∧ SessionAt o 0 s ∧ s.tryNo = 0#8
  | .xferBlock k i =>
    r.term = none ∧ r.limit = some (o.blockBytes + 1) ∧ xferConfigOk s.cfg o = true ∧ k < o.totalBlocks
      ∧ i < o.maxTries ∧ SessionAt o k s ∧ s.tryNo.toNat = i + 1

/-- The sequencer's state is one the operations reach (R17, R18). -/
def SeqOk (s : State) : Prop :=
  match s.seq with
  | .idle => True
  | .run _ o .exec => OperandsOk s.cfg o
  | .run _ o (.waitRx r) =>
    OperandsOk s.cfg o ∧ (∀ n, r.limit = some n → r.got.length < n) ∧ KontOk o r s

/-- The invariant of the machine: CACC bit 7 is 0 (R15); BAUD is a code 0..6 (R32); the reserved bits of XFER_CFG
read 0 (R35); RXLEN is 0..RXBUF_SIZE (R34); PROGRESS is 0..100 (R40); IMGLEN is within IMGBUF (R193); RXQ holds at
most RXQ_DEPTH bytes (R55); the buffers are canonical and defined up to RXLEN and IMGLEN (R42); STATUS and SEQ are
coherent. -/
def StateInv (s : State) : Prop :=
  s.cfg.wf = true
    ∧ s.cacc.getLsbD 7 = false
    ∧ s.baud.toNat ≤ 6
    ∧ s.xferCfg &&& 0x00F00000#32 = 0#32
    ∧ s.rxlen.toNat ≤ s.cfg.rxbufSize
    ∧ s.progress.toNat ≤ 100
    ∧ s.imglen.toNat ≤ s.cfg.imgbufSize
    ∧ s.rxq.length ≤ s.cfg.rxqDepth
    ∧ BufferOk s.txbuf s.cfg.txbufSize 0
    ∧ BufferOk s.rxbuf s.cfg.rxbufSize s.rxlen.toNat
    ∧ BufferOk s.imgbuf s.cfg.imgbufSize s.imglen.toNat
    ∧ BufferOk s.blkbuf s.cfg.blkbufSize 0
    ∧ StatusOk s
    ∧ SeqOk s

end Sys2Proof.Safety
end

