-- ==== Sys2Proof/Certificates/Slice0/Obligations.lean ====
section
/-! DEFINITION. The statements about the model, for the provers: each is a Prop, none is proved here. A docstring names
the rules a statement formalises; where a clause is the model's own choice it names the log entry. `s.operands`
are the latched operands, and on an IDLE state those an OP write would latch (log entry 15). -/

open Sys2Proof Sys2Proof.Machine Sys2Proof.Safety

/-! ### Encoding -/

/-- Decoding an encoded instruction gives it back, with every operand at every value its field admits (30_encoding.md
R63 to R72): operation words, wire commands, signals and markers. -/
def Obligations.DecodeOfEncodeIsIdentity : Prop := ∀ i : Instr, decode (encode i) = .ok i

/-- Each encoding has one meaning: what decodes to `i` is the encoding of `i`. -/
def Obligations.EveryEncodingHasOneMeaning : Prop := ∀ (e : Encoded) (i : Instr), decode e = .ok i → encode i = e

/-- Words written out from the tables of R65, R71 and R72 decode to the instructions they stand for. -/
def Obligations.SampleEncodingsDecodeAsTabled : Prop :=
  decode (.op 0x00010001#32) = .ok (.csumc 1#16) ∧ decode (.op 0x00040002#32) = .ok (.csumb 4#16)
    ∧ decode (.op 0x00010010#32) = .ok (.write 1#16) ∧ decode (.op 0x00040011#32) = .ok (.read 4#16)
    ∧ decode (.op 0x01004412#32) = .ok (.rdunt 256#16 0x44#8) ∧ decode (.op 0x00000413#32) = .ok (.setbaud 4#8)
    ∧ decode (.op 0x00000014#32) = .ok .drain ∧ decode (.op 0x00020020#32) = .ok (.send 2#16)
    ∧ decode (.op 0x00010021#32) = .ok (.sendv 1#16) ∧ decode (.op 0x00010122#32) = .ok (.expect 1#16 1#8)
    ∧ decode (.op 0x00000030#32) = .ok .xfer ∧ decode (.op 0x00000015#32) = .error .illegalOp
    ∧ decode (.op 0xFFFF0030#32) = .error .badArg ∧ decode (.frame [0x45#8]) = .ok .wireE
    ∧ decode (.frame [0x67#8, 0x01#8]) = .ok .wireG1
    ∧ decode (.frame [0x54#8, 0x00#8, 0x13#8, 0x88#8, 0x00#8, 0x01#8])
        = .ok (.wireT 0x00#8 0x13#8 0x88#8 0x00#8 0x01#8)
    ∧ decode (.signal 0x53#8) = .ok .signalS ∧ decode (.marker 0x44#8) = .ok .markerD

/-- The operation codes of R65. -/
def listedOpcodes : List Nat := [0x01, 0x02, 0x10, 0x11, 0x12, 0x13, 0x14, 0x20, 0x21, 0x22, 0x30]

/-- R66: an operation word whose OPC is not listed starts an operation that finishes at once with OK = 0 and ERR =
ILLEGAL_OP, and nothing but STATUS changes. -/
def Obligations.ReservedOpcodeFinishesIllegalOp : Prop :=
  ∀ (s : State) (w : Word), s.busy = false → (opcOf w).toNat ∉ listedOpcodes →
    blockMove (hostWriteOp w s) = .next { s with status := s.status.start.finish false .illegalOp }

/-- R67: a listed OPC with a nonzero must-be-zero field, or an operand outside its range, makes the operation finish at
once with OK = 0 and ERR = BAD_ARG, with no other effect. The ranges are those of `Instr.wf`, R65's table. -/
def Obligations.IllegalOperandFinishesBadArg : Prop :=
  (∀ (s : State) (w : Word), s.busy = false →
      ((opcOf w).toNat ∈ [0x01, 0x02, 0x10, 0x11, 0x20, 0x21] ∧ bOf w ≠ 0#8
        ∨ (opcOf w).toNat = 0x13 ∧ nOf w ≠ 0#16
        ∨ (opcOf w).toNat ∈ [0x14, 0x30] ∧ (bOf w ≠ 0#8 ∨ nOf w ≠ 0#16)) →
      blockMove (hostWriteOp w s) = .next { s with status := s.status.start.finish false .badArg })
    ∧ (∀ (s : State) (i : Instr) (w : Word), encode i = .op w → i.wf s.cfg = false →
        exec i s = .next { s with status := s.status.finish false .badArg, seq := .idle })

/-! ### Fetching and stepping -/

/-- A step runs the decoded instruction: the block's move in phase EXEC decodes the latched operation word and is exec
of it (R68). The model's choices: that the block's move is also taken when no move is listed (log entry 5), and that a
command, signal or marker move that decodes is exec of that row (log entry 10). -/
def Obligations.StepRunsTheDecodedInstruction : Prop :=
  (∀ (s : State) (op : Word) (o : Operands) (i : Instr) (rest : List Move),
      s.seq = .run op o .exec → decode (.op op) = .ok i →
        (s.inputs = .block :: rest → step s = exec i { s with inputs := rest })
          ∧ (s.inputs = [] → step s = exec i s))
    ∧ (∀ (s : State) (bs : List Byte) (i : Instr) (rest : List Move),
        s.inputs = .command bs :: rest → decode (.frame bs) = .ok i → step s = exec i { s with inputs := rest })
    ∧ (∀ (s : State) (b : Byte) (i : Instr) (rest : List Move),
        s.inputs = .signal b :: rest → decode (.signal b) = .ok i → step s = exec i { s with inputs := rest })
    ∧ (∀ (s : State) (b : Byte) (i : Instr) (rest : List Move),
        s.inputs = .marker b :: rest → decode (.marker b) = .ok i → step s = exec i { s with inputs := rest })

/-- The model's choice (log entry 6): an opcode-table word placed by `withFetchWord` is what the very next step runs,
an operation word from the state its accepted OP write leaves. The model's own: a wire row as a host operation or a
delivery (log entry 10), the table word 4B as the command (log entry 11). -/
def Obligations.PlacedTableWordRunsNext : Prop :=
  ∀ (s : State) (nbits w : Nat) (i : Instr), decodeTableWord nbits w = some i →
    step (s.withFetchWord nbits w) = exec i
      (match tableEncoded nbits w with
        | .op v => acceptOp v { s with seq := .idle }
        | .frame _ => { s with seq := .idle }
        | .signal _ => { s with seq := .idle }
        | .marker _ => s)

/-- R30: a write of OP while BUSY = 0 latches the word, sets BUSY, clears DONE, OK, TERM, LIMIT and ERR and starts the
operation; while BUSY = 1 it sets F_BUSYWR and changes nothing else; a read returns 0 and has no effect. The model's:
that the machine goes on with the sticky bit (log entry 7, DEDUCED), the field for the bus response (log entry 14), and
addresses below BASE (log entry 26). -/
def Obligations.OpWriteStartsAnOperation : Prop :=
  ∀ (s : State) (addr v : Word), busOffset s.cfg addr = 0x08 →
    (s.busy = false → ∃ o, hostWrite .w32 addr v s = { s with
        bus := .ack, seq := .run v o .exec,
        status := { s.status with done := false, ok := false, term := false, limit := false, err := .noError } })
      ∧ (s.busy = true → hostWrite .w32 addr v s =
          { s with bus := .ack, status := { s.status with fBusyWr := true } })
      ∧ hostRead .w32 addr s = .next { s with bus := .data 0#32 }

/-- R53: the operands of an operation are the values TIMEOUT, CHK_DIS, XFER_CFG, IMG_DIM, BAUD and TXBUF hold at the OP
write; a host write while BUSY is stored as it would be in IDLE, for later operations, and does not change the
operation in progress. The model's own: all of TXBUF latched (log entry 17, DEDUCED). -/
def Obligations.OperandsAreLatchedAtTheOpWrite : Prop :=
  (∀ (s : State) (v : Word), s.busy = false →
      (hostWriteOp v s).operands = ⟨s.timeout, s.chkDis, s.xferCfg, s.imgDim, s.baud, s.txbuf⟩)
    ∧ (∀ (s : State) (w : Width) (addr v : Word), s.busy = true →
        (hostWrite w addr v s).seq = s.seq ∧ (hostWrite w addr v s).operands = s.operands
          ∧ (hostWrite w addr v s).trace = s.trace ∧ (hostWrite w addr v s).rxq = s.rxq
          ∧ (hostWrite w addr v s).registerOperands = (hostWrite w addr v { s with seq := .idle }).registerOperands)

/-! ### The checksum codec -/

/-- R82: CmdChecksum(s) is the XOR of the bytes, masked to 7 bits, XORed with 7F when the length is odd; so it is in
00..7F, and the order of the bytes does not affect it. -/
def Obligations.CommandChecksumClosedForm : Prop :=
  (∀ s : List Byte, cmdChecksum s =
      ((s.foldr (fun b acc => b ^^^ acc) 0#8) &&& 0x7F#8) ^^^ (if s.length % 2 = 1 then 0x7F#8 else 0x00#8))
    ∧ (∀ s : List Byte, (cmdChecksum s).toNat ≤ 0x7F)
    ∧ (∀ s t : List Byte, s.Perm t → cmdChecksum s = cmdChecksum t)

/-- R83: the command checksum of a frame is 7F, and a frame's checksum equals the command's own exactly when that is
7F. -/
def Obligations.CommandChecksumOfAFrame : Prop :=
  ∀ s : List Byte, cmdChecksum (s ++ [cmdChecksum s]) = 0x7F#8
    ∧ (cmdChecksum (s ++ [cmdChecksum s]) = cmdChecksum s ↔ cmdChecksum s = 0x7F#8)

/-- R85: a flip of bit j ≤ 6 of one byte flips bit j of the command checksum; a flip of bit 7 leaves it unchanged; two
flips of the same bit position in two bytes cancel. -/
def Obligations.CommandChecksumDetectsLowBitFlips : Prop :=
  (∀ (p q : List Byte) (b : Byte) (j : Nat), j ≤ 6 →
      cmdChecksum (p ++ (b ^^^ (1#8 <<< j)) :: q) = cmdChecksum (p ++ b :: q) ^^^ (1#8 <<< j))
    ∧ (∀ (p q : List Byte) (b : Byte), cmdChecksum (p ++ (b ^^^ (1#8 <<< 7)) :: q) = cmdChecksum (p ++ b :: q))
    ∧ (∀ (p q r : List Byte) (b c : Byte) (j : Nat), j ≤ 6 →
        cmdChecksum (p ++ (b ^^^ (1#8 <<< j)) :: (q ++ (c ^^^ (1#8 <<< j)) :: r)) = cmdChecksum (p ++ b :: (q ++ c :: r)))

/-- R86: a flip of any bit of one data byte flips that bit of the block checksum, so a one-bit error in the data or in
the checksum byte alone fails validation; two flips of the same bit position in two bytes are not detected; and the
XOR of the data is the checksum exactly when the XOR of both is 0. -/
def Obligations.BlockChecksumDetectsEveryBitFlip : Prop :=
  (∀ (p q : List Byte) (b : Byte) (j : Nat), j ≤ 7 →
      blkChecksum (p ++ (b ^^^ (1#8 <<< j)) :: q) = blkChecksum (p ++ b :: q) ^^^ (1#8 <<< j)
        ∧ blkChecksum (p ++ (b ^^^ (1#8 <<< j)) :: q) ≠ blkChecksum (p ++ b :: q))
    ∧ (∀ (data : List Byte) (j : Nat), j ≤ 7 → blkChecksum data ≠ blkChecksum data ^^^ (1#8 <<< j))
    ∧ (∀ (p q r : List Byte) (b c : Byte) (j : Nat), j ≤ 7 →
        blkChecksum (p ++ (b ^^^ (1#8 <<< j)) :: (q ++ (c ^^^ (1#8 <<< j)) :: r)) = blkChecksum (p ++ b :: (q ++ c :: r)))
    ∧ (∀ (data : List Byte) (c : Byte), blkChecksum data = c ↔ blkChecksum (data ++ [c]) = 0#8)

/-- R87: CSUMC n on written bytes puts their command checksum in RESULT and finishes OK; nothing else changes. (CACC's
value after the operation is the model's choice, log entry 13.) The model's own: the operands on an IDLE state (log
entry 15). -/
def Obligations.CsumcPutsTheCommandChecksumInResult : Prop :=
  ∀ (s : State) (n : BitVec 16) (bs : List Byte), n.toNat ≤ s.cfg.txbufSize →
    Memory.readBytes s.operands.txbuf 0 n.toNat = some bs →
      exec (.csumc n) s = .next { s with
        cacc := cmdChecksum bs, result := cmdChecksum bs, status := s.status.finish true .noError, seq := .idle }

/-- R88: CSUMB n on written bytes puts their XOR in RESULT and finishes OK; nothing else changes. (BACC's value after
the operation is the model's choice, log entry 13.) The model's own: the operands on an IDLE state (log entry 15). -/
def Obligations.CsumbPutsTheBlockChecksumInResult : Prop :=
  ∀ (s : State) (n : BitVec 16) (bs : List Byte), n.toNat ≤ s.cfg.txbufSize →
    Memory.readBytes s.operands.txbuf 0 n.toNat = some bs →
      exec (.csumb n) s = .next { s with
        bacc := blkChecksum bs, result := blkChecksum bs, status := s.status.finish true .noError, seq := .idle }

/-! ### The UART framer -/

/-- R96: WRITE n transmits TXBUF[0..n) raw, in order, and finishes OK; nothing else changes. The model's own: the
operands on an IDLE state (log entry 15). -/
def Obligations.WriteTransmitsTheBytesRaw : Prop :=
  ∀ (s : State) (n : BitVec 16) (bs : List Byte), n.toNat ≤ s.cfg.txbufSize →
    Memory.readBytes s.operands.txbuf 0 n.toNat = some bs →
      exec (.write n) s = .next { s with
        trace := s.trace ++ bs.map Event.tx, status := s.status.finish true .noError, seq := .idle }

/-- R97, R94: READ n returns at once when n bytes are queued, or when TIMEOUT = 0, with the oldest queued bytes; a
short result is not an error. With too few bytes and a nonzero timeout it takes them and waits, BUSY. A waiting READ
returns at the block's step once its n bytes are there, or, expired, with what was queued within its budget k; before
both it goes on waiting. The model's own: the operands on an IDLE state (log entry 15), undefined buffer bytes keeping
what was last written (log entry 20). -/
def Obligations.ReadReturnsTheOldestQueuedBytes : Prop :=
  (∀ (s : State) (n : BitVec 16), n.toNat ≤ s.cfg.rxbufSize →
    ((n.toNat ≤ s.rxq.length ∨ s.operands.timeout = 0#32) →
      exec (.read n) s = .next { s with
        rxq := s.rxq.drop n.toNat,
        rxbuf := Memory.writeBytes s.rxbuf 0 (s.rxq.take n.toNat),
        rxlen := BitVec.ofNat 16 (min n.toNat s.rxq.length),
        status := s.status.finish true .noError, seq := .idle })
    ∧ (s.rxq.length < n.toNat → s.operands.timeout ≠ 0#32 → ∃ op, exec (.read n) s = .next { s with
        rxq := [],
        seq := .run op s.operands (.waitRx ⟨s.rxq, some n.toNat, none, none, s.operands.timeout.toNat, .read⟩) }))
  ∧ (∀ (s : State) (op : Word) (o : Operands) (r : ReadCtx) (n : Nat),
    s.seq = .run op o (.waitRx r) → r.kont = .read → r.limit = some n → r.term = none → r.got.length ≤ n →
      (∀ k, (r.budget = none ∧ k = s.rxq.length ∧ n ≤ r.got.length + k ∨ r.budget = some k) →
        ∀ d, d = (r.got ++ s.rxq.take k).take n →
          blockMove s = .next { s with
            rxq := s.rxq.drop (d.length - r.got.length),
            rxbuf := Memory.writeBytes s.rxbuf 0 d, rxlen := BitVec.ofNat 16 d.length,
            status := s.status.finish true .noError, seq := .idle })
      ∧ (r.budget = none → r.got.length + s.rxq.length < n →
          blockMove s = .next { s with rxq := [], seq := .run op o (.waitRx { r with got := r.got ++ s.rxq }) }))

/-- R98: RDUNT n, b that finds the terminator among the queued bytes before its limit keeps the bytes before it,
consumes it, sets TERM, and leaves the bytes after it queued; so does a waiting RDUNT at the block's step, when the
terminator is within the budget of an expired read. The model's own: undefined buffer bytes keeping what was last
written (log entry 20). -/
def Obligations.RduntStopsAtTheTerminator : Prop :=
  (∀ (s : State) (n : BitVec 16) (b : Byte) (pre post : List Byte),
    1 ≤ n.toNat → n.toNat ≤ s.cfg.rxbufSize → s.rxq = pre ++ b :: post → b ∉ pre → pre.length < n.toNat →
      exec (.rdunt n b) s = .next { s with
        rxq := post,
        rxbuf := Memory.writeBytes s.rxbuf 0 pre,
        rxlen := BitVec.ofNat 16 pre.length,
        status := { s.status with term := true, limit := false, ok := true, err := .noError, done := true },
        seq := .idle })
  ∧ (∀ (s : State) (op : Word) (o : Operands) (r : ReadCtx) (n : Nat) (b : Byte) (pre post : List Byte),
    s.seq = .run op o (.waitRx r) → r.kont = .rdunt b → r.limit = some n → r.term = some b →
    s.rxq = pre ++ b :: post → b ∉ pre → r.got.length + pre.length < n →
    (∀ k, r.budget = some k → pre.length < k) →
      blockMove s = .next { s with
        rxq := post,
        rxbuf := Memory.writeBytes s.rxbuf 0 (r.got ++ pre),
        rxlen := BitVec.ofNat 16 (r.got.length + pre.length),
        status := { s.status with term := true, limit := false, ok := true, err := .noError, done := true },
        seq := .idle })

/-- R98: RDUNT n, b that finds n bytes without the terminator keeps them, sets LIMIT, and leaves the rest queued; with
fewer bytes, none the terminator, it keeps them all and sets neither flag when TIMEOUT = 0, and waits otherwise. A
waiting RDUNT does the same at the block's step, at its limit or, expired, with what was queued within its budget k;
before both it goes on waiting. (That a RDUNT of `D` that times out clears `exposing` is the model's monitor of R155,
log entry 9.) The model's own: the operands on an IDLE state (log entry 15), undefined buffer bytes keeping what was
last written (log entry 20). -/
def Obligations.RduntStopsAtTheLimitOrTheTimeout : Prop :=
  (∀ (s : State) (n : BitVec 16) (b : Byte), 1 ≤ n.toNat → n.toNat ≤ s.cfg.rxbufSize →
    (n.toNat ≤ s.rxq.length → b ∉ s.rxq.take n.toNat →
      exec (.rdunt n b) s = .next { s with
        rxq := s.rxq.drop n.toNat,
        rxbuf := Memory.writeBytes s.rxbuf 0 (s.rxq.take n.toNat),
        rxlen := n,
        status := { s.status with term := false, limit := true, ok := true, err := .noError, done := true },
        seq := .idle })
    ∧ (s.rxq.length < n.toNat → b ∉ s.rxq → s.operands.timeout = 0#32 →
      exec (.rdunt n b) s = .next { s with
        rxq := [],
        rxbuf := Memory.writeBytes s.rxbuf 0 s.rxq,
        rxlen := BitVec.ofNat 16 s.rxq.length,
        status := { s.status with term := false, limit := false, ok := true, err := .noError, done := true },
        exposing := s.exposing && decide (b ≠ doneMarker),
        seq := .idle })
    ∧ (s.rxq.length < n.toNat → b ∉ s.rxq → s.operands.timeout ≠ 0#32 →
      ∃ op, exec (.rdunt n b) s = .next { s with
        rxq := [],
        seq := .run op s.operands
          (.waitRx ⟨s.rxq, some n.toNat, some b, none, s.operands.timeout.toNat, .rdunt b⟩) }))
  ∧ (∀ (s : State) (op : Word) (o : Operands) (r : ReadCtx) (n : Nat) (b : Byte),
    s.seq = .run op o (.waitRx r) → r.kont = .rdunt b → r.limit = some n → r.term = some b →
    (∀ m, r.got.length + m = n → m ≤ s.rxq.length → b ∉ s.rxq.take m → (∀ k, r.budget = some k → m ≤ k) →
      blockMove s = .next { s with
        rxq := s.rxq.drop m,
        rxbuf := Memory.writeBytes s.rxbuf 0 (r.got ++ s.rxq.take m),
        rxlen := BitVec.ofNat 16 n,
        status := { s.status with term := false, limit := true, ok := true, err := .noError, done := true },
        seq := .idle })
    ∧ (∀ k, r.budget = some k → b ∉ s.rxq.take k → r.got.length + (s.rxq.take k).length < n →
      blockMove s = .next { s with
        rxq := s.rxq.drop k,
        rxbuf := Memory.writeBytes s.rxbuf 0 (r.got ++ s.rxq.take k),
        rxlen := BitVec.ofNat 16 (r.got ++ s.rxq.take k).length,
        status := { s.status with term := false, limit := false, ok := true, err := .noError, done := true },
        exposing := s.exposing && decide (b ≠ doneMarker),
        seq := .idle })
    ∧ (r.budget = none → b ∉ s.rxq → r.got.length + s.rxq.length < n →
      blockMove s = .next { s with rxq := [], seq := .run op o (.waitRx { r with got := r.got ++ s.rxq }) }))

/-- R100: SETBAUD c with c ≤ 6 writes BAUD and nothing else but its finish, so RXQ is not flushed; c > 6, or a word with
N nonzero, is BAD_ARG; the word is c << 8 | 13. -/
def Obligations.SetbaudSelectsTheRate : Prop :=
  (∀ (s : State) (c : Byte), c.toNat ≤ 6 →
      exec (.setbaud c) s = .next { s with
        baud := c.setWidth 3, status := s.status.finish true .noError, seq := .idle })
    ∧ (∀ (s : State) (c : Byte), 6 < c.toNat →
        exec (.setbaud c) s = .next { s with status := s.status.finish false .badArg, seq := .idle })
    ∧ (∀ (s : State) (w : Word), s.busy = false → opcOf w = 0x13#8 → nOf w ≠ 0#16 →
        blockMove (hostWriteOp w s) = .next { s with status := s.status.start.finish false .badArg })
    ∧ (∀ c : Byte, encode (.setbaud c) = .op ((c.setWidth 32 <<< 8) ||| 0x13#32))

/-- R101: DRAIN discards the bytes queued now and changes nothing else but its finish; a byte that comes later enters
RXQ; a word with B or N nonzero is BAD_ARG; the word is 00000014. -/
def Obligations.DrainDiscardsTheQueue : Prop :=
  (∀ s : State, exec .drain s = .next { s with rxq := [], status := s.status.finish true .noError, seq := .idle })
    ∧ (∀ (s t : State) (b : Byte), exec .drain s = .next t → 0 < s.cfg.rxqDepth → (receive b t).rxq = [b])
    ∧ (∀ (s : State) (w : Word), s.busy = false → opcOf w = 0x14#8 → bOf w ≠ 0#8 ∨ nOf w ≠ 0#16 →
        blockMove (hostWriteOp w s) = .next { s with status := s.status.start.finish false .badArg })
    ∧ encode .drain = .op 0x00000014#32

/-- R94, R99: when a read returns, it has taken a prefix of RXQ, plus the terminator when it saw one; it took no
terminator otherwise, stayed within its limit and, once expired, within its budget, and changed nothing but RXQ. It
returns without the terminator only at its limit, or once expired with its budget spent or RXQ empty, and its limit
flag says that the limit stopped a read with a terminator. -/
def Obligations.ReadTakesAPrefixOfTheQueue : Prop :=
  ∀ (op : Word) (o : Operands) (r : ReadCtx) (s t : State) (got : List Byte) (seen limit : Bool),
    rxContinue op o r s = .returned got seen limit t →
      ∃ taken, got = r.got ++ taken
        ∧ s.rxq = taken ++ ((if seen then r.term.toList else []) ++ t.rxq)
        ∧ (seen = true → r.term.isSome = true)
        ∧ (∀ b ∈ taken, r.term ≠ some b)
        ∧ (∀ n, r.limit = some n → r.got.length ≤ n → got.length ≤ n)
        ∧ (limit = true → r.term.isSome = true ∧ ∀ n, r.limit = some n → r.got.length ≤ n → got.length = n)
        ∧ (∀ k, r.budget = some k → taken.length + seen.toNat ≤ k)
        ∧ (seen = false → (∃ n, r.limit = some n ∧ n ≤ got.length)
            ∨ ∃ k, r.budget = some k ∧ (taken.length = k ∨ t.rxq = []))
        ∧ (∀ n, seen = false → r.limit = some n → n ≤ got.length → limit = r.term.isSome)
        ∧ t = { s with rxq := t.rxq }

/-- R94: a read waits only before its deadline, with RXQ empty, below its limit, and with every queued byte taken. -/
def Obligations.ReadWaitsOnlyOnAnEmptyQueue : Prop :=
  ∀ (op : Word) (o : Operands) (r : ReadCtx) (s t : State),
    rxContinue op o r s = .waiting t →
      r.budget = none ∧ (∀ b ∈ s.rxq, r.term ≠ some b)
        ∧ (∀ n, r.limit = some n → r.got.length + s.rxq.length < n)
        ∧ t = { s with rxq := [], seq := .run op o (.waitRx { r with got := r.got ++ s.rxq }) }

/-- R95: the TIMER's step sets `expired` and k = len(RXQ); the read then takes no byte that arrives after it, and it
returns. -/
def Obligations.ExpiredReadTakesNoLateByte : Prop :=
  ∀ (s : State) (op : Word) (o : Operands) (r : ReadCtx) (late : List Byte),
    s.seq = .run op o (.waitRx r) → r.budget = none →
      expireTimer s = { s with seq := .run op o (.waitRx { r with budget := some s.rxq.length }) }
        ∧ ∃ got seen limit t,
            rxContinue op o { r with budget := some s.rxq.length } { s with rxq := s.rxq ++ late }
              = .returned got seen limit t
            ∧ late <:+ t.rxq

/-- R55: a delivered byte is appended to RXQ when RXQ holds fewer than RXQ_DEPTH bytes, and is dropped with F_RXOVR set
otherwise, whatever the block is doing; the markers `D` and 1A are received bytes too, and `D` ends an exposure, which
another byte of that value does not (the exposure monitor is the model's own, log entry 9). The model's own: a wire row
as a host operation or a delivery (log entry 10). -/
def Obligations.DeliveredByteIsQueuedOrDropped : Prop :=
  (∀ (s : State) (b : Byte), deviceMove b s = .next
      (if s.rxq.length < s.cfg.rxqDepth then { s with rxq := s.rxq ++ [b] }
       else { s with status := { s.status with fRxOvr := true } }))
    ∧ (∀ s : State, exec .markerD s = .next
        (if s.rxq.length < s.cfg.rxqDepth then { s with rxq := s.rxq ++ [0x44#8], exposing := false }
         else { s with status := { s.status with fRxOvr := true }, exposing := false }))
    ∧ (∀ s : State, exec .marker1A s = .next
        (if s.rxq.length < s.cfg.rxqDepth then { s with rxq := s.rxq ++ [0x1A#8] }
         else { s with status := { s.status with fRxOvr := true } }))

/-! ### The command protocol -/

/-- R106: SEND n frames and transmits TXBUF[0..n), puts the checksum in RESULT, reads nothing and finishes OK. The
model's own: the exposure monitor (log entry 9), CACC and BACC after an operation (log entry 13), the operands on an
IDLE state (log entry 15). -/
def Obligations.SendTransmitsTheFrame : Prop :=
  ∀ (s : State) (n : BitVec 16) (cmd : List Byte), 1 ≤ n.toNat → n.toNat ≤ s.cfg.txbufSize →
    Memory.readBytes s.operands.txbuf 0 n.toNat = some cmd → (isTakeImage cmd && s.exposing) = false →
      exec (.send n) s = .next { s with
        trace := s.trace ++ (cmd ++ [cmdChecksum cmd]).map Event.tx,
        cacc := cmdChecksum cmd, result := cmdChecksum cmd,
        exposing := s.exposing || isTakeImage cmd,
        status := s.status.finish true .noError, seq := .idle }

/-- R107, R105: SENDV n with a byte queued transmits the frame and compares the oldest queued byte with the checksum:
OK when they are equal, NACK otherwise, the byte in RXBUF either way; so does a waiting SENDV at the block's step, when
the byte is within the budget of an expired read. (`exposing`, set by a frame of `T`, is the model's monitor of R155,
log entry 9.) The model's own: CACC and BACC after an operation (log entry 13), the operands on an IDLE state (log
entry 15), undefined buffer bytes keeping what was last written (log entry 20). -/
def Obligations.SendvComparesTheFirstByteRead : Prop :=
  (∀ (s : State) (n : BitVec 16) (cmd : List Byte) (b : Byte) (rest : List Byte),
    1 ≤ n.toNat → n.toNat ≤ s.cfg.txbufSize →
    Memory.readBytes s.operands.txbuf 0 n.toNat = some cmd → (isTakeImage cmd && s.exposing) = false →
    s.rxq = b :: rest →
      exec (.sendv n) s = .next { s with
        trace := s.trace ++ (cmd ++ [cmdChecksum cmd]).map Event.tx,
        cacc := cmdChecksum cmd, result := cmdChecksum cmd,
        rxq := rest, rxbuf := Memory.writeBytes s.rxbuf 0 [b], rxlen := 1#16,
        exposing := s.exposing || isTakeImage cmd,
        status := (if b = cmdChecksum cmd then s.status.finish true .noError else s.status.finish false .nack),
        seq := .idle })
  ∧ (∀ (s : State) (op : Word) (o : Operands) (r : ReadCtx) (cmd : List Byte) (b : Byte) (rest : List Byte),
    s.seq = .run op o (.waitRx r) → r.kont = .sendv cmd → r.limit = some 1 → r.term = none → r.got = [] →
    r.budget ≠ some 0 → s.rxq = b :: rest →
      blockMove s = .next { s with
        rxq := rest, rxbuf := Memory.writeBytes s.rxbuf 0 [b], rxlen := 1#16,
        status := (if b = cmdChecksum cmd then s.status.finish true .noError else s.status.finish false .nack),
        seq := .idle })

/-- R107, R182: with nothing queued, SENDV transmits the frame and finishes with NACK and RXLEN = 0 when TIMEOUT = 0,
and waits for one byte otherwise; a waiting SENDV whose deadline came before any byte finishes with NACK and RXLEN = 0,
a later byte left queued. (`exposing`, set by a frame of `T` whatever becomes of its echo, is the model's monitor of
R155, log entry 9.) The model's own: CACC and BACC after an operation (log entry 13), the operands on an IDLE state
(log entry 15). -/
def Obligations.SendvWithoutAByteFailsOrWaits : Prop :=
  (∀ (s : State) (n : BitVec 16) (cmd : List Byte), 1 ≤ n.toNat → n.toNat ≤ s.cfg.txbufSize →
    Memory.readBytes s.operands.txbuf 0 n.toNat = some cmd → (isTakeImage cmd && s.exposing) = false →
    s.rxq = [] →
      (s.operands.timeout = 0#32 → exec (.sendv n) s = .next { s with
        trace := s.trace ++ (cmd ++ [cmdChecksum cmd]).map Event.tx,
        cacc := cmdChecksum cmd, result := cmdChecksum cmd, rxlen := 0#16,
        exposing := s.exposing || isTakeImage cmd,
        status := s.status.finish false .nack, seq := .idle })
      ∧ (s.operands.timeout ≠ 0#32 → ∃ op, exec (.sendv n) s = .next { s with
        trace := s.trace ++ (cmd ++ [cmdChecksum cmd]).map Event.tx,
        cacc := cmdChecksum cmd, result := cmdChecksum cmd,
        exposing := s.exposing || isTakeImage cmd,
        seq := .run op s.operands
          (.waitRx ⟨[], some 1, none, none, s.operands.timeout.toNat, .sendv cmd⟩) }))
  ∧ (∀ (s : State) (op : Word) (o : Operands) (r : ReadCtx) (cmd : List Byte),
    s.seq = .run op o (.waitRx r) → r.kont = .sendv cmd → r.limit = some 1 → r.term = none → r.got = [] →
      (r.budget = some 0 ∨ r.budget ≠ none ∧ s.rxq = [] →
        blockMove s = .next { s with rxlen := 0#16, status := s.status.finish false .nack, seq := .idle })
      ∧ (r.budget = none → s.rxq = [] → blockMove s = .next s))

/-- R108: against a device that leaves no stale byte and answers with one byte, SENDV finishes with OK = 1 when that
byte is the checksum and with OK = 0 when it is any other byte. The model's own: the operands on an IDLE state (log
entry 15). -/
def Obligations.SendvSucceedsExactlyOnTheEcho : Prop :=
  ∀ (s s1 : State) (n : BitVec 16) (cmd : List Byte) (b : Byte), 1 ≤ n.toNat → n.toNat ≤ s.cfg.txbufSize →
    Memory.readBytes s.operands.txbuf 0 n.toNat = some cmd → s.rxq = [] → s.operands.timeout ≠ 0#32 →
    0 < s.cfg.rxqDepth → exec (.sendv n) s = .next s1 →
      ∃ s2 t, deviceMove b s1 = .next s2 ∧ blockMove s2 = .next t ∧ t.seq = .idle ∧ t.status.done = true
        ∧ t.status.ok = decide (b = cmdChecksum cmd)
        ∧ t.trace = s.trace ++ (cmd ++ [cmdChecksum cmd]).map Event.tx

/-- R110, R111: EXPECT n, m with TIMEOUT = 0 transmits the frame, takes every queued byte, keeps the last RXBUF_SIZE of
them, sets LIMIT when there were more, and is OK exactly when the tail is the checksum followed by the expected reply.
TERM, which the OP write cleared, is left (R24). (`exposing`, set by a frame of `T`, is the model's monitor of R155,
log entry 9.) The model's own: CACC and BACC after an operation (log entry 13), the operands on an IDLE state (log
entry 15), undefined buffer bytes keeping what was last written (log entry 20). -/
def Obligations.ExpectComparesTheTail : Prop :=
  ∀ (s : State) (n : BitVec 16) (m : Byte) (cmd reply : List Byte),
    1 ≤ n.toNat → n.toNat + m.toNat ≤ s.cfg.txbufSize → m.toNat + 1 ≤ s.cfg.rxbufSize →
    Memory.readBytes s.operands.txbuf 0 n.toNat = some cmd →
    Memory.readBytes s.operands.txbuf n.toNat m.toNat = some reply →
    (isTakeImage cmd && s.exposing) = false → s.operands.timeout = 0#32 →
      exec (.expect n m) s = .next { s with
        trace := s.trace ++ (cmd ++ [cmdChecksum cmd]).map Event.tx,
        cacc := cmdChecksum cmd, result := cmdChecksum cmd,
        rxq := [],
        rxbuf := Memory.writeBytes s.rxbuf 0 (s.rxq.drop (s.rxq.length - s.cfg.rxbufSize)),
        rxlen := BitVec.ofNat 16 (min s.rxq.length s.cfg.rxbufSize),
        exposing := s.exposing || isTakeImage cmd,
        status := { s.status with
          limit := decide (s.cfg.rxbufSize < s.rxq.length), done := true,
          ok := decide ((cmdChecksum cmd :: reply) <:+ s.rxq),
          err := (if (cmdChecksum cmd :: reply) <:+ s.rxq then .noError else .nack) },
        seq := .idle }

/-- R110, R111: EXPECT with a nonzero timeout transmits the frame and then waits for the deadline whatever is queued;
it goes on waiting at every block step until the TIMER's; then it takes what was queued within its budget k, keeps the
last RXBUF_SIZE bytes of all it read, sets LIMIT when there were more, and is OK exactly when the tail is the checksum
followed by the expected reply. (`exposing`, set by a frame of `T`, is the model's monitor of R155, log entry 9.) The
model's own: CACC and BACC after an operation (log entry 13), the operands on an IDLE state (log entry 15), undefined
buffer bytes keeping what was last written (log entry 20), EXPECT's bytes held whole until its deadline (log entry 24,
DEDUCED). -/
def Obligations.ExpectWaitsForItsDeadline : Prop :=
  (∀ (s : State) (n : BitVec 16) (m : Byte) (cmd reply : List Byte),
      1 ≤ n.toNat → n.toNat + m.toNat ≤ s.cfg.txbufSize → m.toNat + 1 ≤ s.cfg.rxbufSize →
      Memory.readBytes s.operands.txbuf 0 n.toNat = some cmd →
      Memory.readBytes s.operands.txbuf n.toNat m.toNat = some reply →
      (isTakeImage cmd && s.exposing) = false → s.operands.timeout ≠ 0#32 →
        ∃ op, exec (.expect n m) s = .next { s with
          trace := s.trace ++ (cmd ++ [cmdChecksum cmd]).map Event.tx,
          cacc := cmdChecksum cmd, result := cmdChecksum cmd, rxq := [],
          exposing := s.exposing || isTakeImage cmd,
          seq := .run op s.operands
            (.waitRx ⟨s.rxq, none, none, none, s.operands.timeout.toNat, .expect cmd reply⟩) })
    ∧ (∀ (s : State) (op : Word) (o : Operands) (r : ReadCtx),
        s.seq = .run op o (.waitRx r) → r.limit = none → r.term = none → r.budget = none →
          blockMove s = .next { s with rxq := [], seq := .run op o (.waitRx { r with got := r.got ++ s.rxq }) })
    ∧ (∀ (s : State) (op : Word) (o : Operands) (r : ReadCtx) (cmd reply all : List Byte) (k : Nat),
        s.seq = .run op o (.waitRx r) → r.kont = .expect cmd reply → r.limit = none → r.term = none →
        r.budget = some k → reply.length + 1 ≤ s.cfg.rxbufSize → all = r.got ++ s.rxq.take k →
          blockMove s = .next { s with
            rxq := s.rxq.drop k,
            rxbuf := Memory.writeBytes s.rxbuf 0 (all.drop (all.length - s.cfg.rxbufSize)),
            rxlen := BitVec.ofNat 16 (min all.length s.cfg.rxbufSize),
            status := { s.status with
              limit := decide (s.cfg.rxbufSize < all.length), done := true,
              ok := decide ((cmdChecksum cmd :: reply) <:+ all),
              err := (if (cmdChecksum cmd :: reply) <:+ all then .noError else .nack) },
            seq := .idle })

/-- R155: a host that frames `T` while an exposure is in progress faults the run (the monitor is the model's, log entry
9). The model's own: the operands on an IDLE state (log entry 15). -/
def Obligations.TakeImageDuringExposureFaults : Prop :=
  ∀ (s : State) (n : BitVec 16) (m : Byte) (t0 t1 t2 m0 m1 : Byte), n = 6#16 → s.exposing = true →
    6 + m.toNat ≤ s.cfg.txbufSize → m.toNat + 1 ≤ s.cfg.rxbufSize →
    Memory.readBytes s.operands.txbuf 0 6 = some [0x54#8, t0, t1, t2, m0, m1] →
      exec (.send n) s = .fault .takeImageDuringExposure ∧ exec (.sendv n) s = .fault .takeImageDuringExposure
        ∧ ((Memory.readBytes s.operands.txbuf 6 m.toNat).isSome = true →
            exec (.expect n m) s = .fault .takeImageDuringExposure)

/-- R54: a host read of an undefined RXBUF or IMGBUF byte, and an operation that reads a TXBUF byte the host has not
written since reset, fault the run. The model's: that a 32-bit read of partly undefined bytes faults (log entry 22,
DEDUCED), and addresses below BASE (log entry 26, DESIGN CHOICE). The model's own: the operands on an IDLE state (log
entry 15). -/
def Obligations.UndefinedBytesFault : Prop :=
  (∀ (s : State) (w : Width) (addr : Word) (i : Nat), busTarget s.cfg w (busOffset s.cfg addr) = .rx i →
      (s.busy = true ∨ s.rxlen.toNat < i + w.bytes) → hostRead w addr s = .fault .rxbufUndefined)
    ∧ (∀ (s : State) (w : Width) (addr : Word) (i : Nat), busTarget s.cfg w (busOffset s.cfg addr) = .img i →
        s.imglen.toNat < i + w.bytes → hostRead w addr s = .fault .imgbufUndefined)
    ∧ (∀ (s : State) (n : BitVec 16) (j : Nat), n.toNat ≤ s.cfg.txbufSize → j < n.toNat →
        Memory.read s.operands.txbuf j = none →
          exec (.csumc n) s = .fault .txbufUnwritten ∧ exec (.csumb n) s = .fault .txbufUnwritten
            ∧ exec (.write n) s = .fault .txbufUnwritten ∧ exec (.send n) s = .fault .txbufUnwritten
            ∧ exec (.sendv n) s = .fault .txbufUnwritten)
    ∧ (∀ (s : State) (n : BitVec 16) (m : Byte) (j : Nat), 1 ≤ n.toNat → n.toNat + m.toNat ≤ s.cfg.txbufSize →
        m.toNat + 1 ≤ s.cfg.rxbufSize → j < n.toNat + m.toNat → Memory.read s.operands.txbuf j = none →
          exec (.expect n m) s = .fault .txbufUnwritten)

/-! ### The transfer engine -/

/-- R115: XFER with an illegal configuration finishes at once with BAD_ARG, transmitting nothing and changing no
session register. The model's own: the operands on an IDLE state (log entry 15). -/
def Obligations.XferRefusesIllegalConfigurations : Prop :=
  ∀ s : State,
    (s.operands.blockPixels = 0 ∨ s.operands.pixelSize = 0 ∨ s.operands.maxTries = 0 ∨ s.operands.imgW = 0
      ∨ s.operands.imgH = 0 ∨ (s.operands.imgW * s.operands.imgH) % s.operands.blockPixels ≠ 0
      ∨ s.cfg.blkbufSize < s.operands.blockPixels * s.operands.pixelSize + 1
      ∨ s.cfg.imgbufSize < s.operands.imgW * s.operands.imgH * s.operands.pixelSize) →
        exec .xfer s = .next { s with status := s.status.finish false .badArg, seq := .idle }

/-- R116, R117, R130: XFER with a legal configuration starts the session and transmits the frame 58 27 with RESULT =
27. With an echo required it then waits for one byte when TIMEOUT is nonzero and nothing is queued; a byte other than
27, or none when TIMEOUT = 0, finishes it with PROTOCOL, no further byte sent; the byte 27 starts the read of block 0,
from the bytes queued past it, and XFER goes on as the block's step there: it waits when they are too few. The echo
read that has waited ends in the same ways at the block's step, and goes on waiting before its deadline with nothing
queued. With no echo required the read of block 0 starts at once, from whatever is queued. The model's own: CACC and
BACC after an operation (log entry 13), the operands on an IDLE state (log entry 15), undefined buffer bytes keeping
what was last written (log entry 20). -/
def Obligations.XferBeginsWithTheXFrame : Prop :=
  (∀ s begun : State, xferConfigOk s.cfg s.operands = true →
    begun = { s with
      blkTotal := BitVec.ofNat 32 s.operands.totalBlocks, blkRcvd := 0#32, tryNo := 0#8, progress := 0#7,
      imglen := 0#32, cacc := 0x27#8, result := 0x27#8,
      trace := s.trace ++ [Event.tx 0x58#8, Event.tx 0x27#8] } →
    (s.cfg.xferBeginAck = .echo →
      (s.rxq = [] → s.operands.timeout ≠ 0#32 → ∃ op, exec .xfer s = .next { begun with
        seq := .run op s.operands (.waitRx ⟨[], some 1, none, none, s.operands.timeout.toNat, .xferEcho⟩) })
      ∧ (s.rxq = [] → s.operands.timeout = 0#32 → exec .xfer s = .next { begun with
        rxlen := 0#16, status := s.status.finish false .protocol, seq := .idle })
      ∧ (∀ (b : Byte) (rest : List Byte), s.rxq = b :: rest → b ≠ 0x27#8 → exec .xfer s = .next { begun with
        rxq := rest, rxbuf := Memory.writeBytes s.rxbuf 0 [b], rxlen := 1#16,
        status := s.status.finish false .protocol, seq := .idle })
      ∧ (∀ rest : List Byte, s.rxq = 0x27#8 :: rest → ∃ op, ∀ next : State, next = { begun with
          rxq := rest, rxbuf := Memory.writeBytes s.rxbuf 0 [0x27#8], rxlen := 1#16, tryNo := 1#8,
          seq := .run op s.operands (.waitRx ⟨[], some (s.operands.blockBytes + 1), none,
            if s.operands.blockReadTimeout s.cfg = 0 then some rest.length else none,
            s.operands.blockReadTimeout s.cfg, .xferBlock 0 0⟩) } →
        exec .xfer s = blockMove next
          ∧ (rest.length ≤ s.operands.blockBytes → s.operands.blockReadTimeout s.cfg ≠ 0 →
            exec .xfer s = .next { next with
              rxq := [],
              seq := .run op s.operands (.waitRx ⟨rest, some (s.operands.blockBytes + 1), none, none,
                s.operands.blockReadTimeout s.cfg, .xferBlock 0 0⟩) })))
    ∧ (s.cfg.xferBeginAck = .noEcho → ∃ op, ∀ next : State, next = { begun with
          tryNo := 1#8,
          seq := .run op s.operands (.waitRx ⟨[], some (s.operands.blockBytes + 1), none,
            if s.operands.blockReadTimeout s.cfg = 0 then some s.rxq.length else none,
            s.operands.blockReadTimeout s.cfg, .xferBlock 0 0⟩) } →
        exec .xfer s = blockMove next
          ∧ (s.rxq.length ≤ s.operands.blockBytes → s.operands.blockReadTimeout s.cfg ≠ 0 →
            exec .xfer s = .next { next with
              rxq := [],
              seq := .run op s.operands (.waitRx ⟨s.rxq, some (s.operands.blockBytes + 1), none, none,
                s.operands.blockReadTimeout s.cfg, .xferBlock 0 0⟩) })))
  ∧ (∀ (s : State) (op : Word) (o : Operands) (r : ReadCtx),
    s.seq = .run op o (.waitRx r) → r.kont = .xferEcho → r.limit = some 1 → r.term = none → r.got = [] →
      (r.budget = none → s.rxq = [] → blockMove s = .next s)
      ∧ (r.budget = some 0 ∨ r.budget ≠ none ∧ s.rxq = [] → blockMove s = .next { s with
        rxlen := 0#16, status := s.status.finish false .protocol, seq := .idle })
      ∧ (∀ (b : Byte) (rest : List Byte), r.budget ≠ some 0 → s.rxq = b :: rest → b ≠ 0x27#8 →
        blockMove s = .next { s with
          rxq := rest, rxbuf := Memory.writeBytes s.rxbuf 0 [b], rxlen := 1#16,
          status := s.status.finish false .protocol, seq := .idle })
      ∧ (∀ rest : List Byte, r.budget ≠ some 0 → s.rxq = 0x27#8 :: rest → xferConfigOk s.cfg o = true →
        ∃ op', ∀ next : State, next = { s with
            rxq := rest, rxbuf := Memory.writeBytes s.rxbuf 0 [0x27#8], rxlen := 1#16, tryNo := 1#8,
            seq := .run op' o (.waitRx ⟨[], some (o.blockBytes + 1), none,
              if o.blockReadTimeout s.cfg = 0 then some rest.length else none, o.blockReadTimeout s.cfg,
              .xferBlock 0 0⟩) } →
          blockMove s = blockMove next
            ∧ (rest.length ≤ o.blockBytes → o.blockReadTimeout s.cfg ≠ 0 → blockMove s = .next { next with
              rxq := [],
              seq := .run op' o (.waitRx
                ⟨rest, some (o.blockBytes + 1), none, none, o.blockReadTimeout s.cfg, .xferBlock 0 0⟩) })))

/-- R114, R123, R125, R127: XFER against a device that has sent the echo and every block valid completes: OK, the image
assembled in order in IMGBUF, the counters at their final values, one `K` and one progress event for each block. The
model's own: the operands on an IDLE state (log entry 15), undefined buffer bytes keeping what was last written (log
entry 20). -/
def Obligations.XferAssemblesTheImage : Prop :=
  ∀ (s : State) (blocks : List (List Byte)) (rest : List Byte),
    s.cfg.wf = true → xferConfigOk s.cfg s.operands = true → HoldsImage s.operands blocks rest s →
      ∃ t, exec .xfer s = .next t ∧ ImageDelivered s.operands blocks rest s t

/-- R143, R117: the wire command `X` is sent by XFER: from IDLE it runs the transfer of the registers' configuration.
Issued while BUSY, the OP write is ignored with F_BUSYWR (R165). The model's own: going on with the sticky bit (log
entry 7, DEDUCED), a wire row as a host operation or a delivery (log entry 10), the field for the bus response (log
entry 14), undefined buffer bytes keeping what was last written (log entry 20). -/
def Obligations.BeginTransferCommandRunsXfer : Prop :=
  (∀ s : State, s.seq = .idle → ∃ op, encode .xfer = .op op
      ∧ exec .wireX s = exec .xfer (acceptOp op { s with bus := .ack }))
    ∧ (∀ s : State, s.seq ≠ .idle →
        exec .wireX s = .next { s with bus := .ack, status := { s.status with fBusyWr := true } })
    ∧ (∀ (s : State) (blocks : List (List Byte)) (rest : List Byte),
        s.seq = .idle → s.cfg.wf = true → xferConfigOk s.cfg s.registerOperands = true →
        HoldsImage s.registerOperands blocks rest s →
          ∃ t, exec .wireX s = .next t
            ∧ ImageDelivered s.registerOperands blocks rest
                { s with bus := .ack, status := s.status.start } t)

/-- R94, R120: before its deadline, with fewer than bb + 1 bytes, an attempt of a block takes what is queued and goes
on waiting, nothing else changed. R121, R122, R123, R125, R127, R130: a full-length attempt whose last byte is the XOR
of the others, or any full-length one under CHK_DIS = 1, transmits one `K`, stores its data (and not its last byte) at
k × bb and updates IMGLEN, BLK_RCVD and PROGRESS with the event, all in one block step. Before the last block that step
goes on as the first attempt of the next block, from the bytes left queued: it waits when they are too few. After the
last block it finishes OK, the bytes after the image left queued. The model's own: CACC and BACC after an operation
(log entry 13), undefined buffer bytes keeping what was last written (log entry 20). -/
def Obligations.ValidBlockIsStoredAndTheNextOneRead : Prop :=
  (∀ (s : State) (op : Word) (o : Operands) (r : ReadCtx) (k i : Nat),
    s.seq = .run op o (.waitRx r) → r.kont = .xferBlock k i → r.limit = some (o.blockBytes + 1) → r.term = none →
    r.budget = none → r.got.length + s.rxq.length ≤ o.blockBytes →
      blockMove s = .next { s with rxq := [], seq := .run op o (.waitRx { r with got := r.got ++ s.rxq }) })
  ∧ ∀ (s : State) (op : Word) (o : Operands) (r : ReadCtx) (k i : Nat) (data : List Byte) (c : Byte) (rest : List Byte),
    s.seq = .run op o (.waitRx r) → r.kont = .xferBlock k i → r.limit = some (o.blockBytes + 1) → r.term = none →
    data.length = o.blockBytes → r.got.length ≤ o.blockBytes → r.got ++ s.rxq = data ++ c :: rest →
    (∀ j, r.budget = some j → o.blockBytes + 1 ≤ r.got.length + j) →
    (o.chkDis = true ∨ c = blkChecksum data) →
    (k + 1 < o.totalBlocks → 0 < o.maxTries →
      ∃ op' bacc, ∀ next : State, next = { s with
        rxq := rest, bacc := bacc,
        blkbuf := Memory.writeBytes s.blkbuf 0 (data ++ [c]),
        imgbuf := Memory.writeBytes s.imgbuf (k * o.blockBytes) data,
        imglen := BitVec.ofNat 32 ((k + 1) * o.blockBytes), blkRcvd := BitVec.ofNat 32 (k + 1),
        progress := BitVec.ofNat 7 (100 * (k + 1) / o.totalBlocks),
        trace := s.trace ++ [Event.tx 0x4B#8, Event.progress (BitVec.ofNat 7 (100 * (k + 1) / o.totalBlocks))],
        tryNo := 1#8,
        seq := .run op' o (.waitRx ⟨[], some (o.blockBytes + 1), none,
          if o.blockReadTimeout s.cfg = 0 then some rest.length else none, o.blockReadTimeout s.cfg,
          .xferBlock (k + 1) 0⟩) } →
        blockMove s = blockMove next
          ∧ (rest.length ≤ o.blockBytes → o.blockReadTimeout s.cfg ≠ 0 → blockMove s = .next { next with
            rxq := [],
            seq := .run op' o (.waitRx
              ⟨rest, some (o.blockBytes + 1), none, none, o.blockReadTimeout s.cfg, .xferBlock (k + 1) 0⟩) }))
    ∧ (k + 1 = o.totalBlocks →
      ∃ bacc, blockMove s = .next { s with
        rxq := rest, bacc := bacc,
        blkbuf := Memory.writeBytes s.blkbuf 0 (data ++ [c]),
        imgbuf := Memory.writeBytes s.imgbuf (k * o.blockBytes) data,
        imglen := BitVec.ofNat 32 ((k + 1) * o.blockBytes), blkRcvd := BitVec.ofNat 32 (k + 1),
        progress := 100#7,
        trace := s.trace ++ [Event.tx 0x4B#8, Event.progress 100#7],
        status := s.status.finish true .noError, seq := .idle })

/-- R118, R120, R124, R130, R183: a failed attempt that is not the last, be it a mismatch or a short read, makes the
block ask for the same block once: TRY goes up, one `R` is sent under ONE_PER_RETRY (two after a mismatch under
LITERAL_DOUBLE), and the same block is read again, nothing stored in IMGBUF and nothing drained: the step goes on as
the next attempt from the bytes past the failed one, and waits when they are too few. The model's own: CACC and BACC
after an operation (log entry 13), undefined buffer bytes keeping what was last written (log entry 20). -/
def Obligations.FailedAttemptAsksForTheSameBlock : Prop :=
  ∀ (s : State) (op : Word) (o : Operands) (r : ReadCtx) (k i : Nat) (d rest : List Byte),
    s.seq = .run op o (.waitRx r) → r.kont = .xferBlock k i → r.limit = some (o.blockBytes + 1) → r.term = none →
    i + 1 < o.maxTries → r.got ++ s.rxq = d ++ rest →
    (d.length = o.blockBytes + 1 ∧ r.got.length ≤ o.blockBytes
        ∧ (∀ j, r.budget = some j → o.blockBytes + 1 ≤ r.got.length + j) ∧ o.chkDis = false
        ∧ d[o.blockBytes]? ≠ some (blkChecksum (d.take o.blockBytes))
      ∨ d.length ≤ o.blockBytes ∧ ∃ j, r.budget = some j ∧ d = r.got ++ s.rxq.take j) →
      ∃ op' bacc, ∀ next : State, next = { s with
        rxq := rest, bacc := bacc,
        blkbuf := Memory.writeBytes s.blkbuf 0 d,
        tryNo := BitVec.ofNat 8 (i + 2),
        trace := s.trace ++ (if s.cfg.retrySignalPolicy = .literalDouble ∧ d.length = o.blockBytes + 1
          then [Event.tx 0x52#8, Event.tx 0x52#8] else [Event.tx 0x52#8]),
        seq := .run op' o (.waitRx ⟨[], some (o.blockBytes + 1), none,
          if o.blockReadTimeout s.cfg = 0 then some rest.length else none, o.blockReadTimeout s.cfg,
          .xferBlock k (i + 1)⟩) } →
        blockMove s = blockMove next
          ∧ (rest.length ≤ o.blockBytes → o.blockReadTimeout s.cfg ≠ 0 → blockMove s = .next { next with
            rxq := [],
            seq := .run op' o (.waitRx
              ⟨rest, some (o.blockBytes + 1), none, none, o.blockReadTimeout s.cfg, .xferBlock k (i + 1)⟩) })

/-- R126, R124, R130: when the last attempt of a block fails, the block transmits `S` (after an `R` for a mismatch
under LITERAL_DOUBLE), sets IMGLEN to 0 and finishes with OK = 0 and the cause of that attempt, CHECKSUM for a
full-length mismatch and TIMEOUT for a short read; BLK_RCVD keeps its value, no progress event is emitted, and the
bytes past the attempt stay queued. The model's own: CACC and BACC after an operation (log entry 13), undefined buffer
bytes keeping what was last written (log entry 20). -/
def Obligations.LastFailedAttemptAbortsTheTransfer : Prop :=
  ∀ (s : State) (op : Word) (o : Operands) (r : ReadCtx) (k i : Nat) (d rest : List Byte),
    s.seq = .run op o (.waitRx r) → r.kont = .xferBlock k i → r.limit = some (o.blockBytes + 1) → r.term = none →
    o.maxTries ≤ i + 1 → r.got ++ s.rxq = d ++ rest →
    (d.length = o.blockBytes + 1 ∧ r.got.length ≤ o.blockBytes
        ∧ (∀ j, r.budget = some j → o.blockBytes + 1 ≤ r.got.length + j) ∧ o.chkDis = false
        ∧ d[o.blockBytes]? ≠ some (blkChecksum (d.take o.blockBytes))
      ∨ d.length ≤ o.blockBytes ∧ ∃ j, r.budget = some j ∧ d = r.got ++ s.rxq.take j) →
      ∃ bacc, blockMove s = .next { s with
        rxq := rest, bacc := bacc,
        blkbuf := Memory.writeBytes s.blkbuf 0 d,
        imglen := 0#32,
        trace := s.trace ++ (if s.cfg.retrySignalPolicy = .literalDouble ∧ d.length = o.blockBytes + 1
          then [Event.tx 0x52#8, Event.tx 0x53#8] else [Event.tx 0x53#8]),
        status := s.status.finish false (if d.length = o.blockBytes + 1 then .checksum else .timeout),
        seq := .idle }

/-- R121, with what R120 and R122 say of acceptance: an attempt is accepted when it has its full length and, unless
CHK_DIS = 1, its last byte is the XOR of the others, which is to say that the XOR of all is 0; a short read fails in
either mode. -/
def Obligations.AttemptAcceptanceRule : Prop :=
  ∀ (o : Operands) (k : Nat) (d : List Byte) (s : State), d.length ≤ o.blockBytes + 1 →
    ((∃ t, judgeAttempt o k d s = .accepted t) ↔
        d.length = o.blockBytes + 1 ∧ (o.chkDis = true ∨ blkChecksum d = 0#8))
      ∧ ((∃ t, judgeAttempt o k d s = .failed .timeout t) ↔ d.length < o.blockBytes + 1)
      ∧ ((∃ t, judgeAttempt o k d s = .failed .checksum t) ↔
        d.length = o.blockBytes + 1 ∧ o.chkDis = false ∧ blkChecksum d ≠ 0#8)
      ∧ (d.length = o.blockBytes + 1 →
        (blkChecksum d = 0#8 ↔ d[o.blockBytes]? = some (blkChecksum (d.take o.blockBytes))))

/-- R125: PROGRESS does not decrease as blocks are received, is 100 exactly when all are, and increases strictly when
there are at most 100 blocks. -/
def Obligations.ProgressReachesOneHundredAtTheLastBlock : Prop :=
  ∀ total k : Nat, k < total →
    progressOf k total ≤ progressOf (k + 1) total ∧ progressOf k total < 100
      ∧ progressOf total total = 100 ∧ (total ≤ 100 → progressOf k total < progressOf (k + 1) total)

/-- R119: with the default parameters the block timeout is ceil(1.5 × 8 × (bb + 1) × 10^6 / baud) microseconds; the
values at 9600 and 115200 baud for bb = 8192 are the rule's. -/
def Obligations.BlockTimeoutIsTheSlackedTransferTime : Prop :=
  (∀ baud bb : Nat, 0 < baud →
      2 * baud * blockTimeout Config.default baud bb ≥ 3 * 8 * (bb + 1) * 1000000
        ∧ 2 * baud * blockTimeout Config.default baud bb < 3 * 8 * (bb + 1) * 1000000 + 2 * baud)
    ∧ blockTimeout Config.default 9600 8192 = 10241250 ∧ blockTimeout Config.default 115200 8192 = 853438

/-! ### Wire commands -/

/-- R132 to R139, R141, R142, R144, R145: each of these framed commands, issued from IDLE, is written to TXBUF and sent
by SENDV (R77), whatever is queued and whatever TIMEOUT is: its frame goes out, and a queued byte is its
acknowledgement, right or wrong (R105), while with nothing queued it waits for one byte, or is NACK at TIMEOUT = 0; `T`
during an exposure faults (R155). Issued while BUSY, its bytes are stored and the OP write is ignored with F_BUSYWR
(R53, R165). `exposing` is the model's own (log entry 9), as is what a wire row does at one step (log entry 10). The
model's own: going on with the sticky bit (log entry 7, DEDUCED), CACC and BACC after an operation (log entry 13), the
field for the bus response (log entry 14), all of TXBUF latched (log entry 17, DEDUCED), undefined buffer bytes keeping
what was last written (log entry 20). -/
def Obligations.WireCommandsAreSentAndVerified : Prop :=
  ∀ (i : Instr) (cmd : List Byte) (s stored sent : State),
    encode i = .frame cmd → i ≠ .wireX → (∀ d, i ≠ .wireB d) →
    cmd.length ≤ s.cfg.txbufSize → s.cfg.txbufSize ≤ 4096 →
    stored = { s with bus := .ack, txbuf := Memory.writeBytes s.txbuf 0 cmd } →
    sent = { stored with
      trace := s.trace ++ (cmd ++ [cmdChecksum cmd]).map Event.tx,
      cacc := cmdChecksum cmd, result := cmdChecksum cmd,
      exposing := s.exposing || isTakeImage cmd,
      status := s.status.start } →
      (s.seq = .idle → ∃ op, encode (.sendv (BitVec.ofNat 16 cmd.length)) = .op op
        ∧ exec i s = exec (.sendv (BitVec.ofNat 16 cmd.length)) (acceptOp op stored))
      ∧ (s.seq = .idle → isTakeImage cmd = true → s.exposing = true → exec i s = .fault .takeImageDuringExposure)
      ∧ (s.seq = .idle → (isTakeImage cmd && s.exposing) = false →
        (∀ (b : Byte) (rest : List Byte), s.rxq = b :: rest → exec i s = .next { sent with
          rxq := rest, rxbuf := Memory.writeBytes s.rxbuf 0 [b], rxlen := 1#16,
          status := if b = cmdChecksum cmd then s.status.start.finish true .noError
            else s.status.start.finish false .nack })
        ∧ (s.rxq = [] → s.timeout = 0#32 → exec i s = .next { sent with
          rxlen := 0#16, status := s.status.start.finish false .nack })
        ∧ (s.rxq = [] → s.timeout ≠ 0#32 → ∃ op, exec i s = .next { sent with
          seq := .run op stored.registerOperands
            (.waitRx ⟨[], some 1, none, none, s.timeout.toNat, .sendv cmd⟩) }))
      ∧ (s.seq ≠ .idle → exec i s = .next { stored with status := { s.status with fBusyWr := true } })

/-- R140: the baud-select command, issued from IDLE, is written to TXBUF and sent by SEND 2, its echo left unread.
Issued while BUSY, its bytes are stored and the OP write is ignored with F_BUSYWR (R53, R165). The model's own: going
on with the sticky bit (log entry 7, DEDUCED), a wire row as a host operation or a delivery (log entry 10), CACC and
BACC after an operation (log entry 13), the field for the bus response (log entry 14). -/
def Obligations.BaudSelectIsSentUnverified : Prop :=
  ∀ (d : Byte) (s : State), 2 ≤ s.cfg.txbufSize → s.cfg.txbufSize ≤ 4096 →
    (s.seq = .idle → exec (.wireB d) s = .next { s with
      bus := .ack, txbuf := Memory.writeBytes s.txbuf 0 [0x42#8, d],
      trace := s.trace ++ [Event.tx 0x42#8, Event.tx d, Event.tx (cmdChecksum [0x42#8, d])],
      cacc := cmdChecksum [0x42#8, d], result := cmdChecksum [0x42#8, d],
      status := s.status.start.finish true .noError })
    ∧ (s.seq ≠ .idle → exec (.wireB d) s = .next { s with
      bus := .ack, txbuf := Memory.writeBytes s.txbuf 0 [0x42#8, d],
      status := { s.status with fBusyWr := true } })

/-- R146 to R148, R96: a signal byte the host issues from IDLE is written to TXBUF and goes out unframed by WRITE 1.
Issued while BUSY, the byte is stored and the OP write is ignored with F_BUSYWR (R53, R165). The model's own: going on
with the sticky bit (log entry 7, DEDUCED), a wire row as a host operation or a delivery (log entry 10), the field for
the bus response (log entry 14). -/
def Obligations.SignalBytesAreSentUnframed : Prop :=
  ∀ (i : Instr) (b : Byte) (s : State), encode i = .signal b → 1 ≤ s.cfg.txbufSize → s.cfg.txbufSize ≤ 4096 →
    (s.seq = .idle → exec i s = .next { s with
      bus := .ack, txbuf := Memory.writeBytes s.txbuf 0 [b],
      trace := s.trace ++ [Event.tx b],
      status := s.status.start.finish true .noError })
    ∧ (s.seq ≠ .idle → exec i s = .next { s with
      bus := .ack, txbuf := Memory.writeBytes s.txbuf 0 [b],
      status := { s.status with fBusyWr := true } })

/-- R141: `T` carries the tick count in the configured byte order, for every count three bytes hold, and the mode bytes;
for 5000 ticks under MSB_FIRST its checksum is 4F XOR ((T_MODE0 XOR T_MODE1) & 7F). -/
def Obligations.TakeImageCarriesTheTickCount : Prop :=
  (∀ (c : Config) (ticks : Nat), ticks < 2 ^ 24 → ∃ t0 t1 t2,
      takeImage c ticks = .wireT t0 t1 t2 c.tMode0 c.tMode1 ∧ ticksOfBytes c t0 t1 t2 = ticks)
    ∧ (∀ m0 m1 : Byte, cmdChecksum [0x54#8, 0x00#8, 0x13#8, 0x88#8, m0, m1] = 0x4F#8 ^^^ ((m0 ^^^ m1) &&& 0x7F#8))
    ∧ (∀ c : Config, c.tickByteOrder = .msbFirst →
        takeImage c 5000 = .wireT 0x00#8 0x13#8 0x88#8 c.tMode0 c.tMode1)

/-! ### The host bus -/

/-- R44: what reset leaves: the register table of R19 with the default parameters, CACC = BACC = 0, SEQ idle, RXQ and
the trace empty, and no buffer byte defined; and the reset input does not reset the device's rate. -/
def Obligations.ResetLeavesTheRegisterTable : Prop :=
  registerOffsets.map (registerValue State.reset)
      = [0#32, 0#32, 0#32, 0#32, 0#32, 0#32, 0#32, 0x0A021000#32, 0x01E00280#32, 0#32, 0#32, 0#32, 0#32, 0#32]
    ∧ State.reset.cacc = 0#8 ∧ State.reset.bacc = 0#8 ∧ State.reset.seq = .idle ∧ State.reset.rxq = []
    ∧ State.reset.trace = [] ∧ State.reset.txbuf = [] ∧ State.reset.rxbuf = [] ∧ State.reset.imgbuf = []
    ∧ State.reset.blkbuf = [] ∧ ∀ s : State, (resetBlock s).cfg.deviceBaud = s.cfg.deviceBaud

/-- R174 to R176: the reset input abandons the operation in progress without a finish: whatever the block was doing,
its registers take their reset values and DONE is 0; the device, the parameters and the moves to come are not reached.
The model's own: the exposure monitor (log entry 9), what reset keeps (log entry 19). -/
def Obligations.ResetAbandonsTheOperation : Prop :=
  ∀ (s : State) (rest : List Move), s.inputs = .reset :: rest →
    step s = .next { State.resetWith s.cfg with inputs := rest, exposing := s.exposing }

/-- R47 to R49: an access to an unmapped offset, of a width or alignment not allowed, or a write to RXBUF or IMGBUF,
has no effect but F_BUS and an error response; an operation in progress is not disturbed. The model's: that the machine
goes on with the sticky bit (log entry 7, DEDUCED), the field for the response (log entry 14), and that an address is
taken by its difference from BASE modulo 2^32, one below BASE too (log entry 26). -/
def Obligations.BusFaultHasNoEffectButItsFlag : Prop :=
  ∀ (s : State) (w : Width) (addr v : Word) (off : Nat), off = busOffset s.cfg addr →
    let allowed (i size : Nat) : Prop := w = .w8 ∧ i < size ∨ w = .w32 ∧ i % 4 = 0 ∧ i + 4 ≤ size
    let faulted : State := { s with bus := .error, status := { s.status with fBus := true } }
    let unmapped : Prop :=
      off < 0x1000 ∧ ¬ (w = .w32 ∧ off % 4 = 0 ∧ off ≤ 0x34)
        ∨ 0x1000 ≤ off ∧ off < 0x2000 ∧ ¬ allowed (off - 0x1000) s.cfg.txbufSize
        ∨ 0x2000 ≤ off ∧ off < 0x3000 ∧ ¬ allowed (off - 0x2000) s.cfg.rxbufSize
        ∨ 0x3000 ≤ off ∧ off < 0x100000
        ∨ 0x100000 ≤ off ∧ off < 0x200000 ∧ ¬ allowed (off - 0x100000) s.cfg.imgbufSize
        ∨ 0x200000 ≤ off
    (unmapped → hostRead w addr s = .next faulted ∧ hostWrite w addr v s = faulted)
      ∧ (0x2000 ≤ off → hostWrite w addr v s = faulted)

/-- R50: within a mapped register a host write stores every non-reserved bit of a RW register and nothing of a RO one;
reserved bits read 0; OP reads 0. With what R19 to R41 and R159 say a host read returns: the register's value, STATUS
and ERR laid out bit by bit, and nothing changed by the read but the response. The model's choices: the field for the
response (log entry 14), and addresses below BASE (log entry 26). -/
def Obligations.RegisterWritesStoreNonReservedBits : Prop :=
  (∀ (s : State) (addr v : Word) (off : Nat), off = busOffset s.cfg addr → off ≠ 0x08 →
    off ∈ registerOffsets →
      (off ∉ [0x00, 0x0C, 0x1C, 0x20] → hostWrite .w32 addr v s = { s with bus := .ack })
        ∧ (off = 0x00 → registerValue (hostWrite .w32 addr v s) off = v &&& 0x00000001#32)
        ∧ (off = 0x0C → registerValue (hostWrite .w32 addr v s) off = v)
        ∧ (off = 0x1C → registerValue (hostWrite .w32 addr v s) off = v &&& 0xFF0FFFFF#32)
        ∧ (off = 0x20 → registerValue (hostWrite .w32 addr v s) off = v)
        ∧ (∀ off' ∈ registerOffsets, off' ≠ off →
            registerValue (hostWrite .w32 addr v s) off' = registerValue s off')
        ∧ registerValue s 0x00 &&& 0xFFFFFFFE#32 = 0#32 ∧ registerValue s 0x04 &&& 0xFFF8F0E0#32 = 0#32
        ∧ registerValue s 0x10 &&& 0xFFFFFFF8#32 = 0#32 ∧ registerValue s 0x14 &&& 0xFFFFFF00#32 = 0#32
        ∧ registerValue s 0x18 &&& 0xFFFF0000#32 = 0#32 ∧ registerValue s 0x2C &&& 0xFFFFFF00#32 = 0#32
        ∧ registerValue s 0x30 &&& 0xFFFFFF80#32 = 0#32 ∧ registerValue s 0x08 = 0#32)
  ∧ (∀ (s : State) (addr : Word) (off : Nat), off = busOffset s.cfg addr → off ∈ registerOffsets →
      hostRead .w32 addr s = .next { s with bus := .data (registerValue s off) })
  ∧ (∀ s : State,
      registerValue s 0x00 = (if s.chkDis then 1#32 else 0#32)
        ∧ (registerValue s 0x04).getLsbD 0 = decide (s.seq ≠ .idle)
        ∧ (registerValue s 0x04).getLsbD 1 = s.status.done ∧ (registerValue s 0x04).getLsbD 2 = s.status.ok
        ∧ (registerValue s 0x04).getLsbD 3 = s.status.term ∧ (registerValue s 0x04).getLsbD 4 = s.status.limit
        ∧ (registerValue s 0x04).extractLsb' 8 4 = (match s.status.err with
            | .noError => 0#4
            | .nack => 1#4
            | .protocol => 2#4
            | .checksum => 3#4
            | .timeout => 4#4
            | .illegalOp => 5#4
            | .badArg => 6#4)
        ∧ (registerValue s 0x04).getLsbD 16 = s.status.fBusyWr ∧ (registerValue s 0x04).getLsbD 17 = s.status.fRxOvr
        ∧ (registerValue s 0x04).getLsbD 18 = s.status.fBus
        ∧ registerValue s 0x0C = s.timeout ∧ (registerValue s 0x10).toNat = s.baud.toNat
        ∧ (registerValue s 0x14).toNat = s.result.toNat ∧ (registerValue s 0x18).toNat = s.rxlen.toNat
        ∧ registerValue s 0x1C = s.xferCfg ∧ registerValue s 0x20 = s.imgDim ∧ registerValue s 0x24 = s.blkTotal
        ∧ registerValue s 0x28 = s.blkRcvd ∧ (registerValue s 0x2C).toNat = s.tryNo.toNat
        ∧ (registerValue s 0x30).toNat = s.progress.toNat ∧ registerValue s 0x34 = s.imglen)

/-- R48, R51: a 32-bit write to TXBUF stores bits 7:0 at the lowest offset and reads back whole, and an 8-bit read at
each of its offsets returns its byte. R48, R54: a host read of defined bytes, of TXBUF, of RXBUF below RXLEN in IDLE,
and of IMGBUF below IMGLEN at any time, returns the stored byte, or four of them with the lowest offset in bits 7:0,
and changes nothing but the response (the model's own field, log entry 14). Addresses below BASE: log entry 26. -/
def Obligations.BufferWordsAreLittleEndian : Prop :=
  (∀ (s : State) (addr v : Word) (i j : Nat), busOffset s.cfg addr = 0x1000 + i → i % 4 = 0 →
    i + 4 ≤ s.cfg.txbufSize → s.cfg.txbufSize ≤ 4096 → j < 4 →
      (∃ t, hostRead .w32 addr (hostWrite .w32 addr v s) = .next t ∧ t.bus = .data v)
        ∧ (∃ t, hostRead .w8 (addr + BitVec.ofNat 32 j) (hostWrite .w32 addr v s) = .next t
            ∧ t.bus = .data ((v >>> (8 * j)) &&& 0xFF#32)))
  ∧ (∀ (s : State) (addr : Word) (buffer : Memory) (start size defined i : Nat),
    (start = 0x1000 ∧ buffer = s.txbuf ∧ size = s.cfg.txbufSize ∧ size ≤ 4096 ∧ defined = size
      ∨ start = 0x2000 ∧ buffer = s.rxbuf ∧ size = s.cfg.rxbufSize ∧ size ≤ 4096 ∧ defined = s.rxlen.toNat ∧ s.seq = .idle
      ∨ start = 0x100000 ∧ buffer = s.imgbuf ∧ size = s.cfg.imgbufSize ∧ size ≤ 0x100000
          ∧ defined = s.imglen.toNat) →
    busOffset s.cfg addr = start + i →
      (∀ b, i < size → i < defined → Memory.read buffer i = some b →
        hostRead .w8 addr s = .next { s with bus := .data (b.setWidth 32) })
      ∧ (∀ b0 b1 b2 b3 : Byte, i % 4 = 0 → i + 4 ≤ size → i + 4 ≤ defined →
        Memory.read buffer i = some b0 → Memory.read buffer (i + 1) = some b1 →
        Memory.read buffer (i + 2) = some b2 → Memory.read buffer (i + 3) = some b3 →
          hostRead .w32 addr s = .next { s with bus := .data (b3 ++ b2 ++ b1 ++ b0) }))

/-- R61, R59: while a transfer runs, the host reads the accepted bytes of IMGBUF below IMGLEN, and the block's steps do
not write them again. The model's choices: the field for the bus response (log entry 14), and addresses below BASE (log
entry 26). -/
def Obligations.AcceptedImageBytesStay : Prop :=
  (∀ (s : State) (addr : Word) (i : Nat) (b : Byte), busOffset s.cfg addr = 0x100000 + i → i < s.imglen.toNat →
      i < s.cfg.imgbufSize → s.cfg.imgbufSize ≤ 0x100000 → Memory.read s.imgbuf i = some b →
        hostRead .w8 addr s = .next { s with bus := .data (b.setWidth 32) })
    ∧ (∀ (s t : State) (op : Word) (o : Operands) (r : ReadCtx) (k i a : Nat),
        s.seq = .run op o (.waitRx r) → r.kont = .xferBlock k i → s.imglen.toNat = k * o.blockBytes →
        blockMove s = .next t → a < s.imglen.toNat → Memory.read t.imgbuf a = Memory.read s.imgbuf a)

/-- R62: a host read changes nothing but the response the host gets, and F_BUS on a bus fault, and repeating it changes
nothing more; a host write other than of OP stores the RW register it reaches, or the TXBUF bytes it reaches, or is a
bus fault, and does nothing else; bytes are transmitted only by WRITE, SEND, SENDV, EXPECT and XFER: a host bus access,
a byte from the device, the timer and the other operations leave the trace as it is. The model's choices: the field for
the bus response (log entry 14), and addresses below BASE (log entry 26). The model's own: going on with the sticky bit
(log entry 7, DEDUCED). -/
def Obligations.HostAccessesHaveNoSideEffect : Prop :=
  (∀ (s t : State) (w : Width) (addr : Word), hostRead w addr s = .next t →
      t = { s with bus := t.bus, status := { s.status with fBus := t.status.fBus } }
        ∧ (t.bus ≠ .error → t.status = s.status)
        ∧ hostRead w addr t = .next t)
    ∧ (∀ (s : State) (w : Width) (addr v : Word) (off : Nat), busTarget s.cfg w (busOffset s.cfg addr) = .register off →
        off ≠ 0x08 → hostWrite w addr v s = { s with
          bus := .ack,
          chkDis := (if off = 0x00 then v.getLsbD 0 else s.chkDis),
          timeout := (if off = 0x0C then v else s.timeout),
          xferCfg := (if off = 0x1C then v &&& 0xFF0FFFFF#32 else s.xferCfg),
          imgDim := (if off = 0x20 then v else s.imgDim) })
    ∧ (∀ (s : State) (w : Width) (addr v : Word) (i : Nat), busTarget s.cfg w (busOffset s.cfg addr) = .tx i →
        (∃ m, hostWrite w addr v s = { s with bus := .ack, txbuf := m })
          ∧ (∀ j, j < w.bytes → Memory.read (hostWrite w addr v s).txbuf (i + j) = (wordBytes w v)[j]?)
          ∧ (∀ a, a < i ∨ i + w.bytes ≤ a → Memory.read (hostWrite w addr v s).txbuf a = Memory.read s.txbuf a))
    ∧ (∀ (s : State) (w : Width) (addr v : Word) (i : Nat),
        (busTarget s.cfg w (busOffset s.cfg addr) = .rx i ∨ busTarget s.cfg w (busOffset s.cfg addr) = .img i
          ∨ busTarget s.cfg w (busOffset s.cfg addr) = .fault) →
          hostWrite w addr v s = { s with bus := .error, status := { s.status with fBus := true } })
    ∧ (∀ (s : State) (w : Width) (addr v : Word), (hostWrite w addr v s).trace = s.trace)
    ∧ (∀ (s t : State) (b : Byte), deviceMove b s = .next t → t.trace = s.trace)
    ∧ (∀ s : State, (expireTimer s).trace = s.trace)
    ∧ (∀ (i : Instr) (w : Word) (s t : State), encode i = .op w → (∀ n, i ≠ .write n) → (∀ n, i ≠ .send n) →
        (∀ n, i ≠ .sendv n) → (∀ n m, i ≠ .expect n m) → i ≠ .xfer → exec i s = .next t → t.trace = s.trace)

/-! ### Frames and whole-machine rules -/

/-- R24, R25, R33, R34, R42, R53, R190: what each operation leaves alone when it runs. No operation writes the RW
registers or TXBUF; TERM is written only by RDUNT and LIMIT only by RDUNT and EXPECT, also when their read returns
after a wait; only SETBAUD writes BAUD; only XFER writes the session; CSUMC, CSUMB, WRITE, SETBAUD, DRAIN and SEND
receive nothing; only WRITE, SEND, SENDV, EXPECT and XFER transmit; WRITE, READ, RDUNT, SETBAUD and DRAIN leave RESULT;
the sticky bits stay; a received result is stored at RXBUF[0..RXLEN) and nowhere else, and XFER stores blocks at
IMGBUF[0..BLK_RCVD × bb) and nowhere else. The model's own: CACC and BACC after an operation (log entry 13), the
operands on an IDLE state (log entry 15), undefined buffer bytes keeping what was last written (log entry 20). -/
def Obligations.OperationsKeepTheirFrame : Prop :=
  (∀ (i : Instr) (w : Word) (s t : State), encode i = .op w → s.cfg.wf = true → exec i s = .next t →
    SameSetup s t ∧ SameSticky s t
      ∧ ((∀ n b, i ≠ .rdunt n b) → t.status.term = s.status.term)
      ∧ ((∀ n b, i ≠ .rdunt n b) → (∀ n m, i ≠ .expect n m) → t.status.limit = s.status.limit)
      ∧ ((∀ c, i ≠ .setbaud c) → t.baud = s.baud)
      ∧ (i ≠ .xfer → SameSession s t)
      ∧ ((∀ n, i ≠ .csumb n) → i ≠ .xfer → t.bacc = s.bacc)
      ∧ (((∃ n, i = .csumc n) ∨ (∃ n, i = .csumb n) ∨ (∃ n, i = .write n) ∨ (∃ c, i = .setbaud c) ∨ i = .drain
            ∨ ∃ n, i = .send n) →
          t.rxlen = s.rxlen ∧ t.rxbuf = s.rxbuf ∧ (i ≠ .drain → t.rxq = s.rxq))
      ∧ (((∃ n, i = .write n) ∨ (∃ n, i = .read n) ∨ (∃ n b, i = .rdunt n b) ∨ (∃ c, i = .setbaud c) ∨ i = .drain) →
          t.result = s.result ∧ t.cacc = s.cacc)
      ∧ (((∃ n, i = .csumc n) ∨ (∃ n, i = .csumb n) ∨ (∃ n, i = .read n) ∨ (∃ n b, i = .rdunt n b)
            ∨ (∃ c, i = .setbaud c) ∨ i = .drain) → t.trace = s.trace)
      ∧ (t.seq = .idle → ∀ a, t.rxlen.toNat ≤ a → Memory.read t.rxbuf a = Memory.read s.rxbuf a)
      ∧ (t.seq ≠ .idle → i ≠ .xfer → t.rxbuf = s.rxbuf ∧ t.rxlen = s.rxlen)
      ∧ (i = .xfer → ∀ a, t.blkRcvd.toNat * s.operands.blockBytes ≤ a →
          Memory.read t.imgbuf a = Memory.read s.imgbuf a))
  ∧ (∀ (s t : State) (op : Word) (o : Operands) (r : ReadCtx),
    s.seq = .run op o (.waitRx r) → blockMove s = .next t →
      ((∀ b, r.kont ≠ .rdunt b) → t.status.term = s.status.term)
        ∧ ((∀ b, r.kont ≠ .rdunt b) → (∀ cmd reply, r.kont ≠ .expect cmd reply) → t.status.limit = s.status.limit))

/-- R53, R62: no step of the block, be it the start of an operation or the resumption of a read, writes the RW registers
or TXBUF, and none takes back a transmitted byte or an emitted event. -/
def Obligations.BlockStepKeepsHostRegistersAndTrace : Prop :=
  ∀ s t : State, blockMove s = .next t → s.seq ≠ .idle →
    SameSetup s t ∧ s.trace <+: t.trace ∧ SameSticky s t

/-- R27 to R29, R168: the sticky fault bits are cleared only by reset: no other move clears one. The model's own: the
move taken when none is listed (log entry 5). -/
def Obligations.StickyBitsAreClearedOnlyByReset : Prop :=
  ∀ s t : State, step s = .next t → s.inputs.head? ≠ some .reset →
    (s.status.fBusyWr = true → t.status.fBusyWr = true) ∧ (s.status.fRxOvr = true → t.status.fRxOvr = true)
      ∧ (s.status.fBus = true → t.status.fBus = true)

/-- The invariant holds at reset. -/
def Obligations.InvariantHoldsAtReset : Prop := StateInv State.reset

/-- Every step of the machine, by any agent, keeps the invariant (R15, R17, R21 to R23, R32, R34, R35, R40 to R42, R55,
R159, R193). -/
def Obligations.EveryStepKeepsTheInvariant : Prop :=
  ∀ s t : State, StateInv s → step s = .next t → StateInv t

/-- R189, R95: every operation finishes: with no other agent's move to come, the block and the timer bring it from any
state to IDLE in finitely many steps, unless its start faults on an undefined TXBUF byte or on R155. The timer's step
when nothing else is listed is R95's fairness (log entry 5). The model's own: the exposure monitor (log entry 9). -/
def Obligations.EveryOperationFinishes : Prop :=
  ∀ s : State, s.inputs = [] →
    ∃ n, (∃ t, Sys2Proof.core.run n s = .next t ∧ t.seq = .idle)
      ∨ Sys2Proof.core.run n s = .fault .txbufUnwritten
      ∨ Sys2Proof.core.run n s = .fault .takeImageDuringExposure
end

