-- ==== Sys2Proof/Laws/State.lean ====
section
/-! SUPPORT. What each named update of the state does to each field, one lemma per field, true by rfl: no later
proof unfolds a record update. -/

namespace Sys2Proof.Machine

open Sys2Proof

section
variable (s : State)

/-! ### acceptOp -/

@[simp] theorem acceptOp_cfg (op : Word) : (acceptOp op s).cfg = s.cfg := rfl
@[simp] theorem acceptOp_inputs (op : Word) : (acceptOp op s).inputs = s.inputs := rfl
@[simp] theorem acceptOp_bus (op : Word) : (acceptOp op s).bus = s.bus := rfl
@[simp] theorem acceptOp_exposing (op : Word) : (acceptOp op s).exposing = s.exposing := rfl
@[simp] theorem acceptOp_cacc (op : Word) : (acceptOp op s).cacc = s.cacc := rfl
@[simp] theorem acceptOp_bacc (op : Word) : (acceptOp op s).bacc = s.bacc := rfl
@[simp] theorem acceptOp_seq (op : Word) : (acceptOp op s).seq = .run op s.registerOperands .exec := rfl
@[simp] theorem acceptOp_chkDis (op : Word) : (acceptOp op s).chkDis = s.chkDis := rfl
@[simp] theorem acceptOp_status (op : Word) : (acceptOp op s).status = s.status.start := rfl
@[simp] theorem acceptOp_timeout (op : Word) : (acceptOp op s).timeout = s.timeout := rfl
@[simp] theorem acceptOp_baud (op : Word) : (acceptOp op s).baud = s.baud := rfl
@[simp] theorem acceptOp_result (op : Word) : (acceptOp op s).result = s.result := rfl
@[simp] theorem acceptOp_rxlen (op : Word) : (acceptOp op s).rxlen = s.rxlen := rfl
@[simp] theorem acceptOp_xferCfg (op : Word) : (acceptOp op s).xferCfg = s.xferCfg := rfl
@[simp] theorem acceptOp_imgDim (op : Word) : (acceptOp op s).imgDim = s.imgDim := rfl
@[simp] theorem acceptOp_blkTotal (op : Word) : (acceptOp op s).blkTotal = s.blkTotal := rfl
@[simp] theorem acceptOp_blkRcvd (op : Word) : (acceptOp op s).blkRcvd = s.blkRcvd := rfl
@[simp] theorem acceptOp_tryNo (op : Word) : (acceptOp op s).tryNo = s.tryNo := rfl
@[simp] theorem acceptOp_progress (op : Word) : (acceptOp op s).progress = s.progress := rfl
@[simp] theorem acceptOp_imglen (op : Word) : (acceptOp op s).imglen = s.imglen := rfl
@[simp] theorem acceptOp_txbuf (op : Word) : (acceptOp op s).txbuf = s.txbuf := rfl
@[simp] theorem acceptOp_rxbuf (op : Word) : (acceptOp op s).rxbuf = s.rxbuf := rfl
@[simp] theorem acceptOp_imgbuf (op : Word) : (acceptOp op s).imgbuf = s.imgbuf := rfl
@[simp] theorem acceptOp_blkbuf (op : Word) : (acceptOp op s).blkbuf = s.blkbuf := rfl
@[simp] theorem acceptOp_rxq (op : Word) : (acceptOp op s).rxq = s.rxq := rfl
@[simp] theorem acceptOp_trace (op : Word) : (acceptOp op s).trace = s.trace := rfl

/-! ### rejectOp -/

@[simp] theorem rejectOp_cfg : (rejectOp s).cfg = s.cfg := rfl
@[simp] theorem rejectOp_inputs : (rejectOp s).inputs = s.inputs := rfl
@[simp] theorem rejectOp_bus : (rejectOp s).bus = s.bus := rfl
@[simp] theorem rejectOp_exposing : (rejectOp s).exposing = s.exposing := rfl
@[simp] theorem rejectOp_cacc : (rejectOp s).cacc = s.cacc := rfl
@[simp] theorem rejectOp_bacc : (rejectOp s).bacc = s.bacc := rfl
@[simp] theorem rejectOp_seq : (rejectOp s).seq = s.seq := rfl
@[simp] theorem rejectOp_chkDis : (rejectOp s).chkDis = s.chkDis := rfl
@[simp] theorem rejectOp_status : (rejectOp s).status = { s.status with fBusyWr := true } := rfl
@[simp] theorem rejectOp_timeout : (rejectOp s).timeout = s.timeout := rfl
@[simp] theorem rejectOp_baud : (rejectOp s).baud = s.baud := rfl
@[simp] theorem rejectOp_result : (rejectOp s).result = s.result := rfl
@[simp] theorem rejectOp_rxlen : (rejectOp s).rxlen = s.rxlen := rfl
@[simp] theorem rejectOp_xferCfg : (rejectOp s).xferCfg = s.xferCfg := rfl
@[simp] theorem rejectOp_imgDim : (rejectOp s).imgDim = s.imgDim := rfl
@[simp] theorem rejectOp_blkTotal : (rejectOp s).blkTotal = s.blkTotal := rfl
@[simp] theorem rejectOp_blkRcvd : (rejectOp s).blkRcvd = s.blkRcvd := rfl
@[simp] theorem rejectOp_tryNo : (rejectOp s).tryNo = s.tryNo := rfl
@[simp] theorem rejectOp_progress : (rejectOp s).progress = s.progress := rfl
@[simp] theorem rejectOp_imglen : (rejectOp s).imglen = s.imglen := rfl
@[simp] theorem rejectOp_txbuf : (rejectOp s).txbuf = s.txbuf := rfl
@[simp] theorem rejectOp_rxbuf : (rejectOp s).rxbuf = s.rxbuf := rfl
@[simp] theorem rejectOp_imgbuf : (rejectOp s).imgbuf = s.imgbuf := rfl
@[simp] theorem rejectOp_blkbuf : (rejectOp s).blkbuf = s.blkbuf := rfl
@[simp] theorem rejectOp_rxq : (rejectOp s).rxq = s.rxq := rfl
@[simp] theorem rejectOp_trace : (rejectOp s).trace = s.trace := rfl
@[simp] theorem rejectOp_busy : (rejectOp s).busy = s.busy := rfl
@[simp] theorem rejectOp_operands : (rejectOp s).operands = s.operands := rfl
@[simp] theorem rejectOp_registerOperands : (rejectOp s).registerOperands = s.registerOperands := rfl

/-! ### finish -/

@[simp] theorem finish_cfg (ok : Bool) (err : ErrCode) : (finish ok err s).cfg = s.cfg := rfl
@[simp] theorem finish_inputs (ok : Bool) (err : ErrCode) : (finish ok err s).inputs = s.inputs := rfl
@[simp] theorem finish_bus (ok : Bool) (err : ErrCode) : (finish ok err s).bus = s.bus := rfl
@[simp] theorem finish_exposing (ok : Bool) (err : ErrCode) : (finish ok err s).exposing = s.exposing := rfl
@[simp] theorem finish_cacc (ok : Bool) (err : ErrCode) : (finish ok err s).cacc = s.cacc := rfl
@[simp] theorem finish_bacc (ok : Bool) (err : ErrCode) : (finish ok err s).bacc = s.bacc := rfl
@[simp] theorem finish_seq (ok : Bool) (err : ErrCode) : (finish ok err s).seq = .idle := rfl
@[simp] theorem finish_chkDis (ok : Bool) (err : ErrCode) : (finish ok err s).chkDis = s.chkDis := rfl
@[simp] theorem finish_status (ok : Bool) (err : ErrCode) : (finish ok err s).status = s.status.finish ok err := rfl
@[simp] theorem finish_timeout (ok : Bool) (err : ErrCode) : (finish ok err s).timeout = s.timeout := rfl
@[simp] theorem finish_baud (ok : Bool) (err : ErrCode) : (finish ok err s).baud = s.baud := rfl
@[simp] theorem finish_result (ok : Bool) (err : ErrCode) : (finish ok err s).result = s.result := rfl
@[simp] theorem finish_rxlen (ok : Bool) (err : ErrCode) : (finish ok err s).rxlen = s.rxlen := rfl
@[simp] theorem finish_xferCfg (ok : Bool) (err : ErrCode) : (finish ok err s).xferCfg = s.xferCfg := rfl
@[simp] theorem finish_imgDim (ok : Bool) (err : ErrCode) : (finish ok err s).imgDim = s.imgDim := rfl
@[simp] theorem finish_blkTotal (ok : Bool) (err : ErrCode) : (finish ok err s).blkTotal = s.blkTotal := rfl
@[simp] theorem finish_blkRcvd (ok : Bool) (err : ErrCode) : (finish ok err s).blkRcvd = s.blkRcvd := rfl
@[simp] theorem finish_tryNo (ok : Bool) (err : ErrCode) : (finish ok err s).tryNo = s.tryNo := rfl
@[simp] theorem finish_progress (ok : Bool) (err : ErrCode) : (finish ok err s).progress = s.progress := rfl
@[simp] theorem finish_imglen (ok : Bool) (err : ErrCode) : (finish ok err s).imglen = s.imglen := rfl
@[simp] theorem finish_txbuf (ok : Bool) (err : ErrCode) : (finish ok err s).txbuf = s.txbuf := rfl
@[simp] theorem finish_rxbuf (ok : Bool) (err : ErrCode) : (finish ok err s).rxbuf = s.rxbuf := rfl
@[simp] theorem finish_imgbuf (ok : Bool) (err : ErrCode) : (finish ok err s).imgbuf = s.imgbuf := rfl
@[simp] theorem finish_blkbuf (ok : Bool) (err : ErrCode) : (finish ok err s).blkbuf = s.blkbuf := rfl
@[simp] theorem finish_rxq (ok : Bool) (err : ErrCode) : (finish ok err s).rxq = s.rxq := rfl
@[simp] theorem finish_trace (ok : Bool) (err : ErrCode) : (finish ok err s).trace = s.trace := rfl

/-! ### putCommandChecksum -/

@[simp] theorem putCommandChecksum_cfg (c : Byte) : (putCommandChecksum c s).cfg = s.cfg := rfl
@[simp] theorem putCommandChecksum_inputs (c : Byte) : (putCommandChecksum c s).inputs = s.inputs := rfl
@[simp] theorem putCommandChecksum_bus (c : Byte) : (putCommandChecksum c s).bus = s.bus := rfl
@[simp] theorem putCommandChecksum_exposing (c : Byte) : (putCommandChecksum c s).exposing = s.exposing := rfl
@[simp] theorem putCommandChecksum_cacc (c : Byte) : (putCommandChecksum c s).cacc = c := rfl
@[simp] theorem putCommandChecksum_bacc (c : Byte) : (putCommandChecksum c s).bacc = s.bacc := rfl
@[simp] theorem putCommandChecksum_seq (c : Byte) : (putCommandChecksum c s).seq = s.seq := rfl
@[simp] theorem putCommandChecksum_chkDis (c : Byte) : (putCommandChecksum c s).chkDis = s.chkDis := rfl
@[simp] theorem putCommandChecksum_status (c : Byte) : (putCommandChecksum c s).status = s.status := rfl
@[simp] theorem putCommandChecksum_timeout (c : Byte) : (putCommandChecksum c s).timeout = s.timeout := rfl
@[simp] theorem putCommandChecksum_baud (c : Byte) : (putCommandChecksum c s).baud = s.baud := rfl
@[simp] theorem putCommandChecksum_result (c : Byte) : (putCommandChecksum c s).result = c := rfl
@[simp] theorem putCommandChecksum_rxlen (c : Byte) : (putCommandChecksum c s).rxlen = s.rxlen := rfl
@[simp] theorem putCommandChecksum_xferCfg (c : Byte) : (putCommandChecksum c s).xferCfg = s.xferCfg := rfl
@[simp] theorem putCommandChecksum_imgDim (c : Byte) : (putCommandChecksum c s).imgDim = s.imgDim := rfl
@[simp] theorem putCommandChecksum_blkTotal (c : Byte) : (putCommandChecksum c s).blkTotal = s.blkTotal := rfl
@[simp] theorem putCommandChecksum_blkRcvd (c : Byte) : (putCommandChecksum c s).blkRcvd = s.blkRcvd := rfl
@[simp] theorem putCommandChecksum_tryNo (c : Byte) : (putCommandChecksum c s).tryNo = s.tryNo := rfl
@[simp] theorem putCommandChecksum_progress (c : Byte) : (putCommandChecksum c s).progress = s.progress := rfl
@[simp] theorem putCommandChecksum_imglen (c : Byte) : (putCommandChecksum c s).imglen = s.imglen := rfl
@[simp] theorem putCommandChecksum_txbuf (c : Byte) : (putCommandChecksum c s).txbuf = s.txbuf := rfl
@[simp] theorem putCommandChecksum_rxbuf (c : Byte) : (putCommandChecksum c s).rxbuf = s.rxbuf := rfl
@[simp] theorem putCommandChecksum_imgbuf (c : Byte) : (putCommandChecksum c s).imgbuf = s.imgbuf := rfl
@[simp] theorem putCommandChecksum_blkbuf (c : Byte) : (putCommandChecksum c s).blkbuf = s.blkbuf := rfl
@[simp] theorem putCommandChecksum_rxq (c : Byte) : (putCommandChecksum c s).rxq = s.rxq := rfl
@[simp] theorem putCommandChecksum_trace (c : Byte) : (putCommandChecksum c s).trace = s.trace := rfl
@[simp] theorem putCommandChecksum_busy (c : Byte) : (putCommandChecksum c s).busy = s.busy := rfl
@[simp] theorem putCommandChecksum_operands (c : Byte) : (putCommandChecksum c s).operands = s.operands := rfl
@[simp] theorem putCommandChecksum_registerOperands (c : Byte) : (putCommandChecksum c s).registerOperands = s.registerOperands := rfl

/-! ### putBlockChecksum -/

@[simp] theorem putBlockChecksum_cfg (x : Byte) : (putBlockChecksum x s).cfg = s.cfg := rfl
@[simp] theorem putBlockChecksum_inputs (x : Byte) : (putBlockChecksum x s).inputs = s.inputs := rfl
@[simp] theorem putBlockChecksum_bus (x : Byte) : (putBlockChecksum x s).bus = s.bus := rfl
@[simp] theorem putBlockChecksum_exposing (x : Byte) : (putBlockChecksum x s).exposing = s.exposing := rfl
@[simp] theorem putBlockChecksum_cacc (x : Byte) : (putBlockChecksum x s).cacc = s.cacc := rfl
@[simp] theorem putBlockChecksum_bacc (x : Byte) : (putBlockChecksum x s).bacc = x := rfl
@[simp] theorem putBlockChecksum_seq (x : Byte) : (putBlockChecksum x s).seq = s.seq := rfl
@[simp] theorem putBlockChecksum_chkDis (x : Byte) : (putBlockChecksum x s).chkDis = s.chkDis := rfl
@[simp] theorem putBlockChecksum_status (x : Byte) : (putBlockChecksum x s).status = s.status := rfl
@[simp] theorem putBlockChecksum_timeout (x : Byte) : (putBlockChecksum x s).timeout = s.timeout := rfl
@[simp] theorem putBlockChecksum_baud (x : Byte) : (putBlockChecksum x s).baud = s.baud := rfl
@[simp] theorem putBlockChecksum_result (x : Byte) : (putBlockChecksum x s).result = x := rfl
@[simp] theorem putBlockChecksum_rxlen (x : Byte) : (putBlockChecksum x s).rxlen = s.rxlen := rfl
@[simp] theorem putBlockChecksum_xferCfg (x : Byte) : (putBlockChecksum x s).xferCfg = s.xferCfg := rfl
@[simp] theorem putBlockChecksum_imgDim (x : Byte) : (putBlockChecksum x s).imgDim = s.imgDim := rfl
@[simp] theorem putBlockChecksum_blkTotal (x : Byte) : (putBlockChecksum x s).blkTotal = s.blkTotal := rfl
@[simp] theorem putBlockChecksum_blkRcvd (x : Byte) : (putBlockChecksum x s).blkRcvd = s.blkRcvd := rfl
@[simp] theorem putBlockChecksum_tryNo (x : Byte) : (putBlockChecksum x s).tryNo = s.tryNo := rfl
@[simp] theorem putBlockChecksum_progress (x : Byte) : (putBlockChecksum x s).progress = s.progress := rfl
@[simp] theorem putBlockChecksum_imglen (x : Byte) : (putBlockChecksum x s).imglen = s.imglen := rfl
@[simp] theorem putBlockChecksum_txbuf (x : Byte) : (putBlockChecksum x s).txbuf = s.txbuf := rfl
@[simp] theorem putBlockChecksum_rxbuf (x : Byte) : (putBlockChecksum x s).rxbuf = s.rxbuf := rfl
@[simp] theorem putBlockChecksum_imgbuf (x : Byte) : (putBlockChecksum x s).imgbuf = s.imgbuf := rfl
@[simp] theorem putBlockChecksum_blkbuf (x : Byte) : (putBlockChecksum x s).blkbuf = s.blkbuf := rfl
@[simp] theorem putBlockChecksum_rxq (x : Byte) : (putBlockChecksum x s).rxq = s.rxq := rfl
@[simp] theorem putBlockChecksum_trace (x : Byte) : (putBlockChecksum x s).trace = s.trace := rfl
@[simp] theorem putBlockChecksum_busy (x : Byte) : (putBlockChecksum x s).busy = s.busy := rfl
@[simp] theorem putBlockChecksum_operands (x : Byte) : (putBlockChecksum x s).operands = s.operands := rfl
@[simp] theorem putBlockChecksum_registerOperands (x : Byte) : (putBlockChecksum x s).registerOperands = s.registerOperands := rfl

/-! ### putBacc -/

@[simp] theorem putBacc_cfg (x : Byte) : (putBacc x s).cfg = s.cfg := rfl
@[simp] theorem putBacc_inputs (x : Byte) : (putBacc x s).inputs = s.inputs := rfl
@[simp] theorem putBacc_bus (x : Byte) : (putBacc x s).bus = s.bus := rfl
@[simp] theorem putBacc_exposing (x : Byte) : (putBacc x s).exposing = s.exposing := rfl
@[simp] theorem putBacc_cacc (x : Byte) : (putBacc x s).cacc = s.cacc := rfl
@[simp] theorem putBacc_bacc (x : Byte) : (putBacc x s).bacc = x := rfl
@[simp] theorem putBacc_seq (x : Byte) : (putBacc x s).seq = s.seq := rfl
@[simp] theorem putBacc_chkDis (x : Byte) : (putBacc x s).chkDis = s.chkDis := rfl
@[simp] theorem putBacc_status (x : Byte) : (putBacc x s).status = s.status := rfl
@[simp] theorem putBacc_timeout (x : Byte) : (putBacc x s).timeout = s.timeout := rfl
@[simp] theorem putBacc_baud (x : Byte) : (putBacc x s).baud = s.baud := rfl
@[simp] theorem putBacc_result (x : Byte) : (putBacc x s).result = s.result := rfl
@[simp] theorem putBacc_rxlen (x : Byte) : (putBacc x s).rxlen = s.rxlen := rfl
@[simp] theorem putBacc_xferCfg (x : Byte) : (putBacc x s).xferCfg = s.xferCfg := rfl
@[simp] theorem putBacc_imgDim (x : Byte) : (putBacc x s).imgDim = s.imgDim := rfl
@[simp] theorem putBacc_blkTotal (x : Byte) : (putBacc x s).blkTotal = s.blkTotal := rfl
@[simp] theorem putBacc_blkRcvd (x : Byte) : (putBacc x s).blkRcvd = s.blkRcvd := rfl
@[simp] theorem putBacc_tryNo (x : Byte) : (putBacc x s).tryNo = s.tryNo := rfl
@[simp] theorem putBacc_progress (x : Byte) : (putBacc x s).progress = s.progress := rfl
@[simp] theorem putBacc_imglen (x : Byte) : (putBacc x s).imglen = s.imglen := rfl
@[simp] theorem putBacc_txbuf (x : Byte) : (putBacc x s).txbuf = s.txbuf := rfl
@[simp] theorem putBacc_rxbuf (x : Byte) : (putBacc x s).rxbuf = s.rxbuf := rfl
@[simp] theorem putBacc_imgbuf (x : Byte) : (putBacc x s).imgbuf = s.imgbuf := rfl
@[simp] theorem putBacc_blkbuf (x : Byte) : (putBacc x s).blkbuf = s.blkbuf := rfl
@[simp] theorem putBacc_rxq (x : Byte) : (putBacc x s).rxq = s.rxq := rfl
@[simp] theorem putBacc_trace (x : Byte) : (putBacc x s).trace = s.trace := rfl
@[simp] theorem putBacc_busy (x : Byte) : (putBacc x s).busy = s.busy := rfl
@[simp] theorem putBacc_operands (x : Byte) : (putBacc x s).operands = s.operands := rfl
@[simp] theorem putBacc_registerOperands (x : Byte) : (putBacc x s).registerOperands = s.registerOperands := rfl

/-! ### putReceived -/

@[simp] theorem putReceived_cfg (got : List Byte) : (putReceived got s).cfg = s.cfg := rfl
@[simp] theorem putReceived_inputs (got : List Byte) : (putReceived got s).inputs = s.inputs := rfl
@[simp] theorem putReceived_bus (got : List Byte) : (putReceived got s).bus = s.bus := rfl
@[simp] theorem putReceived_exposing (got : List Byte) : (putReceived got s).exposing = s.exposing := rfl
@[simp] theorem putReceived_cacc (got : List Byte) : (putReceived got s).cacc = s.cacc := rfl
@[simp] theorem putReceived_bacc (got : List Byte) : (putReceived got s).bacc = s.bacc := rfl
@[simp] theorem putReceived_seq (got : List Byte) : (putReceived got s).seq = s.seq := rfl
@[simp] theorem putReceived_chkDis (got : List Byte) : (putReceived got s).chkDis = s.chkDis := rfl
@[simp] theorem putReceived_status (got : List Byte) : (putReceived got s).status = s.status := rfl
@[simp] theorem putReceived_timeout (got : List Byte) : (putReceived got s).timeout = s.timeout := rfl
@[simp] theorem putReceived_baud (got : List Byte) : (putReceived got s).baud = s.baud := rfl
@[simp] theorem putReceived_result (got : List Byte) : (putReceived got s).result = s.result := rfl
@[simp] theorem putReceived_rxlen (got : List Byte) : (putReceived got s).rxlen = BitVec.ofNat 16 got.length := rfl
@[simp] theorem putReceived_xferCfg (got : List Byte) : (putReceived got s).xferCfg = s.xferCfg := rfl
@[simp] theorem putReceived_imgDim (got : List Byte) : (putReceived got s).imgDim = s.imgDim := rfl
@[simp] theorem putReceived_blkTotal (got : List Byte) : (putReceived got s).blkTotal = s.blkTotal := rfl
@[simp] theorem putReceived_blkRcvd (got : List Byte) : (putReceived got s).blkRcvd = s.blkRcvd := rfl
@[simp] theorem putReceived_tryNo (got : List Byte) : (putReceived got s).tryNo = s.tryNo := rfl
@[simp] theorem putReceived_progress (got : List Byte) : (putReceived got s).progress = s.progress := rfl
@[simp] theorem putReceived_imglen (got : List Byte) : (putReceived got s).imglen = s.imglen := rfl
@[simp] theorem putReceived_txbuf (got : List Byte) : (putReceived got s).txbuf = s.txbuf := rfl
@[simp] theorem putReceived_rxbuf (got : List Byte) : (putReceived got s).rxbuf = Memory.writeBytes s.rxbuf 0 got := rfl
@[simp] theorem putReceived_imgbuf (got : List Byte) : (putReceived got s).imgbuf = s.imgbuf := rfl
@[simp] theorem putReceived_blkbuf (got : List Byte) : (putReceived got s).blkbuf = s.blkbuf := rfl
@[simp] theorem putReceived_rxq (got : List Byte) : (putReceived got s).rxq = s.rxq := rfl
@[simp] theorem putReceived_trace (got : List Byte) : (putReceived got s).trace = s.trace := rfl
@[simp] theorem putReceived_busy (got : List Byte) : (putReceived got s).busy = s.busy := rfl
@[simp] theorem putReceived_operands (got : List Byte) : (putReceived got s).operands = s.operands := rfl
@[simp] theorem putReceived_registerOperands (got : List Byte) : (putReceived got s).registerOperands = s.registerOperands := rfl

/-! ### putReadFlags -/

@[simp] theorem putReadFlags_cfg (term limit : Bool) : (putReadFlags term limit s).cfg = s.cfg := rfl
@[simp] theorem putReadFlags_inputs (term limit : Bool) : (putReadFlags term limit s).inputs = s.inputs := rfl
@[simp] theorem putReadFlags_bus (term limit : Bool) : (putReadFlags term limit s).bus = s.bus := rfl
@[simp] theorem putReadFlags_exposing (term limit : Bool) : (putReadFlags term limit s).exposing = s.exposing := rfl
@[simp] theorem putReadFlags_cacc (term limit : Bool) : (putReadFlags term limit s).cacc = s.cacc := rfl
@[simp] theorem putReadFlags_bacc (term limit : Bool) : (putReadFlags term limit s).bacc = s.bacc := rfl
@[simp] theorem putReadFlags_seq (term limit : Bool) : (putReadFlags term limit s).seq = s.seq := rfl
@[simp] theorem putReadFlags_chkDis (term limit : Bool) : (putReadFlags term limit s).chkDis = s.chkDis := rfl
@[simp] theorem putReadFlags_status (term limit : Bool) : (putReadFlags term limit s).status = { s.status with term := term, limit := limit } := rfl
@[simp] theorem putReadFlags_timeout (term limit : Bool) : (putReadFlags term limit s).timeout = s.timeout := rfl
@[simp] theorem putReadFlags_baud (term limit : Bool) : (putReadFlags term limit s).baud = s.baud := rfl
@[simp] theorem putReadFlags_result (term limit : Bool) : (putReadFlags term limit s).result = s.result := rfl
@[simp] theorem putReadFlags_rxlen (term limit : Bool) : (putReadFlags term limit s).rxlen = s.rxlen := rfl
@[simp] theorem putReadFlags_xferCfg (term limit : Bool) : (putReadFlags term limit s).xferCfg = s.xferCfg := rfl
@[simp] theorem putReadFlags_imgDim (term limit : Bool) : (putReadFlags term limit s).imgDim = s.imgDim := rfl
@[simp] theorem putReadFlags_blkTotal (term limit : Bool) : (putReadFlags term limit s).blkTotal = s.blkTotal := rfl
@[simp] theorem putReadFlags_blkRcvd (term limit : Bool) : (putReadFlags term limit s).blkRcvd = s.blkRcvd := rfl
@[simp] theorem putReadFlags_tryNo (term limit : Bool) : (putReadFlags term limit s).tryNo = s.tryNo := rfl
@[simp] theorem putReadFlags_progress (term limit : Bool) : (putReadFlags term limit s).progress = s.progress := rfl
@[simp] theorem putReadFlags_imglen (term limit : Bool) : (putReadFlags term limit s).imglen = s.imglen := rfl
@[simp] theorem putReadFlags_txbuf (term limit : Bool) : (putReadFlags term limit s).txbuf = s.txbuf := rfl
@[simp] theorem putReadFlags_rxbuf (term limit : Bool) : (putReadFlags term limit s).rxbuf = s.rxbuf := rfl
@[simp] theorem putReadFlags_imgbuf (term limit : Bool) : (putReadFlags term limit s).imgbuf = s.imgbuf := rfl
@[simp] theorem putReadFlags_blkbuf (term limit : Bool) : (putReadFlags term limit s).blkbuf = s.blkbuf := rfl
@[simp] theorem putReadFlags_rxq (term limit : Bool) : (putReadFlags term limit s).rxq = s.rxq := rfl
@[simp] theorem putReadFlags_trace (term limit : Bool) : (putReadFlags term limit s).trace = s.trace := rfl
@[simp] theorem putReadFlags_busy (term limit : Bool) : (putReadFlags term limit s).busy = s.busy := rfl
@[simp] theorem putReadFlags_operands (term limit : Bool) : (putReadFlags term limit s).operands = s.operands := rfl
@[simp] theorem putReadFlags_registerOperands (term limit : Bool) : (putReadFlags term limit s).registerOperands = s.registerOperands := rfl

/-! ### putLimit -/

@[simp] theorem putLimit_cfg (limit : Bool) : (putLimit limit s).cfg = s.cfg := rfl
@[simp] theorem putLimit_inputs (limit : Bool) : (putLimit limit s).inputs = s.inputs := rfl
@[simp] theorem putLimit_bus (limit : Bool) : (putLimit limit s).bus = s.bus := rfl
@[simp] theorem putLimit_exposing (limit : Bool) : (putLimit limit s).exposing = s.exposing := rfl
@[simp] theorem putLimit_cacc (limit : Bool) : (putLimit limit s).cacc = s.cacc := rfl
@[simp] theorem putLimit_bacc (limit : Bool) : (putLimit limit s).bacc = s.bacc := rfl
@[simp] theorem putLimit_seq (limit : Bool) : (putLimit limit s).seq = s.seq := rfl
@[simp] theorem putLimit_chkDis (limit : Bool) : (putLimit limit s).chkDis = s.chkDis := rfl
@[simp] theorem putLimit_status (limit : Bool) : (putLimit limit s).status = { s.status with limit := limit } := rfl
@[simp] theorem putLimit_timeout (limit : Bool) : (putLimit limit s).timeout = s.timeout := rfl
@[simp] theorem putLimit_baud (limit : Bool) : (putLimit limit s).baud = s.baud := rfl
@[simp] theorem putLimit_result (limit : Bool) : (putLimit limit s).result = s.result := rfl
@[simp] theorem putLimit_rxlen (limit : Bool) : (putLimit limit s).rxlen = s.rxlen := rfl
@[simp] theorem putLimit_xferCfg (limit : Bool) : (putLimit limit s).xferCfg = s.xferCfg := rfl
@[simp] theorem putLimit_imgDim (limit : Bool) : (putLimit limit s).imgDim = s.imgDim := rfl
@[simp] theorem putLimit_blkTotal (limit : Bool) : (putLimit limit s).blkTotal = s.blkTotal := rfl
@[simp] theorem putLimit_blkRcvd (limit : Bool) : (putLimit limit s).blkRcvd = s.blkRcvd := rfl
@[simp] theorem putLimit_tryNo (limit : Bool) : (putLimit limit s).tryNo = s.tryNo := rfl
@[simp] theorem putLimit_progress (limit : Bool) : (putLimit limit s).progress = s.progress := rfl
@[simp] theorem putLimit_imglen (limit : Bool) : (putLimit limit s).imglen = s.imglen := rfl
@[simp] theorem putLimit_txbuf (limit : Bool) : (putLimit limit s).txbuf = s.txbuf := rfl
@[simp] theorem putLimit_rxbuf (limit : Bool) : (putLimit limit s).rxbuf = s.rxbuf := rfl
@[simp] theorem putLimit_imgbuf (limit : Bool) : (putLimit limit s).imgbuf = s.imgbuf := rfl
@[simp] theorem putLimit_blkbuf (limit : Bool) : (putLimit limit s).blkbuf = s.blkbuf := rfl
@[simp] theorem putLimit_rxq (limit : Bool) : (putLimit limit s).rxq = s.rxq := rfl
@[simp] theorem putLimit_trace (limit : Bool) : (putLimit limit s).trace = s.trace := rfl
@[simp] theorem putLimit_busy (limit : Bool) : (putLimit limit s).busy = s.busy := rfl
@[simp] theorem putLimit_operands (limit : Bool) : (putLimit limit s).operands = s.operands := rfl
@[simp] theorem putLimit_registerOperands (limit : Bool) : (putLimit limit s).registerOperands = s.registerOperands := rfl

/-! ### putExposing -/

@[simp] theorem putExposing_cfg (e : Bool) : (putExposing e s).cfg = s.cfg := rfl
@[simp] theorem putExposing_inputs (e : Bool) : (putExposing e s).inputs = s.inputs := rfl
@[simp] theorem putExposing_bus (e : Bool) : (putExposing e s).bus = s.bus := rfl
@[simp] theorem putExposing_exposing (e : Bool) : (putExposing e s).exposing = e := rfl
@[simp] theorem putExposing_cacc (e : Bool) : (putExposing e s).cacc = s.cacc := rfl
@[simp] theorem putExposing_bacc (e : Bool) : (putExposing e s).bacc = s.bacc := rfl
@[simp] theorem putExposing_seq (e : Bool) : (putExposing e s).seq = s.seq := rfl
@[simp] theorem putExposing_chkDis (e : Bool) : (putExposing e s).chkDis = s.chkDis := rfl
@[simp] theorem putExposing_status (e : Bool) : (putExposing e s).status = s.status := rfl
@[simp] theorem putExposing_timeout (e : Bool) : (putExposing e s).timeout = s.timeout := rfl
@[simp] theorem putExposing_baud (e : Bool) : (putExposing e s).baud = s.baud := rfl
@[simp] theorem putExposing_result (e : Bool) : (putExposing e s).result = s.result := rfl
@[simp] theorem putExposing_rxlen (e : Bool) : (putExposing e s).rxlen = s.rxlen := rfl
@[simp] theorem putExposing_xferCfg (e : Bool) : (putExposing e s).xferCfg = s.xferCfg := rfl
@[simp] theorem putExposing_imgDim (e : Bool) : (putExposing e s).imgDim = s.imgDim := rfl
@[simp] theorem putExposing_blkTotal (e : Bool) : (putExposing e s).blkTotal = s.blkTotal := rfl
@[simp] theorem putExposing_blkRcvd (e : Bool) : (putExposing e s).blkRcvd = s.blkRcvd := rfl
@[simp] theorem putExposing_tryNo (e : Bool) : (putExposing e s).tryNo = s.tryNo := rfl
@[simp] theorem putExposing_progress (e : Bool) : (putExposing e s).progress = s.progress := rfl
@[simp] theorem putExposing_imglen (e : Bool) : (putExposing e s).imglen = s.imglen := rfl
@[simp] theorem putExposing_txbuf (e : Bool) : (putExposing e s).txbuf = s.txbuf := rfl
@[simp] theorem putExposing_rxbuf (e : Bool) : (putExposing e s).rxbuf = s.rxbuf := rfl
@[simp] theorem putExposing_imgbuf (e : Bool) : (putExposing e s).imgbuf = s.imgbuf := rfl
@[simp] theorem putExposing_blkbuf (e : Bool) : (putExposing e s).blkbuf = s.blkbuf := rfl
@[simp] theorem putExposing_rxq (e : Bool) : (putExposing e s).rxq = s.rxq := rfl
@[simp] theorem putExposing_trace (e : Bool) : (putExposing e s).trace = s.trace := rfl
@[simp] theorem putExposing_busy (e : Bool) : (putExposing e s).busy = s.busy := rfl
@[simp] theorem putExposing_operands (e : Bool) : (putExposing e s).operands = s.operands := rfl
@[simp] theorem putExposing_registerOperands (e : Bool) : (putExposing e s).registerOperands = s.registerOperands := rfl

/-! ### transmit -/

@[simp] theorem transmit_cfg (bs : List Byte) : (transmit bs s).cfg = s.cfg := rfl
@[simp] theorem transmit_inputs (bs : List Byte) : (transmit bs s).inputs = s.inputs := rfl
@[simp] theorem transmit_bus (bs : List Byte) : (transmit bs s).bus = s.bus := rfl
@[simp] theorem transmit_exposing (bs : List Byte) : (transmit bs s).exposing = s.exposing := rfl
@[simp] theorem transmit_cacc (bs : List Byte) : (transmit bs s).cacc = s.cacc := rfl
@[simp] theorem transmit_bacc (bs : List Byte) : (transmit bs s).bacc = s.bacc := rfl
@[simp] theorem transmit_seq (bs : List Byte) : (transmit bs s).seq = s.seq := rfl
@[simp] theorem transmit_chkDis (bs : List Byte) : (transmit bs s).chkDis = s.chkDis := rfl
@[simp] theorem transmit_status (bs : List Byte) : (transmit bs s).status = s.status := rfl
@[simp] theorem transmit_timeout (bs : List Byte) : (transmit bs s).timeout = s.timeout := rfl
@[simp] theorem transmit_baud (bs : List Byte) : (transmit bs s).baud = s.baud := rfl
@[simp] theorem transmit_result (bs : List Byte) : (transmit bs s).result = s.result := rfl
@[simp] theorem transmit_rxlen (bs : List Byte) : (transmit bs s).rxlen = s.rxlen := rfl
@[simp] theorem transmit_xferCfg (bs : List Byte) : (transmit bs s).xferCfg = s.xferCfg := rfl
@[simp] theorem transmit_imgDim (bs : List Byte) : (transmit bs s).imgDim = s.imgDim := rfl
@[simp] theorem transmit_blkTotal (bs : List Byte) : (transmit bs s).blkTotal = s.blkTotal := rfl
@[simp] theorem transmit_blkRcvd (bs : List Byte) : (transmit bs s).blkRcvd = s.blkRcvd := rfl
@[simp] theorem transmit_tryNo (bs : List Byte) : (transmit bs s).tryNo = s.tryNo := rfl
@[simp] theorem transmit_progress (bs : List Byte) : (transmit bs s).progress = s.progress := rfl
@[simp] theorem transmit_imglen (bs : List Byte) : (transmit bs s).imglen = s.imglen := rfl
@[simp] theorem transmit_txbuf (bs : List Byte) : (transmit bs s).txbuf = s.txbuf := rfl
@[simp] theorem transmit_rxbuf (bs : List Byte) : (transmit bs s).rxbuf = s.rxbuf := rfl
@[simp] theorem transmit_imgbuf (bs : List Byte) : (transmit bs s).imgbuf = s.imgbuf := rfl
@[simp] theorem transmit_blkbuf (bs : List Byte) : (transmit bs s).blkbuf = s.blkbuf := rfl
@[simp] theorem transmit_rxq (bs : List Byte) : (transmit bs s).rxq = s.rxq := rfl
@[simp] theorem transmit_trace (bs : List Byte) : (transmit bs s).trace = s.trace ++ bs.map Event.tx := rfl
@[simp] theorem transmit_busy (bs : List Byte) : (transmit bs s).busy = s.busy := rfl
@[simp] theorem transmit_operands (bs : List Byte) : (transmit bs s).operands = s.operands := rfl
@[simp] theorem transmit_registerOperands (bs : List Byte) : (transmit bs s).registerOperands = s.registerOperands := rfl

/-! ### putBaud -/

@[simp] theorem putBaud_cfg (c : Byte) : (putBaud c s).cfg = s.cfg := rfl
@[simp] theorem putBaud_inputs (c : Byte) : (putBaud c s).inputs = s.inputs := rfl
@[simp] theorem putBaud_bus (c : Byte) : (putBaud c s).bus = s.bus := rfl
@[simp] theorem putBaud_exposing (c : Byte) : (putBaud c s).exposing = s.exposing := rfl
@[simp] theorem putBaud_cacc (c : Byte) : (putBaud c s).cacc = s.cacc := rfl
@[simp] theorem putBaud_bacc (c : Byte) : (putBaud c s).bacc = s.bacc := rfl
@[simp] theorem putBaud_seq (c : Byte) : (putBaud c s).seq = s.seq := rfl
@[simp] theorem putBaud_chkDis (c : Byte) : (putBaud c s).chkDis = s.chkDis := rfl
@[simp] theorem putBaud_status (c : Byte) : (putBaud c s).status = s.status := rfl
@[simp] theorem putBaud_timeout (c : Byte) : (putBaud c s).timeout = s.timeout := rfl
@[simp] theorem putBaud_baud (c : Byte) : (putBaud c s).baud = c.setWidth 3 := rfl
@[simp] theorem putBaud_result (c : Byte) : (putBaud c s).result = s.result := rfl
@[simp] theorem putBaud_rxlen (c : Byte) : (putBaud c s).rxlen = s.rxlen := rfl
@[simp] theorem putBaud_xferCfg (c : Byte) : (putBaud c s).xferCfg = s.xferCfg := rfl
@[simp] theorem putBaud_imgDim (c : Byte) : (putBaud c s).imgDim = s.imgDim := rfl
@[simp] theorem putBaud_blkTotal (c : Byte) : (putBaud c s).blkTotal = s.blkTotal := rfl
@[simp] theorem putBaud_blkRcvd (c : Byte) : (putBaud c s).blkRcvd = s.blkRcvd := rfl
@[simp] theorem putBaud_tryNo (c : Byte) : (putBaud c s).tryNo = s.tryNo := rfl
@[simp] theorem putBaud_progress (c : Byte) : (putBaud c s).progress = s.progress := rfl
@[simp] theorem putBaud_imglen (c : Byte) : (putBaud c s).imglen = s.imglen := rfl
@[simp] theorem putBaud_txbuf (c : Byte) : (putBaud c s).txbuf = s.txbuf := rfl
@[simp] theorem putBaud_rxbuf (c : Byte) : (putBaud c s).rxbuf = s.rxbuf := rfl
@[simp] theorem putBaud_imgbuf (c : Byte) : (putBaud c s).imgbuf = s.imgbuf := rfl
@[simp] theorem putBaud_blkbuf (c : Byte) : (putBaud c s).blkbuf = s.blkbuf := rfl
@[simp] theorem putBaud_rxq (c : Byte) : (putBaud c s).rxq = s.rxq := rfl
@[simp] theorem putBaud_trace (c : Byte) : (putBaud c s).trace = s.trace := rfl
@[simp] theorem putBaud_busy (c : Byte) : (putBaud c s).busy = s.busy := rfl

/-! ### clearRxq -/

@[simp] theorem clearRxq_cfg : (clearRxq s).cfg = s.cfg := rfl
@[simp] theorem clearRxq_inputs : (clearRxq s).inputs = s.inputs := rfl
@[simp] theorem clearRxq_bus : (clearRxq s).bus = s.bus := rfl
@[simp] theorem clearRxq_exposing : (clearRxq s).exposing = s.exposing := rfl
@[simp] theorem clearRxq_cacc : (clearRxq s).cacc = s.cacc := rfl
@[simp] theorem clearRxq_bacc : (clearRxq s).bacc = s.bacc := rfl
@[simp] theorem clearRxq_seq : (clearRxq s).seq = s.seq := rfl
@[simp] theorem clearRxq_chkDis : (clearRxq s).chkDis = s.chkDis := rfl
@[simp] theorem clearRxq_status : (clearRxq s).status = s.status := rfl
@[simp] theorem clearRxq_timeout : (clearRxq s).timeout = s.timeout := rfl
@[simp] theorem clearRxq_baud : (clearRxq s).baud = s.baud := rfl
@[simp] theorem clearRxq_result : (clearRxq s).result = s.result := rfl
@[simp] theorem clearRxq_rxlen : (clearRxq s).rxlen = s.rxlen := rfl
@[simp] theorem clearRxq_xferCfg : (clearRxq s).xferCfg = s.xferCfg := rfl
@[simp] theorem clearRxq_imgDim : (clearRxq s).imgDim = s.imgDim := rfl
@[simp] theorem clearRxq_blkTotal : (clearRxq s).blkTotal = s.blkTotal := rfl
@[simp] theorem clearRxq_blkRcvd : (clearRxq s).blkRcvd = s.blkRcvd := rfl
@[simp] theorem clearRxq_tryNo : (clearRxq s).tryNo = s.tryNo := rfl
@[simp] theorem clearRxq_progress : (clearRxq s).progress = s.progress := rfl
@[simp] theorem clearRxq_imglen : (clearRxq s).imglen = s.imglen := rfl
@[simp] theorem clearRxq_txbuf : (clearRxq s).txbuf = s.txbuf := rfl
@[simp] theorem clearRxq_rxbuf : (clearRxq s).rxbuf = s.rxbuf := rfl
@[simp] theorem clearRxq_imgbuf : (clearRxq s).imgbuf = s.imgbuf := rfl
@[simp] theorem clearRxq_blkbuf : (clearRxq s).blkbuf = s.blkbuf := rfl
@[simp] theorem clearRxq_rxq : (clearRxq s).rxq = [] := rfl
@[simp] theorem clearRxq_trace : (clearRxq s).trace = s.trace := rfl
@[simp] theorem clearRxq_busy : (clearRxq s).busy = s.busy := rfl
@[simp] theorem clearRxq_operands : (clearRxq s).operands = s.operands := rfl
@[simp] theorem clearRxq_registerOperands : (clearRxq s).registerOperands = s.registerOperands := rfl

/-! ### startSession -/

@[simp] theorem startSession_cfg (total : Nat) : (startSession total s).cfg = s.cfg := rfl
@[simp] theorem startSession_inputs (total : Nat) : (startSession total s).inputs = s.inputs := rfl
@[simp] theorem startSession_bus (total : Nat) : (startSession total s).bus = s.bus := rfl
@[simp] theorem startSession_exposing (total : Nat) : (startSession total s).exposing = s.exposing := rfl
@[simp] theorem startSession_cacc (total : Nat) : (startSession total s).cacc = s.cacc := rfl
@[simp] theorem startSession_bacc (total : Nat) : (startSession total s).bacc = s.bacc := rfl
@[simp] theorem startSession_seq (total : Nat) : (startSession total s).seq = s.seq := rfl
@[simp] theorem startSession_chkDis (total : Nat) : (startSession total s).chkDis = s.chkDis := rfl
@[simp] theorem startSession_status (total : Nat) : (startSession total s).status = s.status := rfl
@[simp] theorem startSession_timeout (total : Nat) : (startSession total s).timeout = s.timeout := rfl
@[simp] theorem startSession_baud (total : Nat) : (startSession total s).baud = s.baud := rfl
@[simp] theorem startSession_result (total : Nat) : (startSession total s).result = s.result := rfl
@[simp] theorem startSession_rxlen (total : Nat) : (startSession total s).rxlen = s.rxlen := rfl
@[simp] theorem startSession_xferCfg (total : Nat) : (startSession total s).xferCfg = s.xferCfg := rfl
@[simp] theorem startSession_imgDim (total : Nat) : (startSession total s).imgDim = s.imgDim := rfl
@[simp] theorem startSession_blkTotal (total : Nat) : (startSession total s).blkTotal = BitVec.ofNat 32 total := rfl
@[simp] theorem startSession_blkRcvd (total : Nat) : (startSession total s).blkRcvd = 0#32 := rfl
@[simp] theorem startSession_tryNo (total : Nat) : (startSession total s).tryNo = 0#8 := rfl
@[simp] theorem startSession_progress (total : Nat) : (startSession total s).progress = 0#7 := rfl
@[simp] theorem startSession_imglen (total : Nat) : (startSession total s).imglen = 0#32 := rfl
@[simp] theorem startSession_txbuf (total : Nat) : (startSession total s).txbuf = s.txbuf := rfl
@[simp] theorem startSession_rxbuf (total : Nat) : (startSession total s).rxbuf = s.rxbuf := rfl
@[simp] theorem startSession_imgbuf (total : Nat) : (startSession total s).imgbuf = s.imgbuf := rfl
@[simp] theorem startSession_blkbuf (total : Nat) : (startSession total s).blkbuf = s.blkbuf := rfl
@[simp] theorem startSession_rxq (total : Nat) : (startSession total s).rxq = s.rxq := rfl
@[simp] theorem startSession_trace (total : Nat) : (startSession total s).trace = s.trace := rfl
@[simp] theorem startSession_busy (total : Nat) : (startSession total s).busy = s.busy := rfl
@[simp] theorem startSession_operands (total : Nat) : (startSession total s).operands = s.operands := rfl
@[simp] theorem startSession_registerOperands (total : Nat) : (startSession total s).registerOperands = s.registerOperands := rfl

/-! ### putTry -/

@[simp] theorem putTry_cfg (i : Nat) : (putTry i s).cfg = s.cfg := rfl
@[simp] theorem putTry_inputs (i : Nat) : (putTry i s).inputs = s.inputs := rfl
@[simp] theorem putTry_bus (i : Nat) : (putTry i s).bus = s.bus := rfl
@[simp] theorem putTry_exposing (i : Nat) : (putTry i s).exposing = s.exposing := rfl
@[simp] theorem putTry_cacc (i : Nat) : (putTry i s).cacc = s.cacc := rfl
@[simp] theorem putTry_bacc (i : Nat) : (putTry i s).bacc = s.bacc := rfl
@[simp] theorem putTry_seq (i : Nat) : (putTry i s).seq = s.seq := rfl
@[simp] theorem putTry_chkDis (i : Nat) : (putTry i s).chkDis = s.chkDis := rfl
@[simp] theorem putTry_status (i : Nat) : (putTry i s).status = s.status := rfl
@[simp] theorem putTry_timeout (i : Nat) : (putTry i s).timeout = s.timeout := rfl
@[simp] theorem putTry_baud (i : Nat) : (putTry i s).baud = s.baud := rfl
@[simp] theorem putTry_result (i : Nat) : (putTry i s).result = s.result := rfl
@[simp] theorem putTry_rxlen (i : Nat) : (putTry i s).rxlen = s.rxlen := rfl
@[simp] theorem putTry_xferCfg (i : Nat) : (putTry i s).xferCfg = s.xferCfg := rfl
@[simp] theorem putTry_imgDim (i : Nat) : (putTry i s).imgDim = s.imgDim := rfl
@[simp] theorem putTry_blkTotal (i : Nat) : (putTry i s).blkTotal = s.blkTotal := rfl
@[simp] theorem putTry_blkRcvd (i : Nat) : (putTry i s).blkRcvd = s.blkRcvd := rfl
@[simp] theorem putTry_tryNo (i : Nat) : (putTry i s).tryNo = BitVec.ofNat 8 (i + 1) := rfl
@[simp] theorem putTry_progress (i : Nat) : (putTry i s).progress = s.progress := rfl
@[simp] theorem putTry_imglen (i : Nat) : (putTry i s).imglen = s.imglen := rfl
@[simp] theorem putTry_txbuf (i : Nat) : (putTry i s).txbuf = s.txbuf := rfl
@[simp] theorem putTry_rxbuf (i : Nat) : (putTry i s).rxbuf = s.rxbuf := rfl
@[simp] theorem putTry_imgbuf (i : Nat) : (putTry i s).imgbuf = s.imgbuf := rfl
@[simp] theorem putTry_blkbuf (i : Nat) : (putTry i s).blkbuf = s.blkbuf := rfl
@[simp] theorem putTry_rxq (i : Nat) : (putTry i s).rxq = s.rxq := rfl
@[simp] theorem putTry_trace (i : Nat) : (putTry i s).trace = s.trace := rfl
@[simp] theorem putTry_busy (i : Nat) : (putTry i s).busy = s.busy := rfl
@[simp] theorem putTry_operands (i : Nat) : (putTry i s).operands = s.operands := rfl
@[simp] theorem putTry_registerOperands (i : Nat) : (putTry i s).registerOperands = s.registerOperands := rfl

/-! ### putBlkbuf -/

@[simp] theorem putBlkbuf_cfg (d : List Byte) : (putBlkbuf d s).cfg = s.cfg := rfl
@[simp] theorem putBlkbuf_inputs (d : List Byte) : (putBlkbuf d s).inputs = s.inputs := rfl
@[simp] theorem putBlkbuf_bus (d : List Byte) : (putBlkbuf d s).bus = s.bus := rfl
@[simp] theorem putBlkbuf_exposing (d : List Byte) : (putBlkbuf d s).exposing = s.exposing := rfl
@[simp] theorem putBlkbuf_cacc (d : List Byte) : (putBlkbuf d s).cacc = s.cacc := rfl
@[simp] theorem putBlkbuf_bacc (d : List Byte) : (putBlkbuf d s).bacc = s.bacc := rfl
@[simp] theorem putBlkbuf_seq (d : List Byte) : (putBlkbuf d s).seq = s.seq := rfl
@[simp] theorem putBlkbuf_chkDis (d : List Byte) : (putBlkbuf d s).chkDis = s.chkDis := rfl
@[simp] theorem putBlkbuf_status (d : List Byte) : (putBlkbuf d s).status = s.status := rfl
@[simp] theorem putBlkbuf_timeout (d : List Byte) : (putBlkbuf d s).timeout = s.timeout := rfl
@[simp] theorem putBlkbuf_baud (d : List Byte) : (putBlkbuf d s).baud = s.baud := rfl
@[simp] theorem putBlkbuf_result (d : List Byte) : (putBlkbuf d s).result = s.result := rfl
@[simp] theorem putBlkbuf_rxlen (d : List Byte) : (putBlkbuf d s).rxlen = s.rxlen := rfl
@[simp] theorem putBlkbuf_xferCfg (d : List Byte) : (putBlkbuf d s).xferCfg = s.xferCfg := rfl
@[simp] theorem putBlkbuf_imgDim (d : List Byte) : (putBlkbuf d s).imgDim = s.imgDim := rfl
@[simp] theorem putBlkbuf_blkTotal (d : List Byte) : (putBlkbuf d s).blkTotal = s.blkTotal := rfl
@[simp] theorem putBlkbuf_blkRcvd (d : List Byte) : (putBlkbuf d s).blkRcvd = s.blkRcvd := rfl
@[simp] theorem putBlkbuf_tryNo (d : List Byte) : (putBlkbuf d s).tryNo = s.tryNo := rfl
@[simp] theorem putBlkbuf_progress (d : List Byte) : (putBlkbuf d s).progress = s.progress := rfl
@[simp] theorem putBlkbuf_imglen (d : List Byte) : (putBlkbuf d s).imglen = s.imglen := rfl
@[simp] theorem putBlkbuf_txbuf (d : List Byte) : (putBlkbuf d s).txbuf = s.txbuf := rfl
@[simp] theorem putBlkbuf_rxbuf (d : List Byte) : (putBlkbuf d s).rxbuf = s.rxbuf := rfl
@[simp] theorem putBlkbuf_imgbuf (d : List Byte) : (putBlkbuf d s).imgbuf = s.imgbuf := rfl
@[simp] theorem putBlkbuf_blkbuf (d : List Byte) : (putBlkbuf d s).blkbuf = Memory.writeBytes s.blkbuf 0 d := rfl
@[simp] theorem putBlkbuf_rxq (d : List Byte) : (putBlkbuf d s).rxq = s.rxq := rfl
@[simp] theorem putBlkbuf_trace (d : List Byte) : (putBlkbuf d s).trace = s.trace := rfl
@[simp] theorem putBlkbuf_busy (d : List Byte) : (putBlkbuf d s).busy = s.busy := rfl
@[simp] theorem putBlkbuf_operands (d : List Byte) : (putBlkbuf d s).operands = s.operands := rfl
@[simp] theorem putBlkbuf_registerOperands (d : List Byte) : (putBlkbuf d s).registerOperands = s.registerOperands := rfl

/-! ### discardImage -/

@[simp] theorem discardImage_cfg : (discardImage s).cfg = s.cfg := rfl
@[simp] theorem discardImage_inputs : (discardImage s).inputs = s.inputs := rfl
@[simp] theorem discardImage_bus : (discardImage s).bus = s.bus := rfl
@[simp] theorem discardImage_exposing : (discardImage s).exposing = s.exposing := rfl
@[simp] theorem discardImage_cacc : (discardImage s).cacc = s.cacc := rfl
@[simp] theorem discardImage_bacc : (discardImage s).bacc = s.bacc := rfl
@[simp] theorem discardImage_seq : (discardImage s).seq = s.seq := rfl
@[simp] theorem discardImage_chkDis : (discardImage s).chkDis = s.chkDis := rfl
@[simp] theorem discardImage_status : (discardImage s).status = s.status := rfl
@[simp] theorem discardImage_timeout : (discardImage s).timeout = s.timeout := rfl
@[simp] theorem discardImage_baud : (discardImage s).baud = s.baud := rfl
@[simp] theorem discardImage_result : (discardImage s).result = s.result := rfl
@[simp] theorem discardImage_rxlen : (discardImage s).rxlen = s.rxlen := rfl
@[simp] theorem discardImage_xferCfg : (discardImage s).xferCfg = s.xferCfg := rfl
@[simp] theorem discardImage_imgDim : (discardImage s).imgDim = s.imgDim := rfl
@[simp] theorem discardImage_blkTotal : (discardImage s).blkTotal = s.blkTotal := rfl
@[simp] theorem discardImage_blkRcvd : (discardImage s).blkRcvd = s.blkRcvd := rfl
@[simp] theorem discardImage_tryNo : (discardImage s).tryNo = s.tryNo := rfl
@[simp] theorem discardImage_progress : (discardImage s).progress = s.progress := rfl
@[simp] theorem discardImage_imglen : (discardImage s).imglen = 0#32 := rfl
@[simp] theorem discardImage_txbuf : (discardImage s).txbuf = s.txbuf := rfl
@[simp] theorem discardImage_rxbuf : (discardImage s).rxbuf = s.rxbuf := rfl
@[simp] theorem discardImage_imgbuf : (discardImage s).imgbuf = s.imgbuf := rfl
@[simp] theorem discardImage_blkbuf : (discardImage s).blkbuf = s.blkbuf := rfl
@[simp] theorem discardImage_rxq : (discardImage s).rxq = s.rxq := rfl
@[simp] theorem discardImage_trace : (discardImage s).trace = s.trace := rfl
@[simp] theorem discardImage_busy : (discardImage s).busy = s.busy := rfl
@[simp] theorem discardImage_operands : (discardImage s).operands = s.operands := rfl
@[simp] theorem discardImage_registerOperands : (discardImage s).registerOperands = s.registerOperands := rfl

/-! ### respond -/

@[simp] theorem respond_cfg (r : BusResponse) : (respond r s).cfg = s.cfg := rfl
@[simp] theorem respond_inputs (r : BusResponse) : (respond r s).inputs = s.inputs := rfl
@[simp] theorem respond_bus (r : BusResponse) : (respond r s).bus = r := rfl
@[simp] theorem respond_exposing (r : BusResponse) : (respond r s).exposing = s.exposing := rfl
@[simp] theorem respond_cacc (r : BusResponse) : (respond r s).cacc = s.cacc := rfl
@[simp] theorem respond_bacc (r : BusResponse) : (respond r s).bacc = s.bacc := rfl
@[simp] theorem respond_seq (r : BusResponse) : (respond r s).seq = s.seq := rfl
@[simp] theorem respond_chkDis (r : BusResponse) : (respond r s).chkDis = s.chkDis := rfl
@[simp] theorem respond_status (r : BusResponse) : (respond r s).status = s.status := rfl
@[simp] theorem respond_timeout (r : BusResponse) : (respond r s).timeout = s.timeout := rfl
@[simp] theorem respond_baud (r : BusResponse) : (respond r s).baud = s.baud := rfl
@[simp] theorem respond_result (r : BusResponse) : (respond r s).result = s.result := rfl
@[simp] theorem respond_rxlen (r : BusResponse) : (respond r s).rxlen = s.rxlen := rfl
@[simp] theorem respond_xferCfg (r : BusResponse) : (respond r s).xferCfg = s.xferCfg := rfl
@[simp] theorem respond_imgDim (r : BusResponse) : (respond r s).imgDim = s.imgDim := rfl
@[simp] theorem respond_blkTotal (r : BusResponse) : (respond r s).blkTotal = s.blkTotal := rfl
@[simp] theorem respond_blkRcvd (r : BusResponse) : (respond r s).blkRcvd = s.blkRcvd := rfl
@[simp] theorem respond_tryNo (r : BusResponse) : (respond r s).tryNo = s.tryNo := rfl
@[simp] theorem respond_progress (r : BusResponse) : (respond r s).progress = s.progress := rfl
@[simp] theorem respond_imglen (r : BusResponse) : (respond r s).imglen = s.imglen := rfl
@[simp] theorem respond_txbuf (r : BusResponse) : (respond r s).txbuf = s.txbuf := rfl
@[simp] theorem respond_rxbuf (r : BusResponse) : (respond r s).rxbuf = s.rxbuf := rfl
@[simp] theorem respond_imgbuf (r : BusResponse) : (respond r s).imgbuf = s.imgbuf := rfl
@[simp] theorem respond_blkbuf (r : BusResponse) : (respond r s).blkbuf = s.blkbuf := rfl
@[simp] theorem respond_rxq (r : BusResponse) : (respond r s).rxq = s.rxq := rfl
@[simp] theorem respond_trace (r : BusResponse) : (respond r s).trace = s.trace := rfl
@[simp] theorem respond_busy (r : BusResponse) : (respond r s).busy = s.busy := rfl
@[simp] theorem respond_operands (r : BusResponse) : (respond r s).operands = s.operands := rfl
@[simp] theorem respond_registerOperands (r : BusResponse) : (respond r s).registerOperands = s.registerOperands := rfl

/-! ### writeTxbuf -/

@[simp] theorem writeTxbuf_cfg (i : Nat) (bs : List Byte) : (writeTxbuf i bs s).cfg = s.cfg := rfl
@[simp] theorem writeTxbuf_inputs (i : Nat) (bs : List Byte) : (writeTxbuf i bs s).inputs = s.inputs := rfl
@[simp] theorem writeTxbuf_bus (i : Nat) (bs : List Byte) : (writeTxbuf i bs s).bus = s.bus := rfl
@[simp] theorem writeTxbuf_exposing (i : Nat) (bs : List Byte) : (writeTxbuf i bs s).exposing = s.exposing := rfl
@[simp] theorem writeTxbuf_cacc (i : Nat) (bs : List Byte) : (writeTxbuf i bs s).cacc = s.cacc := rfl
@[simp] theorem writeTxbuf_bacc (i : Nat) (bs : List Byte) : (writeTxbuf i bs s).bacc = s.bacc := rfl
@[simp] theorem writeTxbuf_seq (i : Nat) (bs : List Byte) : (writeTxbuf i bs s).seq = s.seq := rfl
@[simp] theorem writeTxbuf_chkDis (i : Nat) (bs : List Byte) : (writeTxbuf i bs s).chkDis = s.chkDis := rfl
@[simp] theorem writeTxbuf_status (i : Nat) (bs : List Byte) : (writeTxbuf i bs s).status = s.status := rfl
@[simp] theorem writeTxbuf_timeout (i : Nat) (bs : List Byte) : (writeTxbuf i bs s).timeout = s.timeout := rfl
@[simp] theorem writeTxbuf_baud (i : Nat) (bs : List Byte) : (writeTxbuf i bs s).baud = s.baud := rfl
@[simp] theorem writeTxbuf_result (i : Nat) (bs : List Byte) : (writeTxbuf i bs s).result = s.result := rfl
@[simp] theorem writeTxbuf_rxlen (i : Nat) (bs : List Byte) : (writeTxbuf i bs s).rxlen = s.rxlen := rfl
@[simp] theorem writeTxbuf_xferCfg (i : Nat) (bs : List Byte) : (writeTxbuf i bs s).xferCfg = s.xferCfg := rfl
@[simp] theorem writeTxbuf_imgDim (i : Nat) (bs : List Byte) : (writeTxbuf i bs s).imgDim = s.imgDim := rfl
@[simp] theorem writeTxbuf_blkTotal (i : Nat) (bs : List Byte) : (writeTxbuf i bs s).blkTotal = s.blkTotal := rfl
@[simp] theorem writeTxbuf_blkRcvd (i : Nat) (bs : List Byte) : (writeTxbuf i bs s).blkRcvd = s.blkRcvd := rfl
@[simp] theorem writeTxbuf_tryNo (i : Nat) (bs : List Byte) : (writeTxbuf i bs s).tryNo = s.tryNo := rfl
@[simp] theorem writeTxbuf_progress (i : Nat) (bs : List Byte) : (writeTxbuf i bs s).progress = s.progress := rfl
@[simp] theorem writeTxbuf_imglen (i : Nat) (bs : List Byte) : (writeTxbuf i bs s).imglen = s.imglen := rfl
@[simp] theorem writeTxbuf_txbuf (i : Nat) (bs : List Byte) : (writeTxbuf i bs s).txbuf = Memory.writeBytes s.txbuf i bs := rfl
@[simp] theorem writeTxbuf_rxbuf (i : Nat) (bs : List Byte) : (writeTxbuf i bs s).rxbuf = s.rxbuf := rfl
@[simp] theorem writeTxbuf_imgbuf (i : Nat) (bs : List Byte) : (writeTxbuf i bs s).imgbuf = s.imgbuf := rfl
@[simp] theorem writeTxbuf_blkbuf (i : Nat) (bs : List Byte) : (writeTxbuf i bs s).blkbuf = s.blkbuf := rfl
@[simp] theorem writeTxbuf_rxq (i : Nat) (bs : List Byte) : (writeTxbuf i bs s).rxq = s.rxq := rfl
@[simp] theorem writeTxbuf_trace (i : Nat) (bs : List Byte) : (writeTxbuf i bs s).trace = s.trace := rfl
@[simp] theorem writeTxbuf_busy (i : Nat) (bs : List Byte) : (writeTxbuf i bs s).busy = s.busy := rfl

/-! ### storeBlock -/

@[simp] theorem storeBlock_cfg (o : Operands) (k : Nat) (data : List Byte) : (storeBlock o k data s).cfg = s.cfg := rfl
@[simp] theorem storeBlock_inputs (o : Operands) (k : Nat) (data : List Byte) : (storeBlock o k data s).inputs = s.inputs := rfl
@[simp] theorem storeBlock_bus (o : Operands) (k : Nat) (data : List Byte) : (storeBlock o k data s).bus = s.bus := rfl
@[simp] theorem storeBlock_exposing (o : Operands) (k : Nat) (data : List Byte) : (storeBlock o k data s).exposing = s.exposing := rfl
@[simp] theorem storeBlock_cacc (o : Operands) (k : Nat) (data : List Byte) : (storeBlock o k data s).cacc = s.cacc := rfl
@[simp] theorem storeBlock_bacc (o : Operands) (k : Nat) (data : List Byte) : (storeBlock o k data s).bacc = s.bacc := rfl
@[simp] theorem storeBlock_seq (o : Operands) (k : Nat) (data : List Byte) : (storeBlock o k data s).seq = s.seq := rfl
@[simp] theorem storeBlock_chkDis (o : Operands) (k : Nat) (data : List Byte) : (storeBlock o k data s).chkDis = s.chkDis := rfl
@[simp] theorem storeBlock_status (o : Operands) (k : Nat) (data : List Byte) : (storeBlock o k data s).status = s.status := rfl
@[simp] theorem storeBlock_timeout (o : Operands) (k : Nat) (data : List Byte) : (storeBlock o k data s).timeout = s.timeout := rfl
@[simp] theorem storeBlock_baud (o : Operands) (k : Nat) (data : List Byte) : (storeBlock o k data s).baud = s.baud := rfl
@[simp] theorem storeBlock_result (o : Operands) (k : Nat) (data : List Byte) : (storeBlock o k data s).result = s.result := rfl
@[simp] theorem storeBlock_rxlen (o : Operands) (k : Nat) (data : List Byte) : (storeBlock o k data s).rxlen = s.rxlen := rfl
@[simp] theorem storeBlock_xferCfg (o : Operands) (k : Nat) (data : List Byte) : (storeBlock o k data s).xferCfg = s.xferCfg := rfl
@[simp] theorem storeBlock_imgDim (o : Operands) (k : Nat) (data : List Byte) : (storeBlock o k data s).imgDim = s.imgDim := rfl
@[simp] theorem storeBlock_blkTotal (o : Operands) (k : Nat) (data : List Byte) : (storeBlock o k data s).blkTotal = s.blkTotal := rfl
@[simp] theorem storeBlock_blkRcvd (o : Operands) (k : Nat) (data : List Byte) : (storeBlock o k data s).blkRcvd = BitVec.ofNat 32 (k + 1) := rfl
@[simp] theorem storeBlock_tryNo (o : Operands) (k : Nat) (data : List Byte) : (storeBlock o k data s).tryNo = s.tryNo := rfl
@[simp] theorem storeBlock_progress (o : Operands) (k : Nat) (data : List Byte) : (storeBlock o k data s).progress = BitVec.ofNat 7 (progressOf (k + 1) o.totalBlocks) := rfl
@[simp] theorem storeBlock_imglen (o : Operands) (k : Nat) (data : List Byte) : (storeBlock o k data s).imglen = BitVec.ofNat 32 ((k + 1) * o.blockBytes) := rfl
@[simp] theorem storeBlock_txbuf (o : Operands) (k : Nat) (data : List Byte) : (storeBlock o k data s).txbuf = s.txbuf := rfl
@[simp] theorem storeBlock_rxbuf (o : Operands) (k : Nat) (data : List Byte) : (storeBlock o k data s).rxbuf = s.rxbuf := rfl
@[simp] theorem storeBlock_imgbuf (o : Operands) (k : Nat) (data : List Byte) : (storeBlock o k data s).imgbuf = Memory.writeBytes s.imgbuf (k * o.blockBytes) data := rfl
@[simp] theorem storeBlock_blkbuf (o : Operands) (k : Nat) (data : List Byte) : (storeBlock o k data s).blkbuf = s.blkbuf := rfl
@[simp] theorem storeBlock_rxq (o : Operands) (k : Nat) (data : List Byte) : (storeBlock o k data s).rxq = s.rxq := rfl
@[simp] theorem storeBlock_trace (o : Operands) (k : Nat) (data : List Byte) : (storeBlock o k data s).trace = s.trace ++ [Event.progress (BitVec.ofNat 7 (progressOf (k + 1) o.totalBlocks))] := rfl
@[simp] theorem storeBlock_busy (o : Operands) (k : Nat) (data : List Byte) : (storeBlock o k data s).busy = s.busy := rfl
@[simp] theorem storeBlock_operands (o : Operands) (k : Nat) (data : List Byte) : (storeBlock o k data s).operands = s.operands := rfl
@[simp] theorem storeBlock_registerOperands (o : Operands) (k : Nat) (data : List Byte) : (storeBlock o k data s).registerOperands = s.registerOperands := rfl

/-! ### Combinations -/

@[simp] theorem acceptOp_busy (op : Word) : (acceptOp op s).busy = true := rfl
@[simp] theorem acceptOp_operands (op : Word) : (acceptOp op s).operands = s.registerOperands := rfl
@[simp] theorem finish_busy (ok : Bool) (err : ErrCode) : (finish ok err s).busy = false := rfl
@[simp] theorem succeed_eq : succeed s = finish true .noError s := rfl
@[simp] theorem fail_eq (e : ErrCode) : fail e s = finish false e s := rfl
@[simp] theorem transmitFrame_eq (cmd : List Byte) :
    transmitFrame cmd s = transmit (frameOf cmd) (putCommandChecksum (cmdChecksum cmd) s) := rfl
@[simp] theorem acceptBlock_eq (o : Operands) (k : Nat) (data : List Byte) :
    acceptBlock o k data s = storeBlock o k data (transmit [sigOk] s) := rfl
@[simp] theorem abortTransfer_eq (cause : ErrCode) :
    abortTransfer cause s = finish false cause (discardImage (transmit [sigStop] s)) := rfl
@[simp] theorem busFault_eq : busFault s = respond .error { s with status := { s.status with fBus := true } } := rfl

theorem operands_idle {s : State} (h : s.seq = .idle) : s.operands = s.registerOperands := by
  simp [State.operands, h]
theorem operands_run {s : State} {op : Word} {o : Operands} {p : Phase} (h : s.seq = .run op o p) :
    s.operands = o := by
  simp [State.operands, h]
theorem busy_idle {s : State} (h : s.seq = .idle) : s.busy = false := by simp [State.busy, h]
theorem busy_run {s : State} {op : Word} {o : Operands} {p : Phase} (h : s.seq = .run op o p) :
    s.busy = true := by
  simp [State.busy, h]
theorem seq_of_not_busy {s : State} (h : s.busy = false) : s.seq = .idle := by
  cases hs : s.seq with
  | idle => rfl
  | run op o p => simp [State.busy, hs] at h
theorem hostWriteOp_idle {s : State} (v : Word) (h : s.busy = false) : hostWriteOp v s = acceptOp v s := by
  simp [hostWriteOp, h]
theorem hostWriteOp_busy {s : State} (v : Word) (h : s.busy = true) : hostWriteOp v s = rejectOp s := by
  simp [hostWriteOp, h]
theorem receive_room {s : State} (b : Byte) (h : s.rxq.length < s.cfg.rxqDepth) :
    receive b s = { s with rxq := s.rxq ++ [b] } := by
  simp [receive, h]
theorem receive_full {s : State} (b : Byte) (h : ¬ s.rxq.length < s.cfg.rxqDepth) :
    receive b s = { s with status := { s.status with fRxOvr := true } } := by
  simp [receive, h]

/-! ### STATUS -/

section
variable (st : Status)
@[simp] theorem Status.start_done : st.start.done = false := rfl
@[simp] theorem Status.start_ok : st.start.ok = false := rfl
@[simp] theorem Status.start_term : st.start.term = false := rfl
@[simp] theorem Status.start_limit : st.start.limit = false := rfl
@[simp] theorem Status.start_err : st.start.err = .noError := rfl
@[simp] theorem Status.start_fBusyWr : st.start.fBusyWr = st.fBusyWr := rfl
@[simp] theorem Status.start_fRxOvr : st.start.fRxOvr = st.fRxOvr := rfl
@[simp] theorem Status.start_fBus : st.start.fBus = st.fBus := rfl
@[simp] theorem Status.finish_done (ok : Bool) (e : ErrCode) : (st.finish ok e).done = true := rfl
@[simp] theorem Status.finish_ok (ok : Bool) (e : ErrCode) : (st.finish ok e).ok = ok := rfl
@[simp] theorem Status.finish_term (ok : Bool) (e : ErrCode) : (st.finish ok e).term = st.term := rfl
@[simp] theorem Status.finish_limit (ok : Bool) (e : ErrCode) : (st.finish ok e).limit = st.limit := rfl
@[simp] theorem Status.finish_err (ok : Bool) (e : ErrCode) : (st.finish ok e).err = e := rfl
@[simp] theorem Status.finish_fBusyWr (ok : Bool) (e : ErrCode) : (st.finish ok e).fBusyWr = st.fBusyWr := rfl
@[simp] theorem Status.finish_fRxOvr (ok : Bool) (e : ErrCode) : (st.finish ok e).fRxOvr = st.fRxOvr := rfl
@[simp] theorem Status.finish_fBus (ok : Bool) (e : ErrCode) : (st.finish ok e).fBus = st.fBus := rfl
end

end

end Sys2Proof.Machine
end

