-- ==== Sys2Proof/Laws/Bus.lean ====
section
/-! SUPPORT. The host bus (20_memory.md R46 to R50): what each offset reaches, what a host write can change, and the
macros of 30_encoding.md R77 written as one update. -/

namespace Sys2Proof.Machine

open Sys2Proof

theorem busOffset_base (c : Config) (x : Nat) : busOffset c (c.base + BitVec.ofNat 32 x) = x % 2 ^ 32 := by
  have : c.base + BitVec.ofNat 32 x - c.base = BitVec.ofNat 32 x := by
    rw [BitVec.add_comm, BitVec.add_sub_cancel]
  simp [busOffset, this]

theorem bufferAccessOk_iff (w : Width) (i size : Nat) :
    bufferAccessOk w i size = true ↔ (w = .w8 ∧ i < size ∨ w = .w32 ∧ i % 4 = 0 ∧ i + 4 ≤ size) := by
  cases w <;> simp [bufferAccessOk]

/-- An allowed buffer access stays inside the buffer. -/
theorem bufferAccessOk_inside {w : Width} {i size : Nat} (h : bufferAccessOk w i size = true) :
    i + w.bytes ≤ size := by
  rcases (bufferAccessOk_iff w i size).1 h with ⟨rfl, h⟩ | ⟨rfl, -, h⟩ <;> simp only [Width.bytes] <;> omega

theorem wordBytes_length (w : Width) (v : Word) : (wordBytes w v).length = w.bytes := by cases w <;> rfl

theorem wordBytes_byte (b : Byte) : wordBytes .w8 (b.setWidth 32) = [b] := by revert b; decide

/-- Everything an offset can reach (R46): a register, bytes of a buffer inside it, or a bus fault. -/
theorem busTarget_cases (c : Config) (w : Width) (off : Nat) :
    (busTarget c w off = .register off ∧ off ≤ 0x34 ∧ off % 4 = 0 ∧ w = .w32)
      ∨ (busTarget c w off = .tx (off - 0x1000) ∧ 0x1000 ≤ off ∧ off < 0x2000
          ∧ bufferAccessOk w (off - 0x1000) c.txbufSize = true)
      ∨ (busTarget c w off = .rx (off - 0x2000) ∧ 0x2000 ≤ off ∧ off < 0x3000
          ∧ bufferAccessOk w (off - 0x2000) c.rxbufSize = true)
      ∨ (busTarget c w off = .img (off - 0x100000) ∧ 0x100000 ≤ off ∧ off < 0x200000
          ∧ bufferAccessOk w (off - 0x100000) c.imgbufSize = true)
      ∨ (busTarget c w off = .fault
          ∧ ¬ (off < 0x1000 ∧ w = .w32 ∧ off % 4 = 0 ∧ off ≤ 0x34)
          ∧ ¬ (0x1000 ≤ off ∧ off < 0x2000 ∧ bufferAccessOk w (off - 0x1000) c.txbufSize = true)
          ∧ ¬ (0x2000 ≤ off ∧ off < 0x3000 ∧ bufferAccessOk w (off - 0x2000) c.rxbufSize = true)
          ∧ ¬ (0x100000 ≤ off ∧ off < 0x200000 ∧ bufferAccessOk w (off - 0x100000) c.imgbufSize = true)) := by
  unfold busTarget
  split
  · split
    · exact .inl ⟨rfl, by omega, by omega, by simp_all⟩
    · next h1 h2 =>
      exact .inr (.inr (.inr (.inr ⟨rfl, fun h => h2 ⟨h.2.1, h.2.2.1, h.2.2.2⟩, by omega, by omega, by omega⟩)))
  · split
    · split
      · next h => exact .inr (.inl ⟨rfl, by omega, by omega, h⟩)
      · next h => exact .inr (.inr (.inr (.inr ⟨rfl, by omega, fun h' => h h'.2.2, by omega, by omega⟩)))
    · split
      · split
        · next h => exact .inr (.inr (.inl ⟨rfl, by omega, by omega, h⟩))
        · next h => exact .inr (.inr (.inr (.inr ⟨rfl, by omega, by omega, fun h' => h h'.2.2, by omega⟩)))
      · split
        · split
          · next h => exact .inr (.inr (.inr (.inl ⟨rfl, by omega, by omega, h⟩)))
          · next h => exact .inr (.inr (.inr (.inr ⟨rfl, by omega, by omega, by omega, fun h' => h h'.2.2⟩)))
        · exact .inr (.inr (.inr (.inr ⟨rfl, by omega, by omega, by omega, by omega⟩)))

theorem busTarget_register {c : Config} {off : Nat} (h : off ≤ 0x34) (h4 : off % 4 = 0) :
    busTarget c .w32 off = .register off := by
  simp only [busTarget, if_pos (by omega : off < 0x1000), h4, h, and_self, if_true]

theorem busTarget_tx {c : Config} {w : Width} {i : Nat} (hi : i < 0x1000)
    (h : bufferAccessOk w i c.txbufSize = true) : busTarget c w (0x1000 + i) = .tx i := by
  simp only [busTarget, if_neg (by omega : ¬ 0x1000 + i < 0x1000), if_pos (by omega : 0x1000 + i < 0x2000),
    Nat.add_sub_cancel_left, h, if_true]

theorem busTarget_rx {c : Config} {w : Width} {i : Nat} (hi : i < 0x1000)
    (h : bufferAccessOk w i c.rxbufSize = true) : busTarget c w (0x2000 + i) = .rx i := by
  simp only [busTarget, if_neg (by omega : ¬ 0x2000 + i < 0x1000), if_neg (by omega : ¬ 0x2000 + i < 0x2000),
    if_pos (by omega : 0x2000 + i < 0x3000), Nat.add_sub_cancel_left, h, if_true]

theorem busTarget_img {c : Config} {w : Width} {i : Nat} (hi : i < 0x100000)
    (h : bufferAccessOk w i c.imgbufSize = true) : busTarget c w (0x100000 + i) = .img i := by
  simp only [busTarget, if_neg (by omega : ¬ 0x100000 + i < 0x1000), if_neg (by omega : ¬ 0x100000 + i < 0x2000),
    if_neg (by omega : ¬ 0x100000 + i < 0x3000), if_pos (by omega : 0x100000 ≤ 0x100000 + i ∧ 0x100000 + i < 0x200000),
    Nat.add_sub_cancel_left, h, if_true]

/-- Everything a host write can do: nothing but its response, one RW register, OP, TXBUF bytes, or a bus fault. -/
theorem hostWrite_cases (w : Width) (addr v : Word) (s : State) :
    (hostWrite w addr v s = respond .ack s)
      ∨ (hostWrite w addr v s = respond .ack { s with chkDis := v.getLsbD 0 })
      ∨ (hostWrite w addr v s = respond .ack (hostWriteOp v s)
          ∧ busTarget s.cfg w (busOffset s.cfg addr) = .register 0x08)
      ∨ (hostWrite w addr v s = respond .ack { s with timeout := v })
      ∨ (hostWrite w addr v s = respond .ack { s with xferCfg := storedXferCfg v })
      ∨ (hostWrite w addr v s = respond .ack { s with imgDim := v })
      ∨ (∃ i, hostWrite w addr v s = respond .ack (writeTxbuf i (wordBytes w v) s)
          ∧ bufferAccessOk w i s.cfg.txbufSize = true)
      ∨ (hostWrite w addr v s = busFault s) := by
  rcases busTarget_cases s.cfg w (busOffset s.cfg addr) with h | h | h | h | h
  · generalize hoff : busOffset s.cfg addr = off at h
    simp only [hostWrite, hostWriteAt, hoff, h.1, writeRegister]
    split
    · exact .inr (.inl rfl)
    · exact .inr (.inr (.inl ⟨rfl, rfl⟩))
    · exact .inr (.inr (.inr (.inl rfl)))
    · exact .inr (.inr (.inr (.inr (.inl rfl))))
    · exact .inr (.inr (.inr (.inr (.inr (.inl rfl)))))
    · exact .inl rfl
  · exact .inr (.inr (.inr (.inr (.inr (.inr (.inl ⟨_, by simp only [hostWrite, hostWriteAt, h.1], h.2.2.2⟩))))))
  · exact .inr (.inr (.inr (.inr (.inr (.inr (.inr (by simp only [hostWrite, hostWriteAt, h.1])))))))
  · exact .inr (.inr (.inr (.inr (.inr (.inr (.inr (by simp only [hostWrite, hostWriteAt, h.1])))))))
  · exact .inr (.inr (.inr (.inr (.inr (.inr (.inr (by simp only [hostWrite, hostWriteAt, h.1])))))))

/-- Everything a host read can do: answer a value, or fault, or be a bus fault. -/
theorem hostRead_cases (w : Width) (addr : Word) (s : State) :
    (∃ v, hostRead w addr s = .next (respond (.data v) s))
      ∨ hostRead w addr s = .next (busFault s)
      ∨ ∃ f, hostRead w addr s = .fault f := by
  have buf : ∀ (m : Memory) (i n : Nat) (f : Fault),
      (∃ v, bufferRead m i n f s = .next (respond (.data v) s)) ∨ ∃ f', bufferRead m i n f s = .fault f' := by
    intro m i n f
    unfold bufferRead
    cases Memory.readBytes m i n with
    | some bs => exact .inl ⟨_, rfl⟩
    | none => exact .inr ⟨f, rfl⟩
  unfold hostRead
  split
  · exact .inl ⟨_, rfl⟩
  · rcases buf s.txbuf _ w.bytes .txbufUnwritten with h | h
    · exact .inl h
    · exact .inr (.inr h)
  · split
    · rcases buf s.rxbuf _ w.bytes .rxbufUndefined with h | h
      · exact .inl h
      · exact .inr (.inr h)
    · exact .inr (.inr ⟨_, rfl⟩)
  · split
    · rcases buf s.imgbuf _ w.bytes .imgbufUndefined with h | h
      · exact .inl h
      · exact .inr (.inr h)
    · exact .inr (.inr ⟨_, rfl⟩)
  · exact .inr (.inl rfl)

/-- `tx 0: bs` of bytes that fit TXBUF stores them and changes nothing else but the bus response (R76). -/
theorem hostTx_fits (bs : List Byte) : ∀ (k : Nat) (s : State), k + bs.length ≤ s.cfg.txbufSize →
    s.cfg.txbufSize ≤ 4096 →
      ∃ r, hostTx k bs s = { s with txbuf := Memory.writeBytes s.txbuf k bs, bus := r } := by
  induction bs with
  | nil => intro k s _ _; exact ⟨s.bus, rfl⟩
  | cons b bs ih =>
    intro k s h1 h2
    simp only [List.length_cons] at h1
    have e : hostWriteAt .w8 (0x1000 + k) (b.setWidth 32) s
        = { s with txbuf := Memory.write s.txbuf k b, bus := .ack } := by
      rw [hostWriteAt, busTarget_tx (by omega) (by simp only [bufferAccessOk, decide_eq_true_eq]; omega)]
      simp [respond, writeTxbuf, wordBytes_byte, Memory.writeBytes]
    obtain ⟨r, hr⟩ := ih (k + 1) { s with txbuf := Memory.write s.txbuf k b, bus := .ack } (by simp; omega) h2
    exact ⟨r, by rw [hostTx, e, hr]; rfl⟩

/-- A macro issued from IDLE: the bytes are stored, the OP write is accepted and the block's step runs (R77). -/
theorem issueOp_idle {bs : List Byte} {op : Word} {run : State → Host.Outcome State Fault Refusal} {s : State}
    (h : s.seq = .idle) (h1 : bs.length ≤ s.cfg.txbufSize) (h2 : s.cfg.txbufSize ≤ 4096) :
    issueOp bs op run s
      = run (acceptOp op { s with txbuf := Memory.writeBytes s.txbuf 0 bs, bus := .ack }) := by
  obtain ⟨r, hr⟩ := hostTx_fits bs 0 s (by omega) h2
  simp [issueOp, hr, respond, State.busy, h]

/-- A macro issued while BUSY: the bytes are stored and the OP write is ignored with F_BUSYWR (R53, R165). -/
theorem issueOp_busy {bs : List Byte} {op : Word} {run : State → Host.Outcome State Fault Refusal} {s : State}
    (h : s.busy = true) (h1 : bs.length ≤ s.cfg.txbufSize) (h2 : s.cfg.txbufSize ≤ 4096) :
    issueOp bs op run s
      = .next (rejectOp { s with txbuf := Memory.writeBytes s.txbuf 0 bs, bus := .ack }) := by
  obtain ⟨r, hr⟩ := hostTx_fits bs 0 s (by omega) h2
  cases hs : s.seq with
  | idle => simp [State.busy, hs] at h
  | run a b c => simp [issueOp, hr, respond, State.busy, hs]

theorem bytesWord_one (b : Byte) : bytesWord [b] = b.setWidth 32 := by simp [bytesWord]

/-- Four bytes make a word with the first in bits 7:0 (R48). -/
theorem bytesWord_four (b0 b1 b2 b3 : Byte) : bytesWord [b0, b1, b2, b3] = b3 ++ b2 ++ b1 ++ b0 := by
  apply BitVec.eq_of_getLsbD_eq
  intro j hj
  simp only [bytesWord, BitVec.getLsbD_or, BitVec.getLsbD_shiftLeft, BitVec.getLsbD_append, BitVec.getLsbD_setWidth, hj,
    BitVec.getLsbD_zero]
  rcases Nat.lt_or_ge j 8 with a | a
  · simp [a]
  have h0 := BitVec.getLsbD_of_ge b0 j a
  rcases Nat.lt_or_ge j 16 with b | b
  · simp [h0, show ¬ j < 8 by omega, show j - 8 < 8 by omega, show j - 8 < 32 by omega]
  have h1 := BitVec.getLsbD_of_ge b1 (j - 8) (by omega)
  rcases Nat.lt_or_ge j 24 with c | c
  · simp [h0, h1, show ¬ j < 8 by omega, show ¬ j - 8 < 8 by omega, show j - 8 - 8 < 8 by omega,
      show j - 8 < 32 by omega, show j - 8 - 8 < 32 by omega]
  · have h2 := BitVec.getLsbD_of_ge b2 (j - 8 - 8) (by omega)
    simp [h0, h1, h2, show ¬ j < 8 by omega, show ¬ j - 8 < 8 by omega, show ¬ j - 8 - 8 < 8 by omega,
      show j - 8 < 32 by omega, show j - 8 - 8 < 32 by omega, show j - 8 - 8 - 8 < 32 by omega]

/-- A buffer read whose bytes hold values answers them. -/
theorem bufferRead_some {m : Memory} {i n : Nat} {f : Fault} {s : State} {bs : List Byte}
    (h : Memory.readBytes m i n = some bs) : bufferRead m i n f s = .next { s with bus := .data (bytesWord bs) } := by
  simp only [bufferRead, h, respond]

/-- Bytes stored from offset 0 are what an operation latches there. -/
theorem readBytes_stored (m : Memory) (bs : List Byte) {n : Nat} (h : n = bs.length) :
    Memory.readBytes (Memory.writeBytes m 0 bs) 0 n = some bs := by
  subst h; exact Memory.readBytes_writeBytes m 0 bs

end Sys2Proof.Machine
end

