-- ==== Sys2Proof/Laws/Checksum.lean ====
section
/-! SUPPORT. The laws of the checksum functions, from which the statements about R80 to R86 follow. -/

namespace Sys2Proof.Machine

open Sys2Proof

/-- The XOR of a byte sequence. -/
def xorAll (s : List Byte) : Byte := s.foldr (fun b acc => b ^^^ acc) 0#8

theorem foldl_xor (s : List Byte) (acc : Byte) : s.foldl (fun a b => a ^^^ b) acc = acc ^^^ xorAll s := by
  induction s generalizing acc with
  | nil => simp [xorAll]
  | cons b s ih => simp only [List.foldl_cons, ih, xorAll, List.foldr_cons, BitVec.xor_assoc]

theorem foldl_inv7 (s : List Byte) (acc : Byte) :
    s.foldl (fun a b => a ^^^ inv7 b) acc = acc ^^^ xorAll (s.map inv7) := by
  induction s generalizing acc with
  | nil => simp [xorAll]
  | cons b s ih => simp only [List.foldl_cons, ih, xorAll, List.map_cons, List.foldr_cons, BitVec.xor_assoc]

theorem cmdChecksum_eq (s : List Byte) : cmdChecksum s = xorAll (s.map inv7) := by
  simp [cmdChecksum, foldl_inv7]

theorem blkChecksum_eq (s : List Byte) : blkChecksum s = xorAll s := by
  simp [blkChecksum, foldl_xor]

@[simp] theorem cmdChecksum_nil : cmdChecksum [] = 0#8 := rfl
@[simp] theorem blkChecksum_nil : blkChecksum [] = 0#8 := rfl

@[simp] theorem cmdChecksum_cons (b : Byte) (s : List Byte) : cmdChecksum (b :: s) = inv7 b ^^^ cmdChecksum s := by
  simp [cmdChecksum_eq, xorAll]

@[simp] theorem blkChecksum_cons (b : Byte) (s : List Byte) : blkChecksum (b :: s) = b ^^^ blkChecksum s := by
  simp [blkChecksum_eq, xorAll]

theorem cmdChecksum_append (s t : List Byte) : cmdChecksum (s ++ t) = cmdChecksum s ^^^ cmdChecksum t := by
  induction s with
  | nil => simp
  | cons b s ih => simp only [List.cons_append, cmdChecksum_cons, ih, BitVec.xor_assoc]

theorem blkChecksum_append (s t : List Byte) : blkChecksum (s ++ t) = blkChecksum s ^^^ blkChecksum t := by
  induction s with
  | nil => simp
  | cons b s ih => simp only [List.cons_append, blkChecksum_cons, ih, BitVec.xor_assoc]

/-- The term of a byte, bit by bit: bits 0 to 6 complemented, bit 7 clear (R80). -/
theorem getLsbD_inv7 (b : Byte) (j : Nat) : (inv7 b).getLsbD j = (decide (j < 7) && !b.getLsbD j) := by
  have h7 : ∀ j, j < 8 → (0x7F#8).getLsbD j = decide (j < 7) := by decide
  by_cases hj : j < 8
  · simp only [inv7, BitVec.getLsbD_and, BitVec.getLsbD_not, h7 j hj, hj, decide_true, Bool.true_and]
    cases b.getLsbD j <;> simp
  · have : ¬ j < 7 := by omega
    simp [inv7, BitVec.getLsbD_of_ge _ _ (by omega : 8 ≤ j), this]

/-- Bit 7 of a command checksum is 0 (R15, R82). -/
theorem cmdChecksum_bit7 (s : List Byte) : (cmdChecksum s).getLsbD 7 = false := by
  induction s with
  | nil => rfl
  | cons b s ih => rw [cmdChecksum_cons, BitVec.getLsbD_xor, getLsbD_inv7, ih]; rfl

/-- The term of a 7-bit value is its complement in 7 bits. -/
theorem inv7_of_bit7 {c : Byte} (h : c.getLsbD 7 = false) : inv7 c = c ^^^ 0x7F#8 := by
  have h7 : ∀ j, j < 8 → (0x7F#8).getLsbD j = decide (j < 7) := by decide
  apply BitVec.eq_of_getLsbD_eq
  intro j hj
  rw [getLsbD_inv7, BitVec.getLsbD_xor, h7 j hj]
  rcases Nat.lt_or_ge j 7 with h' | h'
  · simp [h']
  · have : j = 7 := by omega
    subst this; rw [h]; rfl

@[simp] theorem frameOf_length (cmd : List Byte) : (frameOf cmd).length = cmd.length + 1 := by simp [frameOf]

end Sys2Proof.Machine
end

