-- ==== Sys2Proof/Laws/Config.lean ====
section
/-! SUPPORT. The parameters of 00_scope.md R7 that stand in Config as plain data lose nothing: every function of rate and
block size is a BLOCK_TIMEOUT_FN on the rates and sizes the block can use, and a character of any line format carries
its byte, and a line its bytes. -/

namespace Sys2Proof.Machine

open Sys2Proof

/-- The table of a function at the rates `rates` and the block sizes below `sizes`. -/
def timeoutTable (f : Nat → Nat → Nat) (rates : List Nat) (sizes : Nat) : List BlockTimeoutEntry :=
  rates.flatMap fun r => (List.range sizes).map fun bb => ⟨r, bb, f r bb⟩

theorem tableTimeout_of_values {f : Nat → Nat → Nat} {d r bb : Nat} {es : List BlockTimeoutEntry}
    (hv : ∀ e ∈ es, e.micros = f e.baud e.blockBytes) (hm : ⟨r, bb, f r bb⟩ ∈ es) : tableTimeout d r bb es = f r bb := by
  induction es with
  | nil => cases hm
  | cons e es ih =>
    unfold tableTimeout
    split
    · next h => rw [hv e (by simp), h.1, h.2]
    · next h =>
      refine ih (fun e' he' => hv e' (by simp [he'])) ?_
      rcases List.mem_cons.1 hm with rfl | hm
      · exact absurd ⟨rfl, rfl⟩ h
      · exact hm

/-- Any function of the rate and the block bytes is a BLOCK_TIMEOUT_FN, at every rate of BAUD_TABLE and every block size
that fits BLKBUF (R7, R115, R119). -/
theorem blockTimeout_any (f : Nat → Nat → Nat) (c : Config) {r bb : Nat} (hr : r ∈ c.baudTable)
    (hb : bb + 1 ≤ c.blkbufSize) :
    blockTimeout { c with blockTimeoutFn := .table (timeoutTable f c.baudTable c.blkbufSize) 0 } r bb = f r bb := by
  refine tableTimeout_of_values (f := f) ?_ ?_
  · simp only [timeoutTable, List.mem_flatMap, List.mem_map]
    rintro e ⟨r, -, bb, -, rfl⟩; rfl
  · simp only [timeoutTable, List.mem_flatMap, List.mem_map, List.mem_range]
    exact ⟨r, hr, bb, by omega, rfl⟩

@[simp] theorem dataBits_length (n : Nat) (b : Byte) : (dataBits n b).length = n := by simp [dataBits]

theorem byteOfBits_dataBits (b : Byte) : byteOfBits (dataBits 8 b) = b := by revert b; decide

/-- A character of eight data bits, whatever its parity and stop bits, reads back as its byte (R74). -/
theorem readChar_charBits (f : LineFormat) (b : Byte) (h : f.dataBits = 8) : readChar f (charBits f b) = some b := by
  have ht : (dataBits f.dataBits b ++ (parityBits f.parity (dataBits f.dataBits b) ++ List.replicate f.stopBits true)).take
      f.dataBits = dataBits f.dataBits b := List.take_left' (dataBits_length ..)
  unfold charBits readChar
  simp only [ht]
  simp [h, byteOfBits_dataBits]

@[simp] theorem parityBits_length (p : Parity) (bits : List Bool) :
    (parityBits p bits).length = (parityBits p []).length := by cases p <;> rfl

theorem charBits_length (f : LineFormat) (b : Byte) : (charBits f b).length = charLength f := by
  simp [charBits, charLength, Nat.add_comm]

theorem readLine_idle (f : LineFormat) (n fuel : Nat) (levels : List Bool) :
    readLine f (n + fuel) (List.replicate n idleLevel ++ levels) = readLine f fuel levels := by
  induction n with
  | zero => simp
  | succ n ih => rw [Nat.succ_add, List.replicate_succ, List.cons_append, readLine, if_pos rfl, ih]

/-- Fuel beyond the number of levels changes nothing. -/
theorem readLine_fuel (f : LineFormat) : ∀ (n m : Nat) (levels : List Bool), levels.length ≤ n → levels.length ≤ m →
    readLine f n levels = readLine f m levels := by
  intro n
  induction n with
  | zero => intro m levels h _; rw [List.eq_nil_of_length_eq_zero (Nat.le_zero.1 h)]; simp [readLine]
  | succ n ih =>
    intro m levels hn hm
    match levels, m, hm with
    | [], _, _ => simp [readLine]
    | l :: rest, m + 1, hm =>
      simp only [List.length_cons, Nat.add_le_add_iff_right] at hn hm
      have hd : ((l :: rest).drop (charLength f)).length ≤ rest.length := by
        simp only [List.length_drop, List.length_cons, charLength]; omega
      simp only [readLine, ih m rest hn hm, ih m _ (hd.trans hn) (hd.trans hm)]

/-- What a line carries is what a receiver reads from it, whatever its idle times and its format's parity and stop bits
(R74). -/
theorem readLine_lineLevels (f : LineFormat) (idle : Nat → Nat) (h : f.dataBits = 8) (bs : List Byte) (k : Nat) :
    readLine f (lineLevels f idle k bs).length (lineLevels f idle k bs) = some bs := by
  induction bs generalizing k with
  | nil => simpa [lineLevels, readLine] using readLine_idle f (idle k) 0 []
  | cons b bs ih =>
    rw [lineLevels, List.length_append, List.length_replicate, readLine_idle]
    have hc := charBits_length f b
    rw [List.length_append]
    obtain ⟨rest, hr⟩ : ∃ rest, charBits f b = false :: rest := ⟨_, rfl⟩
    have hcons : charBits f b ++ lineLevels f idle (k + 1) bs = false :: (rest ++ lineLevels f idle (k + 1) bs) := by
      rw [hr]; rfl
    obtain ⟨m, hm⟩ : ∃ m, (charBits f b).length = m + 1 := ⟨rest.length, by rw [hr]; rfl⟩
    rw [hm, Nat.succ_add, hcons, readLine, if_neg (by decide), ← hcons, List.take_left' hc, List.drop_left' hc,
      readChar_charBits f b h]
    simp only
    rw [readLine_fuel f _ (lineLevels f idle (k + 1) bs).length _ (by omega) (Nat.le_refl _), ih]
    rfl

end Sys2Proof.Machine
end

