-- ==== Sys2Proof/Laws/Decode.lean ====
section
/-! SUPPORT. The laws of the encodings: the fields of an assembled operation word, and the assembly of R75. -/

namespace Sys2Proof

@[simp] theorem opcOf_opWord (opc b : Byte) (n : BitVec 16) : opcOf (opWord opc b n) = opc := by
  apply BitVec.eq_of_getLsbD_eq
  intro i hi
  simp only [opcOf, opWord, BitVec.getLsbD_extractLsb', hi, decide_true, Bool.true_and, BitVec.getLsbD_append,
    Nat.zero_add, if_true]

@[simp] theorem bOf_opWord (opc b : Byte) (n : BitVec 16) : bOf (opWord opc b n) = b := by
  apply BitVec.eq_of_getLsbD_eq
  intro i hi
  have h1 : ¬ 8 + i < 8 := by omega
  have h2 : 8 + i - 8 = i := by omega
  simp only [bOf, opWord, BitVec.getLsbD_extractLsb', hi, decide_true, Bool.true_and, BitVec.getLsbD_append,
    h1, if_false, h2, if_true]

@[simp] theorem nOf_opWord (opc b : Byte) (n : BitVec 16) : nOf (opWord opc b n) = n := by
  apply BitVec.eq_of_getLsbD_eq
  intro i hi
  have h1 : ¬ 16 + i < 8 := by omega
  have h2 : ¬ 16 + i - 8 < 8 := by omega
  have h3 : 16 + i - 8 - 8 = i := by omega
  simp only [nOf, opWord, BitVec.getLsbD_extractLsb', hi, decide_true, Bool.true_and, BitVec.getLsbD_append,
    h1, if_false, h2, h3]

/-- An operation word is its three fields. -/
theorem opWord_fields (w : Word) : opWord (opcOf w) (bOf w) (nOf w) = w := by
  apply BitVec.eq_of_getLsbD_eq
  intro i hi
  simp only [opWord, opcOf, bOf, nOf, BitVec.getLsbD_append, BitVec.getLsbD_extractLsb']
  rcases Nat.lt_or_ge i 8 with h | h
  · simp [h]
  · rcases Nat.lt_or_ge i 16 with h' | h'
    · have h2 : i - 8 < 8 := by omega
      have h3 : 8 + (i - 8) = i := by omega
      simp [Nat.not_lt.2 h, h2, h3]
    · have h2 : ¬ i - 8 < 8 := by omega
      have h3 : i - 8 - 8 < 16 := by omega
      have h4 : 16 + (i - 8 - 8) = i := by omega
      simp [Nat.not_lt.2 h, h2, h3, h4]

theorem requireZero_ok {z : Bool} {i j : Instr} (h : requireZero z i = .ok j) : z = true ∧ i = j := by
  unfold requireZero at h
  split at h
  · next hz => exact ⟨hz, by injection h⟩
  · cases h

/-- What an operation word decodes to is encoded as an operation word: no wire row is reached through OP (R65). -/
theorem decodeOp_encode {w : Word} {i : Instr} (h : decodeOp w = .ok i) : ∃ w', encode i = .op w' := by
  unfold decodeOp at h
  simp only at h
  split at h <;> first
    | (obtain ⟨-, rfl⟩ := requireZero_ok h; exact ⟨_, rfl⟩)
    | (injection h with h; subst h; exact ⟨_, rfl⟩)
    | cases h

end Sys2Proof
end

