-- ==== Sys2Proof/Laws/Device.lean ====
section
/-! SUPPORT. The peer contract of the image blocks (44_wire_commands.md R143, R153): what the device sends for a transfer
without a resend is the image's blocks, and it answers the `X` frame under either XFER_BEGIN_ACK. -/

namespace Sys2Proof.Machine

open Sys2Proof

@[simp] theorem wireBlock_length (d : List Byte) : (wireBlock d).length = d.length + 1 := by simp [wireBlock]

theorem blkChecksum_wireBlock (d : List Byte) : blkChecksum (wireBlock d) = 0#8 := by
  simp [wireBlock, blkChecksum_append]

theorem blockStream_cons (d : List Byte) (ds : List (List Byte)) : blockStream (d :: ds) = wireBlock d ++ blockStream ds := by
  simp [blockStream]

/-- With `K` after each block, the device sends the blocks in order, each once (R153). -/
theorem blocksFor_accepted (blocks : List (List Byte)) (n : Nat) (h : blocks.length ≤ n + 1) :
    blocksFor blocks (List.replicate n sigOk) = blockStream blocks := by
  induction n generalizing blocks with
  | zero =>
    match blocks, h with
    | [], _ => rfl
    | [d], _ => simp [blocksFor, blockStream]
  | succ n ih =>
    match blocks, h with
    | [], _ => rfl
    | d :: ds, h =>
      simp only [List.replicate_succ, blocksFor, if_true, blockStream_cons]
      rw [ih ds (by simpa using h)]

theorem isBlockStream_blockStream {bb : Nat} {blocks : List (List Byte)} (h : ∀ d ∈ blocks, d.length = bb) (fuel : Nat)
    (hf : blocks.length ≤ fuel) : isBlockStream bb fuel (blockStream blocks) = true := by
  induction blocks generalizing fuel with
  | nil => cases fuel <;> simp [isBlockStream, blockStream]
  | cons d ds ih =>
    obtain ⟨m, rfl⟩ : ∃ m, fuel = m + 1 := ⟨fuel - 1, by simp at hf; omega⟩
    have hd : (wireBlock d).length = bb + 1 := by simp [h d (by simp)]
    have ih := ih (fun x hx => h x (by simp [hx])) m (by simpa using hf)
    rw [blockStream_cons, isBlockStream, List.take_left' hd, List.drop_left' hd, ih]
    simp [blkChecksum_wireBlock, hd]

theorem blockStream_length (blocks : List (List Byte)) : blocks.length ≤ (blockStream blocks).length := by
  induction blocks with
  | nil => simp
  | cons d ds ih => rw [blockStream_cons]; simp; omega

/-- A device that sends the begin echo its parameter says and the image's blocks answers the `X` frame (R143). -/
theorem answers_image (ack : XferBeginAck) {bb : Nat} {blocks : List (List Byte)} (h : ∀ d ∈ blocks, d.length = bb) :
    answers ack bb .blocks [0x58#8] (beginEcho ack ++ blockStream blocks) = true := by
  have := isBlockStream_blockStream h _ (blockStream_length blocks)
  cases ack <;> simpa [answers, beginEcho, afterEcho] using this

end Sys2Proof.Machine
end

