-- ==== Sys2Proof/Laws/Read.lean ====
section
/-! SUPPORT. What the bounded read does (41_transport.md R94, R95, R99): one inversion lemma for its consuming loop,
the loop's value in each way it can stop, and the same for RxRead. -/

namespace Sys2Proof.Machine

open Sys2Proof

/-! ### The consuming loop -/

theorem rxScan_room_zero (term : Option Byte) (budget : Option Nat) (q : List Byte) :
    rxScan term (some 0) budget q = ⟨[], q, .limit⟩ := by cases q <;> simp [rxScan]

theorem rxScan_nil (term : Option Byte) {room : Option Nat} (budget : Option Nat) (h : room ≠ some 0) :
    rxScan term room budget [] = ⟨[], [], .dry⟩ := by
  match room, h with
  | none, _ => simp [rxScan]
  | some (n + 1), _ => simp [rxScan]

theorem rxScan_spent (term : Option Byte) {room : Option Nat} (b : Byte) (q : List Byte) (h : room ≠ some 0) :
    rxScan term room (some 0) (b :: q) = ⟨[], b :: q, .dry⟩ := by
  match room, h with
  | none, _ => simp [rxScan]
  | some (n + 1), _ => simp [rxScan]

theorem rxScan_cons (term : Option Byte) {room budget : Option Nat} (b : Byte) (q : List Byte)
    (hr : room ≠ some 0) (hb : budget ≠ some 0) :
    rxScan term room budget (b :: q) =
      if term = some b then ⟨[], q, .term⟩
      else
        ⟨b :: (rxScan term (room.map (· - 1)) (budget.map (· - 1)) q).taken,
          (rxScan term (room.map (· - 1)) (budget.map (· - 1)) q).rest,
          (rxScan term (room.map (· - 1)) (budget.map (· - 1)) q).stop⟩ := by
  match room, hr, budget, hb with
  | none, _, none, _ => simp [rxScan]
  | none, _, some (k + 1), _ => simp [rxScan]
  | some (n + 1), _, none, _ => simp [rxScan]
  | some (n + 1), _, some (k + 1), _ => simp [rxScan]

/-- Everything the consuming loop can do (R94, R99): RXQ is what it took, then the terminator if it saw one, then
what it left; it took no terminator; it stayed within the limit and within the budget; and why it stopped is true. -/
structure ScanSpec (term : Option Byte) (room budget : Option Nat) (q : List Byte) (sc : Scan) : Prop where
  split : q = sc.taken ++ ((if sc.stop = .term then term.toList else []) ++ sc.rest)
  noTerm : ∀ b ∈ sc.taken, term ≠ some b
  within : ∀ n, room = some n → sc.taken.length ≤ n
  budgeted : ∀ k, budget = some k → sc.taken.length + (if sc.stop = .term then 1 else 0) ≤ k
  limitStop : sc.stop = .limit → room = some sc.taken.length
  termStop : sc.stop = .term → term.isSome = true ∧ room ≠ some sc.taken.length
  dryStop : sc.stop = .dry → room ≠ some sc.taken.length ∧ (sc.rest = [] ∨ budget = some sc.taken.length)

theorem rxScan_spec (term : Option Byte) (room budget : Option Nat) (q : List Byte) :
    ScanSpec term room budget q (rxScan term room budget q) := by
  induction q generalizing room budget with
  | nil =>
    by_cases hr : room = some 0
    · subst hr; rw [rxScan_room_zero]
      constructor <;> simp
    · rw [rxScan_nil term budget hr]
      constructor <;> simp [hr]
  | cons b q ih =>
    by_cases hr : room = some 0
    · subst hr; rw [rxScan_room_zero]
      constructor <;> simp
    · by_cases hb : budget = some 0
      · subst hb; rw [rxScan_spent term b q hr]
        constructor <;> simp [hr]
      · rw [rxScan_cons term b q hr hb]
        by_cases ht : term = some b
        · subst ht
          simp only [if_true]
          constructor <;> try simp [hr]
          intro k hk; subst hk; simp at hb; omega
        · simp only [ht, if_false]
          have h := ih (room.map (· - 1)) (budget.map (· - 1))
          generalize rxScan term (room.map (· - 1)) (budget.map (· - 1)) q = sc at h
          obtain ⟨taken, rest, stop⟩ := sc
          have shift : ∀ {r : Option Nat}, r ≠ some 0 → ∀ m, r.map (· - 1) = some m ↔ r = some (m + 1) := by
            intro r hr m
            cases r with
            | none => simp
            | some n => simp at hr ⊢; omega
          constructor
          · simpa using h.split
          · intro c hc; rcases List.mem_cons.1 hc with rfl | hc
            · exact ht
            · exact h.noTerm c hc
          · intro n hn; subst hn
            have := h.within (n - 1) rfl
            simp at hr this ⊢; omega
          · intro k hk; subst hk
            have := h.budgeted (k - 1) rfl
            simp only [Option.some.injEq] at hb
            dsimp only [List.length_cons] at this ⊢; omega
          · intro hs
            have := h.limitStop hs
            exact (shift hr _).1 this
          · intro hs
            obtain ⟨h1, h2⟩ := h.termStop hs
            exact ⟨h1, fun hc => h2 ((shift hr _).2 hc)⟩
          · intro hs
            obtain ⟨h1, h2⟩ := h.dryStop hs
            exact ⟨fun hc => h1 ((shift hr _).2 hc), h2.imp id fun hc => (shift hb _).1 hc⟩

/-- Enough bytes and no terminator among them: the limit stops the read (R94). -/
theorem rxScan_full {term : Option Byte} {n : Nat} {budget : Option Nat} {q : List Byte}
    (hq : n ≤ q.length) (hb : ∀ k, budget = some k → n ≤ k) (ht : ∀ b ∈ q.take n, term ≠ some b) :
    rxScan term (some n) budget q = ⟨q.take n, q.drop n, .limit⟩ := by
  induction n generalizing budget q with
  | zero => simp [rxScan_room_zero]
  | succ n ih =>
    cases q with
    | nil => simp at hq
    | cons b q =>
      have hb0 : budget ≠ some 0 := fun h => by have := hb 0 h; omega
      rw [rxScan_cons term b q (by simp) hb0, if_neg (ht b (by simp))]
      have := ih (budget := budget.map (· - 1)) (q := q) (by simpa using hq)
        (by intro k hk; cases budget with
            | none => simp at hk
            | some m => simp at hk; have := hb m rfl; omega)
        (fun c hc => ht c (by simp [hc]))
      simp only [Option.map_some, Nat.add_sub_cancel]
      rw [this]; simp

/-- Too few bytes and no terminator among them: the read takes them all and goes dry (R94). -/
theorem rxScan_dry {term : Option Byte} {room budget : Option Nat} {q : List Byte}
    (hr : ∀ n, room = some n → q.length < n) (hb : ∀ k, budget = some k → q.length ≤ k)
    (ht : ∀ b ∈ q, term ≠ some b) : rxScan term room budget q = ⟨q, [], .dry⟩ := by
  induction q generalizing room budget with
  | nil => exact rxScan_nil term budget fun h => by have := hr 0 h; simp at this
  | cons b q ih =>
    have hr0 : room ≠ some 0 := fun h => by have := hr 0 h; omega
    have hb0 : budget ≠ some 0 := fun h => by have := hb 0 h; simp at this
    rw [rxScan_cons term b q hr0 hb0, if_neg (ht b (by simp))]
    rw [ih (room := room.map (· - 1)) (budget := budget.map (· - 1))
      (by intro n hn; cases room with
          | none => simp at hn
          | some m => simp at hn; have := hr m rfl; simp at this; omega)
      (by intro k hk; cases budget with
          | none => simp at hk
          | some m => simp at hk; have := hb m rfl; simp at this; omega)
      (fun c hc => ht c (by simp [hc]))]

/-- The terminator after `pre`, before the limit and within the budget: it is consumed and not taken (R94). -/
theorem rxScan_term {t : Byte} {room budget : Option Nat} {pre post : List Byte}
    (hr : ∀ n, room = some n → pre.length < n) (hb : ∀ k, budget = some k → pre.length < k) (ht : t ∉ pre) :
    rxScan (some t) room budget (pre ++ t :: post) = ⟨pre, post, .term⟩ := by
  induction pre generalizing room budget with
  | nil =>
    have hr0 : room ≠ some 0 := fun h => by have := hr 0 h; simp at this
    have hb0 : budget ≠ some 0 := fun h => by have := hb 0 h; simp at this
    simp [rxScan_cons (some t) t post hr0 hb0]
  | cons b pre ih =>
    have hr0 : room ≠ some 0 := fun h => by have := hr 0 h; omega
    have hb0 : budget ≠ some 0 := fun h => by have := hb 0 h; omega
    have hne : ¬ some t = some b := fun h => ht (by simp [Option.some.inj h])
    rw [List.cons_append, rxScan_cons (some t) b _ hr0 hb0, if_neg hne]
    rw [ih (room := room.map (· - 1)) (budget := budget.map (· - 1))
      (by intro n hn; cases room with
          | none => simp at hn
          | some m => simp at hn; have := hr m rfl; simp at this; omega)
      (by intro k hk; cases budget with
          | none => simp at hk
          | some m => simp at hk; have := hb m rfl; simp at this; omega)
      (fun hc => ht (by simp [hc]))]

/-- The loop with a budget `k`, below its limit, takes what the budget admits (R94, R95). -/
theorem rxScan_expired {term : Option Byte} {room : Option Nat} {k : Nat} {q : List Byte}
    (hr : ∀ n, room = some n → (q.take k).length < n) (ht : ∀ b ∈ q.take k, term ≠ some b) :
    rxScan term room (some k) q = ⟨q.take k, q.drop k, .dry⟩ := by
  induction q generalizing room k with
  | nil => simp [rxScan_nil term (some k) fun h => by have := hr 0 h; simp at this]
  | cons b q ih =>
    have hr0 : room ≠ some 0 := fun h => by have := hr 0 h; omega
    cases k with
    | zero => simp [rxScan_spent term b q hr0]
    | succ k =>
      rw [rxScan_cons term b q hr0 (by simp), if_neg (ht b (by simp))]
      simp only [Option.map_some, Nat.add_sub_cancel]
      rw [ih (room := room.map (· - 1))
        (by intro n hn; cases room with
            | none => simp at hn
            | some m => simp at hn; have := hr m rfl; simp at this ⊢; omega)
        (fun c hc => ht c (by simp [hc]))]
      simp

/-! ### RxRead -/

/-- Everything RxRead can do from a read context: it returns, with RXQ what its loop left, or it waits. -/
theorem rxContinue_cases (op : Word) (o : Operands) (r : ReadCtx) (s : State) :
    ∃ sc, sc = rxScan r.term (r.limit.map (· - r.got.length)) r.budget s.rxq ∧
      ((sc.stop = .limit ∧
          rxContinue op o r s = .returned (r.got ++ sc.taken) false r.term.isSome { s with rxq := sc.rest }) ∨
        (sc.stop = .term ∧
          rxContinue op o r s = .returned (r.got ++ sc.taken) true false { s with rxq := sc.rest }) ∨
        (sc.stop = .dry ∧ r.budget.isSome = true ∧
          rxContinue op o r s = .returned (r.got ++ sc.taken) false false { s with rxq := sc.rest }) ∨
        (sc.stop = .dry ∧ r.budget = none ∧
          rxContinue op o r s = .waiting { s with
            rxq := sc.rest, seq := .run op o (.waitRx { r with got := r.got ++ sc.taken }) })) := by
  refine ⟨_, rfl, ?_⟩
  unfold rxContinue
  generalize rxScan r.term (r.limit.map (· - r.got.length)) r.budget s.rxq = sc
  obtain ⟨taken, rest, stop⟩ := sc
  cases stop with
  | limit => exact .inl ⟨rfl, rfl⟩
  | term => exact .inr (.inl ⟨rfl, rfl⟩)
  | dry =>
    cases hb : r.budget with
    | none => exact .inr (.inr (.inr ⟨rfl, rfl, by simp⟩))
    | some k => exact .inr (.inr (.inl ⟨rfl, rfl, by simp⟩))

/-- A read context that reaches its limit returns, with the limit's flag when it has a terminator (R94). -/
theorem rxContinue_full {op : Word} {o : Operands} {r : ReadCtx} {s : State} {m n : Nat} (hl : r.limit = some n)
    (hm : r.got.length + m = n) (hq : m ≤ s.rxq.length) (hb : ∀ k, r.budget = some k → m ≤ k)
    (ht : ∀ b ∈ s.rxq.take m, r.term ≠ some b) :
    rxContinue op o r s = .returned (r.got ++ s.rxq.take m) false r.term.isSome { s with rxq := s.rxq.drop m } := by
  have hm' : n - r.got.length = m := by omega
  simp [rxContinue, hl, hm', rxScan_full hq hb ht]

/-- A read context that meets its terminator before its limit, within its budget, consumes it and returns (R94). -/
theorem rxContinue_term {op : Word} {o : Operands} {r : ReadCtx} {s : State} {b : Byte} {pre post : List Byte}
    (ht : r.term = some b) (hs : s.rxq = pre ++ b :: post) (hb : b ∉ pre)
    (hl : ∀ n, r.limit = some n → r.got.length + pre.length < n) (hk : ∀ k, r.budget = some k → pre.length < k) :
    rxContinue op o r s = .returned (r.got ++ pre) true false { s with rxq := post } := by
  have : rxScan (some b) (r.limit.map (· - r.got.length)) r.budget (pre ++ b :: post) = ⟨pre, post, .term⟩ :=
    rxScan_term (by intro n hn; cases h : r.limit <;> simp [h] at hn; have := hl _ h; omega) hk hb
  simp [rxContinue, ht, hs, this]

/-- An expired read context below its limit returns what its budget admits, with no flag (R94, R95). -/
theorem rxContinue_expired {op : Word} {o : Operands} {r : ReadCtx} {s : State} {k : Nat} (hb : r.budget = some k)
    (hl : ∀ n, r.limit = some n → r.got.length + (s.rxq.take k).length < n) (ht : ∀ b ∈ s.rxq.take k, r.term ≠ some b) :
    rxContinue op o r s = .returned (r.got ++ s.rxq.take k) false false { s with rxq := s.rxq.drop k } := by
  have : rxScan r.term (r.limit.map (· - r.got.length)) (some k) s.rxq = ⟨s.rxq.take k, s.rxq.drop k, .dry⟩ :=
    rxScan_expired (by intro n hn; cases h : r.limit <;> simp [h] at hn; have := hl _ h; omega) ht
  simp [rxContinue, hb, this]

/-- A read context before its deadline, with too few bytes, takes them and goes on waiting (R94). -/
theorem rxContinue_waits {op : Word} {o : Operands} {r : ReadCtx} {s : State} (hb : r.budget = none)
    (hl : ∀ n, r.limit = some n → r.got.length + s.rxq.length < n) (ht : ∀ b ∈ s.rxq, r.term ≠ some b) :
    rxContinue op o r s = .waiting
      { s with rxq := [], seq := .run op o (.waitRx { r with got := r.got ++ s.rxq }) } := by
  have : rxScan r.term (r.limit.map (· - r.got.length)) none s.rxq = ⟨s.rxq, [], .dry⟩ :=
    rxScan_dry (by intro n hn; cases h : r.limit <;> simp [h] at hn; have := hl _ h; omega) (by simp) ht
  simp [rxContinue, hb, this]

/-- The budget a read of timeout `t` starts with (R94). -/
def startBudget (t : Nat) (s : State) : Option Nat := if t = 0 then some s.rxq.length else none

/-- A read that finds its `n` bytes queued returns them at once, whatever its timeout (R94). -/
theorem rxRead_full {op : Word} {o : Operands} {n t : Nat} {term : Option Byte} {kont : Kont} {s : State}
    (hq : n ≤ s.rxq.length) (ht : ∀ b ∈ s.rxq.take n, term ≠ some b) :
    rxRead op o (some n) t term kont s
      = .returned (s.rxq.take n) false term.isSome { s with rxq := s.rxq.drop n } := by
  have hb : ∀ k, (if t = 0 then some s.rxq.length else none) = some k → n ≤ k := by
    intro k hk; split at hk <;> simp at hk; omega
  simp [rxRead, rxContinue, rxScan_full hq hb ht]

/-- A read of timeout 0 that finds too few bytes returns what is queued (R94). -/
theorem rxRead_short {op : Word} {o : Operands} {limit : Option Nat} {term : Option Byte} {kont : Kont} {s : State}
    (hq : ∀ n, limit = some n → s.rxq.length < n) (ht : ∀ b ∈ s.rxq, term ≠ some b) :
    rxRead op o limit 0 term kont s = .returned s.rxq false false { s with rxq := [] } := by
  have : rxScan term (limit.map (· - 0)) (some s.rxq.length) s.rxq = ⟨s.rxq, [], .dry⟩ :=
    rxScan_dry (by intro n hn; cases limit <;> simp at hn; subst hn; exact hq _ rfl) (by simp) ht
  simp [rxRead, rxContinue] at this ⊢
  simp [this]

/-- A read that finds the terminator returns what stands before it (R94). -/
theorem rxRead_term {op : Word} {o : Operands} {limit : Option Nat} {t : Nat} {b : Byte} {kont : Kont} {s : State}
    {pre post : List Byte} (hs : s.rxq = pre ++ b :: post) (hl : ∀ n, limit = some n → pre.length < n)
    (hb : b ∉ pre) :
    rxRead op o limit t (some b) kont s = .returned pre true false { s with rxq := post } := by
  have hk : ∀ k, (if t = 0 then some s.rxq.length else none) = some k → pre.length < k := by
    intro k hk; split at hk <;> simp at hk; simp [← hk, hs]
  have : rxScan (some b) (limit.map (· - 0)) (if t = 0 then some s.rxq.length else none) s.rxq
      = ⟨pre, post, .term⟩ := by
    conv => lhs; rw [hs]
    exact rxScan_term (by intro n hn; cases limit <;> simp at hn; subst hn; exact hl _ rfl)
      (by rw [hs] at hk; exact hk) hb
  simp [rxRead, rxContinue] at this ⊢
  simp [this]

/-- A read of nonzero timeout that finds too few bytes takes them and waits (R94). -/
theorem rxRead_waits {op : Word} {o : Operands} {limit : Option Nat} {t : Nat} {term : Option Byte} {kont : Kont}
    {s : State} (ht0 : t ≠ 0) (hq : ∀ n, limit = some n → s.rxq.length < n) (ht : ∀ b ∈ s.rxq, term ≠ some b) :
    rxRead op o limit t term kont s = .waiting { s with
      rxq := [],
      seq := .run op o (.waitRx { got := s.rxq, limit := limit, term := term, budget := none, timeout := t,
                                  kont := kont }) } := by
  have : rxScan term (limit.map (· - 0)) none s.rxq = ⟨s.rxq, [], .dry⟩ :=
    rxScan_dry (by intro n hn; cases limit <;> simp at hn; subst hn; exact hq _ rfl) (by simp) ht
  simp [rxRead, rxContinue, ht0] at this ⊢
  simp [this]

/-- The shape of whatever RxRead does from a read context (R94): only RXQ changes, and SEQ when it waits; the bytes got
stay within the limit, below it when it waits. -/
theorem rxContinue_shape (op : Word) (o : Operands) (r : ReadCtx) (s : State) :
    (∃ got seen limit q, rxContinue op o r s = .returned got seen limit { s with rxq := q }
        ∧ (∀ n, r.limit = some n → r.got.length ≤ n → got.length ≤ n) ∧ q.length ≤ s.rxq.length)
      ∨ ∃ got, rxContinue op o r s
            = .waiting { s with rxq := [], seq := .run op o (.waitRx { r with got := got }) }
          ∧ r.budget = none ∧ ∀ n, r.limit = some n → got.length < n := by
  obtain ⟨sc, hsc, hc⟩ := rxContinue_cases op o r s
  have sp := rxScan_spec r.term (r.limit.map (· - r.got.length)) r.budget s.rxq
  rw [← hsc] at sp
  have hw : ∀ n, r.limit = some n → r.got.length ≤ n → (r.got ++ sc.taken).length ≤ n := by
    intro n hn hg
    have := sp.within (n - r.got.length) (by simp [hn])
    simp only [List.length_append]; omega
  have hq : sc.rest.length ≤ s.rxq.length := by rw [sp.split]; simp only [List.length_append]; omega
  rcases hc with ⟨hs, hc⟩ | ⟨hs, hc⟩ | ⟨hs, hb, hc⟩ | ⟨hs, hb, hc⟩
  · exact .inl ⟨_, _, _, _, hc, hw, hq⟩
  · exact .inl ⟨_, _, _, _, hc, hw, hq⟩
  · exact .inl ⟨_, _, _, _, hc, hw, hq⟩
  · obtain ⟨d1, d2⟩ := sp.dryStop hs
    have hr : sc.rest = [] := by simpa [hb] using d2
    refine .inr ⟨r.got ++ sc.taken, by rw [hc, hr], hb, ?_⟩
    intro n hn
    have w := sp.within (n - r.got.length) (by simp [hn])
    simp [hn] at d1
    simp only [List.length_append]; omega

/-- The shape of whatever RxRead does from its start (R94). -/
theorem rxRead_shape (op : Word) (o : Operands) (limit : Option Nat) (t : Nat) (term : Option Byte) (kont : Kont)
    (s : State) :
    (∃ got seen lim q, rxRead op o limit t term kont s = .returned got seen lim { s with rxq := q }
        ∧ (∀ n, limit = some n → got.length ≤ n) ∧ q.length ≤ s.rxq.length)
      ∨ ∃ got, rxRead op o limit t term kont s
            = .waiting { s with rxq := [], seq := .run op o (.waitRx ⟨got, limit, term, none, t, kont⟩) }
          ∧ ∀ n, limit = some n → got.length < n := by
  unfold rxRead
  rcases rxContinue_shape op o ⟨[], limit, term, if t = 0 then some s.rxq.length else none, t, kont⟩ s with
    ⟨g, se, l, q, h1, h2, h3⟩ | ⟨g, h1, h2, h3⟩
  · exact .inl ⟨g, se, l, q, h1, fun n hn => h2 n hn (by simp), h3⟩
  · refine .inr ⟨g, ?_, h3⟩
    simp only at h2
    rw [h1]; simp [h2]

/-- A read does not look at SEQ (R94). -/
theorem rxRead_seq (op : Word) (o : Operands) (limit : Option Nat) (t : Nat) (term : Option Byte) (kont : Kont) (s : State)
    (q : Seq) : rxRead op o limit t term kont { s with seq := q } =
      match rxRead op o limit t term kont s with
      | .returned got seen lim u => .returned got seen lim { u with seq := q }
      | .waiting u => .waiting u := by
  simp only [rxRead, rxContinue]
  split
  · rfl
  · rfl
  · split <;> rfl

@[simp] theorem andThen_returned (got : List Byte) (seen limit : Bool) (s : State)
    (f : List Byte → Bool → Bool → State → State) :
    (ReadOutcome.returned got seen limit s).andThen f = f got seen limit s := rfl
@[simp] theorem andThen_waiting (s : State) (f : List Byte → Bool → Bool → State → State) :
    (ReadOutcome.waiting s).andThen f = s := rfl

end Sys2Proof.Machine
end

