-- ==== Sys2Proof/Laws/Transfer.lean ====
section
/-! SUPPORT. The transfer engine's loops (43_image_transfer.md R114 to R127): what judging an attempt comes to, one
induction rule for the attempts of a block and one for the blocks, and what the loops leave alone. -/

namespace Sys2Proof.Machine

open Sys2Proof

/-- Everything a read without terminator can do from its start (R94): it returns a prefix of RXQ, as long as the limit
or all of it, or it takes all of RXQ and waits. -/
theorem rxRead_cases (op : Word) (o : Operands) (limit : Option Nat) (t : Nat) (kont : Kont) (s : State) :
    (∃ d rest, s.rxq = d ++ rest ∧ (∀ n, limit = some n → d.length ≤ n) ∧ (rest = [] ∨ limit = some d.length)
        ∧ rxRead op o limit t none kont s = .returned d false false { s with rxq := rest })
      ∨ (t ≠ 0 ∧ (∀ n, limit = some n → s.rxq.length < n)
        ∧ rxRead op o limit t none kont s = .waiting { s with
            rxq := [],
            seq := .run op o (.waitRx { got := s.rxq, limit := limit, term := none, budget := none, timeout := t,
                                        kont := kont }) }) := by
  by_cases hq : ∀ n, limit = some n → s.rxq.length < n
  · by_cases ht : t = 0
    · subst ht
      exact .inl ⟨s.rxq, [], by simp, fun n hn => Nat.le_of_lt (hq n hn), .inl rfl, rxRead_short hq (by simp)⟩
    · exact .inr ⟨ht, hq, rxRead_waits ht hq (by simp)⟩
  · cases limit with
    | none => simp at hq
    | some n =>
      have hn : n ≤ s.rxq.length := by simpa using hq
      have hl : (s.rxq.take n).length = n := by simp [hn]
      refine .inl ⟨s.rxq.take n, s.rxq.drop n, by simp, ?_, .inr (by rw [hl]), rxRead_full hn (by simp)⟩
      intro m hm; cases hm; rw [hl]

/-! ### Judging an attempt -/

/-- Everything judging an attempt can come to (R120 to R124): a short read fails with TIMEOUT; a full one is accepted,
or fails with CHECKSUM. It never waits. -/
theorem judgeAttempt_cases (o : Operands) (k : Nat) (d : List Byte) (s : State) :
    (d.length < o.blockBytes + 1 ∧ judgeAttempt o k d s = .failed .timeout (putBlkbuf d s))
      ∨ (o.blockBytes + 1 ≤ d.length
        ∧ (o.chkDis = true ∨ d[o.blockBytes]? = some (blkChecksum (d.take o.blockBytes)))
        ∧ ∃ x, judgeAttempt o k d s = .accepted (acceptBlock o k (d.take o.blockBytes) (putBacc x (putBlkbuf d s))))
      ∨ (o.blockBytes + 1 ≤ d.length ∧ o.chkDis = false
        ∧ d[o.blockBytes]? ≠ some (blkChecksum (d.take o.blockBytes))
        ∧ ∃ x, judgeAttempt o k d s = .failed .checksum (signalMismatch (putBacc x (putBlkbuf d s)))) := by
  simp only [judgeAttempt]
  by_cases hl : d.length < o.blockBytes + 1
  · exact .inl ⟨hl, if_pos hl⟩
  · rw [if_neg hl]
    cases hc : o.chkDis with
    | true => exact .inr (.inl ⟨Nat.not_lt.1 hl, .inl rfl, s.bacc, rfl⟩)
    | false =>
      by_cases hv : d[o.blockBytes]? = some (blkChecksum (d.take o.blockBytes))
      · exact .inr (.inl ⟨Nat.not_lt.1 hl, .inr hv, _, by rw [if_neg (by simp), if_pos hv]⟩)
      · exact .inr (.inr ⟨Nat.not_lt.1 hl, rfl, hv, _, by rw [if_neg (by simp), if_neg hv]⟩)

/-- The block after one attempt's bytes `d` have been read and `rest` left: attempt `i` of the state `s`. -/
def afterAttemptRead (i : Nat) (rest : List Byte) (s : State) : State := { startAttempt i s with rxq := rest }

@[simp] theorem startAttempt_cfg (i : Nat) (s : State) : (startAttempt i s).cfg = s.cfg := by
  unfold startAttempt; split <;> rfl
@[simp] theorem startAttempt_rxq (i : Nat) (s : State) : (startAttempt i s).rxq = s.rxq := by
  unfold startAttempt; split <;> rfl

@[simp] theorem startAttempt_inputs (i : Nat) (s : State) : (startAttempt i s).inputs = s.inputs := by
  unfold startAttempt; split <;> rfl
@[simp] theorem startAttempt_bus (i : Nat) (s : State) : (startAttempt i s).bus = s.bus := by
  unfold startAttempt; split <;> rfl
@[simp] theorem startAttempt_exposing (i : Nat) (s : State) : (startAttempt i s).exposing = s.exposing := by
  unfold startAttempt; split <;> rfl
@[simp] theorem startAttempt_cacc (i : Nat) (s : State) : (startAttempt i s).cacc = s.cacc := by
  unfold startAttempt; split <;> rfl
@[simp] theorem startAttempt_bacc (i : Nat) (s : State) : (startAttempt i s).bacc = s.bacc := by
  unfold startAttempt; split <;> rfl
@[simp] theorem startAttempt_seq (i : Nat) (s : State) : (startAttempt i s).seq = s.seq := by
  unfold startAttempt; split <;> rfl
@[simp] theorem startAttempt_chkDis (i : Nat) (s : State) : (startAttempt i s).chkDis = s.chkDis := by
  unfold startAttempt; split <;> rfl
@[simp] theorem startAttempt_status (i : Nat) (s : State) : (startAttempt i s).status = s.status := by
  unfold startAttempt; split <;> rfl
@[simp] theorem startAttempt_timeout (i : Nat) (s : State) : (startAttempt i s).timeout = s.timeout := by
  unfold startAttempt; split <;> rfl
@[simp] theorem startAttempt_baud (i : Nat) (s : State) : (startAttempt i s).baud = s.baud := by
  unfold startAttempt; split <;> rfl
@[simp] theorem startAttempt_result (i : Nat) (s : State) : (startAttempt i s).result = s.result := by
  unfold startAttempt; split <;> rfl
@[simp] theorem startAttempt_rxlen (i : Nat) (s : State) : (startAttempt i s).rxlen = s.rxlen := by
  unfold startAttempt; split <;> rfl
@[simp] theorem startAttempt_xferCfg (i : Nat) (s : State) : (startAttempt i s).xferCfg = s.xferCfg := by
  unfold startAttempt; split <;> rfl
@[simp] theorem startAttempt_imgDim (i : Nat) (s : State) : (startAttempt i s).imgDim = s.imgDim := by
  unfold startAttempt; split <;> rfl
@[simp] theorem startAttempt_blkTotal (i : Nat) (s : State) : (startAttempt i s).blkTotal = s.blkTotal := by
  unfold startAttempt; split <;> rfl
@[simp] theorem startAttempt_blkRcvd (i : Nat) (s : State) : (startAttempt i s).blkRcvd = s.blkRcvd := by
  unfold startAttempt; split <;> rfl
@[simp] theorem startAttempt_progress (i : Nat) (s : State) : (startAttempt i s).progress = s.progress := by
  unfold startAttempt; split <;> rfl
@[simp] theorem startAttempt_imglen (i : Nat) (s : State) : (startAttempt i s).imglen = s.imglen := by
  unfold startAttempt; split <;> rfl
@[simp] theorem startAttempt_txbuf (i : Nat) (s : State) : (startAttempt i s).txbuf = s.txbuf := by
  unfold startAttempt; split <;> rfl
@[simp] theorem startAttempt_rxbuf (i : Nat) (s : State) : (startAttempt i s).rxbuf = s.rxbuf := by
  unfold startAttempt; split <;> rfl
@[simp] theorem startAttempt_imgbuf (i : Nat) (s : State) : (startAttempt i s).imgbuf = s.imgbuf := by
  unfold startAttempt; split <;> rfl
@[simp] theorem startAttempt_blkbuf (i : Nat) (s : State) : (startAttempt i s).blkbuf = s.blkbuf := by
  unfold startAttempt; split <;> rfl
@[simp] theorem startAttempt_tryNo (i : Nat) (s : State) :
    (startAttempt i s).tryNo = BitVec.ofNat 8 (i + 1) := by unfold startAttempt; split <;> rfl
@[simp] theorem afterAttemptRead_cfg (i : Nat) (q : List Byte) (s : State) :
    (afterAttemptRead i q s).cfg = s.cfg := startAttempt_cfg i s
@[simp] theorem afterAttemptRead_inputs (i : Nat) (q : List Byte) (s : State) :
    (afterAttemptRead i q s).inputs = s.inputs := startAttempt_inputs i s
@[simp] theorem afterAttemptRead_bus (i : Nat) (q : List Byte) (s : State) :
    (afterAttemptRead i q s).bus = s.bus := startAttempt_bus i s
@[simp] theorem afterAttemptRead_exposing (i : Nat) (q : List Byte) (s : State) :
    (afterAttemptRead i q s).exposing = s.exposing := startAttempt_exposing i s
@[simp] theorem afterAttemptRead_cacc (i : Nat) (q : List Byte) (s : State) :
    (afterAttemptRead i q s).cacc = s.cacc := startAttempt_cacc i s
@[simp] theorem afterAttemptRead_bacc (i : Nat) (q : List Byte) (s : State) :
    (afterAttemptRead i q s).bacc = s.bacc := startAttempt_bacc i s
@[simp] theorem afterAttemptRead_seq (i : Nat) (q : List Byte) (s : State) :
    (afterAttemptRead i q s).seq = s.seq := startAttempt_seq i s
@[simp] theorem afterAttemptRead_chkDis (i : Nat) (q : List Byte) (s : State) :
    (afterAttemptRead i q s).chkDis = s.chkDis := startAttempt_chkDis i s
@[simp] theorem afterAttemptRead_status (i : Nat) (q : List Byte) (s : State) :
    (afterAttemptRead i q s).status = s.status := startAttempt_status i s
@[simp] theorem afterAttemptRead_timeout (i : Nat) (q : List Byte) (s : State) :
    (afterAttemptRead i q s).timeout = s.timeout := startAttempt_timeout i s
@[simp] theorem afterAttemptRead_baud (i : Nat) (q : List Byte) (s : State) :
    (afterAttemptRead i q s).baud = s.baud := startAttempt_baud i s
@[simp] theorem afterAttemptRead_result (i : Nat) (q : List Byte) (s : State) :
    (afterAttemptRead i q s).result = s.result := startAttempt_result i s
@[simp] theorem afterAttemptRead_rxlen (i : Nat) (q : List Byte) (s : State) :
    (afterAttemptRead i q s).rxlen = s.rxlen := startAttempt_rxlen i s
@[simp] theorem afterAttemptRead_xferCfg (i : Nat) (q : List Byte) (s : State) :
    (afterAttemptRead i q s).xferCfg = s.xferCfg := startAttempt_xferCfg i s
@[simp] theorem afterAttemptRead_imgDim (i : Nat) (q : List Byte) (s : State) :
    (afterAttemptRead i q s).imgDim = s.imgDim := startAttempt_imgDim i s
@[simp] theorem afterAttemptRead_blkTotal (i : Nat) (q : List Byte) (s : State) :
    (afterAttemptRead i q s).blkTotal = s.blkTotal := startAttempt_blkTotal i s
@[simp] theorem afterAttemptRead_blkRcvd (i : Nat) (q : List Byte) (s : State) :
    (afterAttemptRead i q s).blkRcvd = s.blkRcvd := startAttempt_blkRcvd i s
@[simp] theorem afterAttemptRead_progress (i : Nat) (q : List Byte) (s : State) :
    (afterAttemptRead i q s).progress = s.progress := startAttempt_progress i s
@[simp] theorem afterAttemptRead_imglen (i : Nat) (q : List Byte) (s : State) :
    (afterAttemptRead i q s).imglen = s.imglen := startAttempt_imglen i s
@[simp] theorem afterAttemptRead_txbuf (i : Nat) (q : List Byte) (s : State) :
    (afterAttemptRead i q s).txbuf = s.txbuf := startAttempt_txbuf i s
@[simp] theorem afterAttemptRead_rxbuf (i : Nat) (q : List Byte) (s : State) :
    (afterAttemptRead i q s).rxbuf = s.rxbuf := startAttempt_rxbuf i s
@[simp] theorem afterAttemptRead_imgbuf (i : Nat) (q : List Byte) (s : State) :
    (afterAttemptRead i q s).imgbuf = s.imgbuf := startAttempt_imgbuf i s
@[simp] theorem afterAttemptRead_blkbuf (i : Nat) (q : List Byte) (s : State) :
    (afterAttemptRead i q s).blkbuf = s.blkbuf := startAttempt_blkbuf i s
@[simp] theorem afterAttemptRead_tryNo (i : Nat) (q : List Byte) (s : State) :
    (afterAttemptRead i q s).tryNo = BitVec.ofNat 8 (i + 1) := startAttempt_tryNo i s
@[simp] theorem afterAttemptRead_rxq (i : Nat) (q : List Byte) (s : State) : (afterAttemptRead i q s).rxq = q := rfl
@[simp] theorem signalMismatch_cfg (s : State) : (signalMismatch s).cfg = s.cfg := by
  unfold signalMismatch; split <;> rfl
@[simp] theorem signalMismatch_inputs (s : State) : (signalMismatch s).inputs = s.inputs := by
  unfold signalMismatch; split <;> rfl
@[simp] theorem signalMismatch_bus (s : State) : (signalMismatch s).bus = s.bus := by
  unfold signalMismatch; split <;> rfl
@[simp] theorem signalMismatch_exposing (s : State) : (signalMismatch s).exposing = s.exposing := by
  unfold signalMismatch; split <;> rfl
@[simp] theorem signalMismatch_cacc (s : State) : (signalMismatch s).cacc = s.cacc := by
  unfold signalMismatch; split <;> rfl
@[simp] theorem signalMismatch_bacc (s : State) : (signalMismatch s).bacc = s.bacc := by
  unfold signalMismatch; split <;> rfl
@[simp] theorem signalMismatch_seq (s : State) : (signalMismatch s).seq = s.seq := by
  unfold signalMismatch; split <;> rfl
@[simp] theorem signalMismatch_chkDis (s : State) : (signalMismatch s).chkDis = s.chkDis := by
  unfold signalMismatch; split <;> rfl
@[simp] theorem signalMismatch_status (s : State) : (signalMismatch s).status = s.status := by
  unfold signalMismatch; split <;> rfl
@[simp] theorem signalMismatch_timeout (s : State) : (signalMismatch s).timeout = s.timeout := by
  unfold signalMismatch; split <;> rfl
@[simp] theorem signalMismatch_baud (s : State) : (signalMismatch s).baud = s.baud := by
  unfold signalMismatch; split <;> rfl
@[simp] theorem signalMismatch_result (s : State) : (signalMismatch s).result = s.result := by
  unfold signalMismatch; split <;> rfl
@[simp] theorem signalMismatch_rxlen (s : State) : (signalMismatch s).rxlen = s.rxlen := by
  unfold signalMismatch; split <;> rfl
@[simp] theorem signalMismatch_xferCfg (s : State) : (signalMismatch s).xferCfg = s.xferCfg := by
  unfold signalMismatch; split <;> rfl
@[simp] theorem signalMismatch_imgDim (s : State) : (signalMismatch s).imgDim = s.imgDim := by
  unfold signalMismatch; split <;> rfl
@[simp] theorem signalMismatch_blkTotal (s : State) : (signalMismatch s).blkTotal = s.blkTotal := by
  unfold signalMismatch; split <;> rfl
@[simp] theorem signalMismatch_blkRcvd (s : State) : (signalMismatch s).blkRcvd = s.blkRcvd := by
  unfold signalMismatch; split <;> rfl
@[simp] theorem signalMismatch_tryNo (s : State) : (signalMismatch s).tryNo = s.tryNo := by
  unfold signalMismatch; split <;> rfl
@[simp] theorem signalMismatch_progress (s : State) : (signalMismatch s).progress = s.progress := by
  unfold signalMismatch; split <;> rfl
@[simp] theorem signalMismatch_imglen (s : State) : (signalMismatch s).imglen = s.imglen := by
  unfold signalMismatch; split <;> rfl
@[simp] theorem signalMismatch_txbuf (s : State) : (signalMismatch s).txbuf = s.txbuf := by
  unfold signalMismatch; split <;> rfl
@[simp] theorem signalMismatch_rxbuf (s : State) : (signalMismatch s).rxbuf = s.rxbuf := by
  unfold signalMismatch; split <;> rfl
@[simp] theorem signalMismatch_imgbuf (s : State) : (signalMismatch s).imgbuf = s.imgbuf := by
  unfold signalMismatch; split <;> rfl
@[simp] theorem signalMismatch_blkbuf (s : State) : (signalMismatch s).blkbuf = s.blkbuf := by
  unfold signalMismatch; split <;> rfl
@[simp] theorem signalMismatch_rxq (s : State) : (signalMismatch s).rxq = s.rxq := by
  unfold signalMismatch; split <;> rfl

/-- The induction over the attempts of block `k`. `P i` is what holds before attempt `i`; `W`, `A` and `F` are what is to
hold of a state that waits, of one that has accepted the block, and of one that has failed with a cause. -/
theorem attemptLoop_rule {P : Nat → State → Prop} {W A : State → Prop} {F : ErrCode → State → Prop} {o : Operands}
    {k : Nat}
    (hwait : ∀ i s, i < o.maxTries → P i s → o.blockReadTimeout s.cfg ≠ 0 → s.rxq.length < o.blockBytes + 1 →
      W { startAttempt i s with
          rxq := [],
          seq := .run xferWord o (.waitRx ⟨s.rxq, some (o.blockBytes + 1), none, none, o.blockReadTimeout s.cfg,
                                           .xferBlock k i⟩) })
    (hshort : ∀ i s d rest, i < o.maxTries → P i s → s.rxq = d ++ rest → d.length < o.blockBytes + 1 →
      P (i + 1) (putBlkbuf d (afterAttemptRead i rest s)) ∧ F .timeout (putBlkbuf d (afterAttemptRead i rest s)))
    (hmis : ∀ i s d rest x, i < o.maxTries → P i s → s.rxq = d ++ rest → d.length = o.blockBytes + 1 →
      o.chkDis = false → d[o.blockBytes]? ≠ some (blkChecksum (d.take o.blockBytes)) →
      P (i + 1) (signalMismatch (putBacc x (putBlkbuf d (afterAttemptRead i rest s))))
        ∧ F .checksum (signalMismatch (putBacc x (putBlkbuf d (afterAttemptRead i rest s)))))
    (hacc : ∀ i s d rest x, i < o.maxTries → P i s → s.rxq = d ++ rest → d.length = o.blockBytes + 1 →
      A (acceptBlock o k (d.take o.blockBytes) (putBacc x (putBlkbuf d (afterAttemptRead i rest s))))) :
    ∀ left i cause s, (left ≠ 0 → i + left ≤ o.maxTries) → P i s → (left = 0 → F cause s) →
      match attemptLoop o k left i cause s with
      | .waiting t => W t
      | .accepted t => A t
      | .failed c t => F c t := by
  intro left
  induction left with
  | zero => intro i cause s _ _ h; exact h rfl
  | succ left ih =>
    intro i cause s hi hp _
    replace hi := hi (by omega)
    rw [attemptLoop]
    rcases rxRead_cases xferWord o (some (o.blockBytes + 1)) (o.blockReadTimeout s.cfg) (.xferBlock k i)
        (startAttempt i s) with ⟨d, rest, hq, hn, -, hr⟩ | ⟨ht, hn, hr⟩
    · rw [startAttempt_rxq] at hq
      simp only [hr]
      have hd : d.length ≤ o.blockBytes + 1 := hn _ rfl
      rcases judgeAttempt_cases o k d { startAttempt i s with rxq := rest } with
        ⟨hl, hj⟩ | ⟨hl, -, x, hj⟩ | ⟨hl, hc, hv, x, hj⟩ <;> simp only [hj]
      · obtain ⟨h1, h2⟩ := hshort i s d rest (by omega) hp hq hl
        exact ih (i + 1) .timeout _ (by omega) h1 fun _ => h2
      · exact hacc i s d rest x (by omega) hp hq (by omega)
      · obtain ⟨h1, h2⟩ := hmis i s d rest x (by omega) hp hq (by omega) hc hv
        exact ih (i + 1) .checksum _ (by omega) h1 fun _ => h2
    · simp only [hr]
      have := hwait i s (by omega) hp ht (by simpa using hn)
      simpa using this

/-- The induction over the blocks. `P k` is what holds before block `k`; `Q` is what is to hold in the end. -/
theorem blockLoop_rule {P : Nat → State → Prop} {Q : State → Prop} {o : Operands} {total : Nat}
    (hblock : ∀ k s, k < total → P k s →
      match attemptLoop o k o.maxTries 0 .noError s with
      | .waiting t => Q t
      | .failed c t => Q (abortTransfer c t)
      | .accepted t => P (k + 1) t)
    (hdone : ∀ k s, total ≤ k → P k s → Q (succeed s)) :
    ∀ left k s, left = total - k → P k s → Q (blockLoop o left k s) := by
  intro left
  induction left with
  | zero => intro k s hk hp; exact hdone k s (by omega) hp
  | succ left ih =>
    intro k s hk hp
    have h := hblock k s (by omega) hp
    rw [blockLoop]
    revert h
    cases attemptLoop o k o.maxTries 0 .noError s with
    | waiting t => exact id
    | failed c t => exact id
    | accepted t => exact ih (k + 1) t (by omega)

/-- XFER going on after a block read: the judgement, the attempts left, then the blocks left. -/
theorem xferBlockDone_rule {P : Nat → State → Prop} {Q : State → Prop} {o : Operands} {k i : Nat} {d : List Byte}
    {s : State}
    (hacc : ∀ t, judgeAttempt o k d s = .accepted t → P (k + 1) t)
    (hfail : ∀ c t, judgeAttempt o k d s = .failed c t →
      match attemptLoop o k (o.maxTries - (i + 1)) (i + 1) c t with
      | .waiting u => Q u
      | .failed c' u => Q (abortTransfer c' u)
      | .accepted u => P (k + 1) u)
    (hblocks : ∀ t, P (k + 1) t → Q (blockLoop o (o.totalBlocks - (k + 1)) (k + 1) t)) :
    Q (xferBlockDone o k i d s) := by
  unfold xferBlockDone
  cases hj : judgeAttempt o k d s with
  | waiting t =>
    exfalso
    rcases judgeAttempt_cases o k d s with ⟨-, h⟩ | ⟨-, -, x, h⟩ | ⟨-, -, -, x, h⟩ <;> rw [h] at hj <;> cases hj
  | accepted t => exact hblocks t (hacc t hj)
  | failed c t =>
    have h := hfail c t hj
    revert h
    simp only
    cases attemptLoop o k (o.maxTries - (i + 1)) (i + 1) c t with
    | waiting u => exact id
    | failed c' u => exact id
    | accepted u => exact hblocks u

/-- A full-length attempt is accepted when its last byte is the XOR of its data, and always when unchecked (R121,
R122). -/
theorem judgeAttempt_valid {o : Operands} {k : Nat} {data : List Byte} {c : Byte} {s : State}
    (h : data.length = o.blockBytes) (hc : o.chkDis = true ∨ c = blkChecksum data) :
    ∃ x, judgeAttempt o k (data ++ [c]) s = .accepted (acceptBlock o k data (putBacc x (putBlkbuf (data ++ [c]) s))) := by
  have hn : (data ++ [c]).length = o.blockBytes + 1 := by simp [h]
  have ht : (data ++ [c]).take o.blockBytes = data := by rw [← h]; simp
  rcases judgeAttempt_cases o k (data ++ [c]) s with ⟨hl, -⟩ | ⟨-, -, x, hj⟩ | ⟨-, hf, hv, -⟩
  · omega
  · rw [ht] at hj; exact ⟨x, hj⟩
  · rcases hc with hc | rfl
    · simp [hc] at hf
    · rw [ht] at hv; simp [← h] at hv

/-- With nothing queued, an attempt of nonzero timeout waits (R94, R118). -/
theorem attemptLoop_waits {o : Operands} {k left i : Nat} {cause : ErrCode} {s : State} (hq : s.rxq = [])
    (hb : o.blockReadTimeout s.cfg ≠ 0) :
    attemptLoop o k (left + 1) i cause s = .waiting { startAttempt i s with
      rxq := [],
      seq := .run xferWord o (.waitRx ⟨[], some (o.blockBytes + 1), none, none, o.blockReadTimeout s.cfg,
                                       .xferBlock k i⟩) } := by
  rw [attemptLoop, rxRead_waits (by simpa using hb) (by simp [hq]) (by simp)]
  simp [hq]

/-- With nothing queued, the next block's first attempt waits (R94, R118). -/
theorem blockLoop_waits {o : Operands} {k left : Nat} {s : State} (hq : s.rxq = []) (hmt : o.maxTries ≠ 0)
    (hb : o.blockReadTimeout s.cfg ≠ 0) :
    blockLoop o (left + 1) k s = { putTry 0 s with
      rxq := [],
      seq := .run xferWord o (.waitRx ⟨[], some (o.blockBytes + 1), none, none, o.blockReadTimeout s.cfg,
                                       .xferBlock k 0⟩) } := by
  obtain ⟨mt, hmt⟩ : ∃ m, o.maxTries = m + 1 := ⟨o.maxTries - 1, by omega⟩
  rw [blockLoop, hmt, attemptLoop_waits hq hb]
  rfl

/-! ### SEQ does not matter to the loops

Until they wait or finish they do not write it, and nothing of theirs reads it. -/

/-- The same outcome with another SEQ, where the outcome leaves SEQ as it was. -/
def AttemptOutcome.withSeq (q : Seq) : AttemptOutcome → AttemptOutcome
  | .accepted s => .accepted { s with seq := q }
  | .failed c s => .failed c { s with seq := q }
  | .waiting s => .waiting s

theorem judgeAttempt_seq (o : Operands) (k : Nat) (d : List Byte) (s : State) (q : Seq) :
    judgeAttempt o k d { s with seq := q } = (judgeAttempt o k d s).withSeq q := by
  have hm : ∀ u : State, signalMismatch { u with seq := q } = { signalMismatch u with seq := q } := by
    intro u; simp only [signalMismatch]; cases u.cfg.retrySignalPolicy <;> rfl
  have hp : ∀ x, putBacc x (putBlkbuf d { s with seq := q }) = { putBacc x (putBlkbuf d s) with seq := q } := fun _ => rfl
  simp only [judgeAttempt]
  split
  · rfl
  · split
    · rfl
    · split
      · rfl
      · rw [hp, hm]; rfl

theorem attemptLoop_seq (o : Operands) (k left i : Nat) (cause : ErrCode) (s : State) (q : Seq) :
    attemptLoop o k left i cause { s with seq := q } = (attemptLoop o k left i cause s).withSeq q := by
  induction left generalizing i cause s with
  | zero => rfl
  | succ left ih =>
    have hs : startAttempt i { s with seq := q } = { startAttempt i s with seq := q } := by
      unfold startAttempt; split <;> rfl
    rw [attemptLoop, attemptLoop, hs, rxRead_seq]
    rcases rxRead_shape xferWord o (some (o.blockBytes + 1)) (o.blockReadTimeout s.cfg) none (.xferBlock k i)
      (startAttempt i s) with ⟨d, seen, lim, rest, h, -, -⟩ | ⟨got, h, -⟩
    · rw [h]
      simp only
      have hj := judgeAttempt_seq o k d { startAttempt i s with rxq := rest } q
      simp only at hj
      rw [hj]
      cases judgeAttempt o k d { startAttempt i s with rxq := rest } with
      | accepted u => rfl
      | failed c u => exact ih (i + 1) c u
      | waiting u => rfl
    · rw [h]; rfl

theorem blockLoop_seq (o : Operands) (left k : Nat) (s : State) (q : Seq) :
    blockLoop o left k { s with seq := q } = blockLoop o left k s := by
  induction left generalizing k s with
  | zero => rfl
  | succ left ih =>
    rw [blockLoop, blockLoop, attemptLoop_seq]
    cases attemptLoop o k o.maxTries 0 .noError s with
    | accepted u => exact ih (k + 1) u
    | failed c u => rfl
    | waiting u => rfl

/-! ### What the loops leave alone -/

/-- What XFER leaves alone while its blocks are transferred: the parameters, the setup, the received bytes in RXBUF, the
sticky bits, TERM, LIMIT, RESULT and BAUD; and no event is taken back (R24, R25, R33, R34, R53, R130). -/
structure XferFrame (s t : State) : Prop where
  cfg      : t.cfg = s.cfg
  inputs   : t.inputs = s.inputs
  bus      : t.bus = s.bus
  exposing : t.exposing = s.exposing
  cacc     : t.cacc = s.cacc
  chkDis   : t.chkDis = s.chkDis
  term     : t.status.term = s.status.term
  limit    : t.status.limit = s.status.limit
  fBusyWr  : t.status.fBusyWr = s.status.fBusyWr
  fRxOvr   : t.status.fRxOvr = s.status.fRxOvr
  fBus     : t.status.fBus = s.status.fBus
  timeout  : t.timeout = s.timeout
  baud     : t.baud = s.baud
  result   : t.result = s.result
  rxlen    : t.rxlen = s.rxlen
  xferCfg  : t.xferCfg = s.xferCfg
  imgDim   : t.imgDim = s.imgDim
  blkTotal : t.blkTotal = s.blkTotal
  txbuf    : t.txbuf = s.txbuf
  rxbuf    : t.rxbuf = s.rxbuf
  trace    : s.trace <+: t.trace

theorem XferFrame.refl (s : State) : XferFrame s s := by constructor <;> simp

theorem XferFrame.trans {s t u : State} (h : XferFrame s t) (h' : XferFrame t u) : XferFrame s u where
  cfg := h'.cfg.trans h.cfg
  inputs := h'.inputs.trans h.inputs
  bus := h'.bus.trans h.bus
  exposing := h'.exposing.trans h.exposing
  cacc := h'.cacc.trans h.cacc
  chkDis := h'.chkDis.trans h.chkDis
  term := h'.term.trans h.term
  limit := h'.limit.trans h.limit
  fBusyWr := h'.fBusyWr.trans h.fBusyWr
  fRxOvr := h'.fRxOvr.trans h.fRxOvr
  fBus := h'.fBus.trans h.fBus
  timeout := h'.timeout.trans h.timeout
  baud := h'.baud.trans h.baud
  result := h'.result.trans h.result
  rxlen := h'.rxlen.trans h.rxlen
  xferCfg := h'.xferCfg.trans h.xferCfg
  imgDim := h'.imgDim.trans h.imgDim
  blkTotal := h'.blkTotal.trans h.blkTotal
  txbuf := h'.txbuf.trans h.txbuf
  rxbuf := h'.rxbuf.trans h.rxbuf
  trace := h.trace.trans h'.trace

theorem XferFrame.afterRead (i : Nat) (rest : List Byte) (s : State) : XferFrame s (afterAttemptRead i rest s) := by
  unfold afterAttemptRead startAttempt; constructor <;> split <;> simp

theorem XferFrame.waits (i : Nat) (q : List Byte) (seq : Seq) (s : State) :
    XferFrame s { startAttempt i s with rxq := q, seq := seq } := by
  unfold startAttempt; constructor <;> split <;> simp

theorem XferFrame.blkbuf (d : List Byte) (s : State) : XferFrame s (putBlkbuf d s) := by constructor <;> simp

theorem XferFrame.bacc (x : Byte) (s : State) : XferFrame s (putBacc x s) := by constructor <;> simp

theorem XferFrame.mismatch (s : State) : XferFrame s (signalMismatch s) := by
  unfold signalMismatch; constructor <;> split <;> simp

theorem XferFrame.accept (o : Operands) (k : Nat) (data : List Byte) (s : State) :
    XferFrame s (acceptBlock o k data s) := by
  constructor <;> simp [acceptBlock, storeBlock, transmit]

theorem XferFrame.abort (c : ErrCode) (s : State) : XferFrame s (abortTransfer c s) := by
  constructor <;> simp [abortTransfer, fail, finish, discardImage, transmit]

theorem XferFrame.succeed (s : State) : XferFrame s (succeed s) := by constructor <;> simp

theorem judgeAttempt_frame {o : Operands} {k : Nat} {d : List Byte} {s : State} :
    match judgeAttempt o k d s with
    | .waiting t => XferFrame s t
    | .accepted t => XferFrame s t
    | .failed _ t => XferFrame s t := by
  have h1 := XferFrame.blkbuf d s
  have h2 := fun x => h1.trans (XferFrame.bacc x _)
  rcases judgeAttempt_cases o k d s with ⟨-, h⟩ | ⟨-, -, x, h⟩ | ⟨-, -, -, x, h⟩ <;> simp only [h]
  · exact h1
  · exact (h2 x).trans (XferFrame.accept ..)
  · exact (h2 x).trans (XferFrame.mismatch _)

theorem attemptLoop_frame (o : Operands) (k : Nat) (left i : Nat) (cause : ErrCode) (s : State)
    (h : left ≠ 0 → i + left ≤ o.maxTries) :
    match attemptLoop o k left i cause s with
    | .waiting t => XferFrame s t
    | .accepted t => XferFrame s t
    | .failed _ t => XferFrame s t := by
  refine attemptLoop_rule (P := fun _ t => XferFrame s t) (W := XferFrame s) (A := XferFrame s)
    (F := fun _ => XferFrame s) ?_ ?_ ?_ ?_ left i cause s h (XferFrame.refl s) fun _ => XferFrame.refl s
  · intro i t _ hp _ _; exact hp.trans (XferFrame.waits ..)
  · intro i t d rest _ hp _ _
    have := (hp.trans (XferFrame.afterRead i rest t)).trans (XferFrame.blkbuf d _)
    exact ⟨this, this⟩
  · intro i t d rest x _ hp _ _ _ _
    have := (((hp.trans (XferFrame.afterRead i rest t)).trans (XferFrame.blkbuf d _)).trans
      (XferFrame.bacc x _)).trans (XferFrame.mismatch _)
    exact ⟨this, this⟩
  · intro i t d rest x _ hp _ _
    exact (((hp.trans (XferFrame.afterRead i rest t)).trans (XferFrame.blkbuf d _)).trans
      (XferFrame.bacc x _)).trans (XferFrame.accept ..)

theorem blockLoop_frame (o : Operands) (k : Nat) (s : State) :
    XferFrame s (blockLoop o (o.totalBlocks - k) k s) := by
  refine blockLoop_rule (P := fun _ t => XferFrame s t) ?_ ?_ _ k s rfl (XferFrame.refl s)
  · intro k t _ hp
    have := attemptLoop_frame o k o.maxTries 0 .noError t (by omega)
    revert this
    cases attemptLoop o k o.maxTries 0 .noError t with
    | waiting u => exact hp.trans
    | failed c u => exact fun h => (hp.trans h).trans (XferFrame.abort c u)
    | accepted u => exact hp.trans
  · intro k t _ hp; exact hp.trans (XferFrame.succeed t)

theorem xferBlockDone_frame (o : Operands) (k i : Nat) (d : List Byte) (s : State) :
    XferFrame s (xferBlockDone o k i d s) := by
  have hj := judgeAttempt_frame (o := o) (k := k) (d := d) (s := s)
  refine xferBlockDone_rule (P := fun _ t => XferFrame s t) ?_ ?_ ?_
  · intro t ht; rw [ht] at hj; exact hj
  · intro c t ht
    rw [ht] at hj
    have := attemptLoop_frame o k (o.maxTries - (i + 1)) (i + 1) c t (by omega)
    revert this
    cases attemptLoop o k (o.maxTries - (i + 1)) (i + 1) c t with
    | waiting u => exact hj.trans
    | failed c u => exact fun h => (hj.trans h).trans (XferFrame.abort c u)
    | accepted u => exact hj.trans
  · intro t ht; exact ht.trans (blockLoop_frame o (k + 1) t)

end Sys2Proof.Machine
end

