-- ==== Sys2Proof/Laws/Sequencer.lean ====
section
/-! SUPPORT. The block taking up a read again (41_transport.md R94): a block read that returns full, and one that its
deadline ends short, and the attempts that follow as the block's step. -/

namespace Sys2Proof.Machine

open Sys2Proof

/-- A block read that gets its last byte, within its budget, goes on with the whole attempt (R119). -/
theorem resumeRead_block_full {s : State} {op : Word} {o : Operands} {r : ReadCtx} {k i n : Nat} {d rest : List Byte}
    (hk : r.kont = .xferBlock k i) (hl : r.limit = some n) (ht : r.term = none)
    (hb : ∀ j, r.budget = some j → n ≤ r.got.length + j) (hg : r.got.length ≤ n) (hd : r.got ++ s.rxq = d ++ rest)
    (hn : d.length = n) : resumeRead op o r s = xferBlockDone o k i d { s with rxq := rest } := by
  obtain ⟨q, rfl, hq⟩ : ∃ q, d = r.got ++ q ∧ s.rxq = q ++ rest := by
    rcases List.append_eq_append_iff.1 hd with ⟨a, rfl, h⟩ | ⟨a, ha, h⟩
    · exact ⟨a, rfl, h⟩
    · have : a = [] := by
        have := congrArg List.length ha; simp at this; exact List.eq_nil_of_length_eq_zero (by omega)
      subst this; exact ⟨[], by simpa using ha.symm, by simpa using h.symm⟩
  simp only [List.length_append] at hn
  rw [resumeRead, rxContinue_full (m := q.length) hl hn (by simp [hq]) (fun j h => by have := hb j h; omega) (by simp [ht])]
  simp [afterRead, hk, hq]

/-- A block read whose deadline has passed with too few bytes within its budget goes on with what it got, and leaves the
bytes past the budget queued (R119, R120, R183). -/
theorem resumeRead_block_short {s : State} {op : Word} {o : Operands} {r : ReadCtx} {k i n j : Nat}
    (hk : r.kont = .xferBlock k i) (hl : r.limit = some n) (ht : r.term = none) (hb : r.budget = some j)
    (hn : (r.got ++ s.rxq.take j).length < n) :
    resumeRead op o r s = xferBlockDone o k i (r.got ++ s.rxq.take j) { s with rxq := s.rxq.drop j } := by
  rw [resumeRead, rxContinue_expired hb
    (by intro m hm; rw [hl] at hm; cases hm; simpa only [List.length_append] using hn) (by simp [ht])]
  simp [afterRead, hk]

/-- The block before the read of attempt `i` of block `k`, with what is queued (R118, R119). -/
def attemptRead (o : Operands) (k i : Nat) (s : State) : State :=
  { startAttempt i s with
    seq := .run xferWord o (.waitRx ⟨[], some (o.blockBytes + 1), none,
      if o.blockReadTimeout s.cfg = 0 then some s.rxq.length else none, o.blockReadTimeout s.cfg, .xferBlock k i⟩) }

/-- What the attempts left for block `k` come to is the block's step from before their first read: they read on from what
is queued, and nothing is drained between attempts or blocks (R118, R130, R183). -/
theorem blockMove_attemptRead {o : Operands} {k i : Nat} {cause : ErrCode} {s : State} (h : i < o.maxTries) :
    blockMove (attemptRead o k i s) = .next
      (match attemptLoop o k (o.maxTries - i) i cause s with
        | .waiting t => t
        | .failed c t => abortTransfer c t
        | .accepted t => blockLoop o (o.totalBlocks - (k + 1)) (k + 1) t) := by
  obtain ⟨m, hm⟩ : ∃ m, o.maxTries - i = m + 1 := ⟨o.maxTries - i - 1, by omega⟩
  have hm' : o.maxTries - (i + 1) = m := by omega
  have hr : blockMove (attemptRead o k i s) = .next
      ((rxRead xferWord o (some (o.blockBytes + 1)) (o.blockReadTimeout s.cfg) none (.xferBlock k i)
        (attemptRead o k i s)).andThen fun got _ _ u => xferBlockDone o k i got u) := by
    rw [rxRead, show (attemptRead o k i s).rxq = s.rxq from startAttempt_rxq ..]; rfl
  rw [hr, attemptRead, hm, attemptLoop]
  generalize Seq.run xferWord o _ = q
  rw [rxRead_seq]
  congr 1
  rcases rxRead_shape xferWord o (some (o.blockBytes + 1)) (o.blockReadTimeout s.cfg) none (.xferBlock k i)
    (startAttempt i s) with ⟨d, _, _, rest, e, -, -⟩ | ⟨got, e, -⟩ <;> rw [e]
  · have hj := judgeAttempt_seq o k d { startAttempt i s with rxq := rest } q
    simp only at hj
    simp only [andThen_returned, xferBlockDone, hm', hj]
    cases judgeAttempt o k d { startAttempt i s with rxq := rest } with
    | accepted u => exact blockLoop_seq ..
    | failed c u =>
      have hl := attemptLoop_seq o k m (i + 1) c u q
      simp only [AttemptOutcome.withSeq] at hl ⊢
      rw [hl]
      cases attemptLoop o k m (i + 1) c u with
      | accepted v => exact blockLoop_seq ..
      | failed c v => rfl
      | waiting v => rfl
    | waiting u => rfl
  · rfl

/-- The blocks left are the block's step from before the read of the first of them (R114, R118). -/
theorem blockLoop_eq_blockMove {o : Operands} {k : Nat} {s : State} (hk : k < o.totalBlocks) (h : 0 < o.maxTries) :
    .next (blockLoop o (o.totalBlocks - k) k s) = blockMove (attemptRead o k 0 s) := by
  obtain ⟨m, hm⟩ : ∃ m, o.totalBlocks - k = m + 1 := ⟨o.totalBlocks - k - 1, by omega⟩
  rw [blockMove_attemptRead (cause := .noError) h, hm, blockLoop, show o.totalBlocks - (k + 1) = m by omega]
  rfl

/-- With fewer than a block's bytes queued and a nonzero block timeout, an attempt takes them and waits (R94, R118). -/
theorem blockMove_attemptRead_waits {o : Operands} {k i : Nat} {s : State} (hb : o.blockReadTimeout s.cfg ≠ 0)
    (hq : s.rxq.length ≤ o.blockBytes) :
    blockMove (attemptRead o k i s) = .next { startAttempt i s with
      rxq := [],
      seq := .run xferWord o (.waitRx ⟨s.rxq, some (o.blockBytes + 1), none, none, o.blockReadTimeout s.cfg,
        .xferBlock k i⟩) } := by
  simp only [blockMove, attemptRead, resumeRead]
  rw [rxContinue_waits (if_neg hb) (by intro n hn; cases hn; simpa using Nat.lt_succ_of_le hq) (by simp)]
  simp [hb]

end Sys2Proof.Machine
end

