-- ==== Sys2Proof/Laws/Frame.lean ====
section
/-! SUPPORT. Small laws the frame statements use: what the framing and the exposure monitor can do, where a received
result is stored (20_memory.md R190), the sizes a configuration has, and where the transfer's blocks are stored
(43_image_transfer.md R123). -/

namespace Sys2Proof.Machine

open Sys2Proof

/-- Everything framing a command can do (R103, R155): fault, or transmit the frame and go on. -/
theorem frameCommand_cases (cmd : List Byte) (s : State) (k : State → Host.Outcome State Fault Refusal) :
    (frameCommand cmd s k = .fault .takeImageDuringExposure ∧ (isTakeImage cmd && s.exposing) = true)
      ∨ frameCommand cmd s k = k (transmitFrame cmd (putExposing (s.exposing || isTakeImage cmd) s)) := by
  unfold frameCommand
  split
  · next h => exact .inl ⟨rfl, h⟩
  · exact .inr rfl

/-- A framed command whose operation answers a next state has transmitted its frame. -/
theorem frameCommand_next {cmd : List Byte} {s t : State} {k : State → Host.Outcome State Fault Refusal}
    (h : frameCommand cmd s k = .next t) :
    k (transmitFrame cmd (putExposing (s.exposing || isTakeImage cmd) s)) = .next t := by
  rcases frameCommand_cases cmd s k with ⟨h1, -⟩ | h1 <;> rw [h1] at h
  · cases h
  · exact h

theorem endExposure_cases (b : Byte) (seen limit : Bool) (s : State) :
    endExposure b seen limit s = s ∨ endExposure b seen limit s = putExposing false s := by
  unfold endExposure; split <;> simp

/-- A received result is stored at RXBUF[0..RXLEN) and nowhere else (R34, R190). -/
theorem putReceived_outside {got : List Byte} (s : State) (hl : got.length < 2 ^ 16) {a : Nat}
    (h : (putReceived got s).rxlen.toNat ≤ a) :
    Memory.read (putReceived got s).rxbuf a = Memory.read s.rxbuf a := by
  simp only [putReceived_rxlen, BitVec.toNat_ofNat, Nat.mod_eq_of_lt hl] at h
  exact Memory.read_writeBytes_outside _ _ _ (.inr (by omega))

/-- The buffer sizes of a well-formed configuration (R46). -/
theorem wf_sizes {c : Config} (h : c.wf = true) :
    c.rxbufSize ≤ 4096 ∧ 1 ≤ c.rxbufSize ∧ c.txbufSize ≤ 4096 ∧ c.imgbufSize ≤ 0x100000 := by
  simp only [Config.wf, Bool.and_eq_true, decide_eq_true_eq] at h
  omega

theorem tailN_length_le (k : Nat) (s : List Byte) : (tailN k s).length ≤ k := by simp [tailN]; omega

/-- The blocks of a transfer are stored below BLK_RCVD × bb and nowhere else (R123, R190). -/
theorem blockLoop_image (o : Operands) (m : Memory) (htot : o.totalBlocks < 2 ^ 32) (k : Nat) (s : State)
    (hk : k ≤ o.totalBlocks) (hr : s.blkRcvd = BitVec.ofNat 32 k)
    (hm : ∀ a, k * o.blockBytes ≤ a → Memory.read s.imgbuf a = Memory.read m a) (a : Nat)
    (ha : (blockLoop o (o.totalBlocks - k) k s).blkRcvd.toNat * o.blockBytes ≤ a) :
    Memory.read (blockLoop o (o.totalBlocks - k) k s).imgbuf a = Memory.read m a := by
  let P : Nat → State → Prop := fun k t =>
    k ≤ o.totalBlocks ∧ t.blkRcvd = BitVec.ofNat 32 k ∧ ∀ a, k * o.blockBytes ≤ a →
      Memory.read t.imgbuf a = Memory.read m a
  have keep : ∀ k t u, P k t → u.blkRcvd = t.blkRcvd → u.imgbuf = t.imgbuf → P k u := by
    rintro k t u ⟨h1, h2, h3⟩ h h'; exact ⟨h1, by rw [h, h2], by rw [h']; exact h3⟩
  have done : ∀ k t, P k t → ∀ a, t.blkRcvd.toNat * o.blockBytes ≤ a →
      Memory.read t.imgbuf a = Memory.read m a := by
    rintro k t ⟨h1, h2, h3⟩ a ha
    rw [h2, BitVec.toNat_ofNat, Nat.mod_eq_of_lt (by omega)] at ha
    exact h3 a ha
  refine blockLoop_rule (P := P)
    (Q := fun t => ∀ a, t.blkRcvd.toNat * o.blockBytes ≤ a → Memory.read t.imgbuf a = Memory.read m a)
    ?_ ?_ _ k s rfl ⟨hk, hr, hm⟩ a ha
  · intro k s hk hp
    have := attemptLoop_rule (P := fun _ t => P k t) (W := P k) (A := P (k + 1)) (F := fun _ => P k) (o := o) (k := k)
      ?_ ?_ ?_ ?_ o.maxTries 0 .noError s (by omega) hp (fun _ => hp)
    · revert this
      cases attemptLoop o k o.maxTries 0 .noError s with
      | waiting u => exact done k u
      | failed c u => exact fun h => done k _ (keep k u _ h rfl rfl)
      | accepted u => exact id
    · intro i t _ hp _ _; exact keep k t _ hp (by simp) (by simp)
    · intro i t d rest _ hp _ _
      have := keep k t (putBlkbuf d (afterAttemptRead i rest t)) hp (by simp) (by simp)
      exact ⟨this, this⟩
    · intro i t d rest x _ hp _ _ _ _
      have := keep k t (signalMismatch (putBacc x (putBlkbuf d (afterAttemptRead i rest t)))) hp (by simp) (by simp)
      exact ⟨this, this⟩
    · intro i t d rest x _ hp _ hd
      obtain ⟨-, -, h3⟩ := keep k t (putBacc x (putBlkbuf d (afterAttemptRead i rest t))) hp (by simp) (by simp)
      refine ⟨by omega, by simp [storeBlock], ?_⟩
      intro a ha
      rw [Nat.add_mul] at ha
      rw [acceptBlock_eq, storeBlock_imgbuf, Memory.read_writeBytes_outside]
      · exact h3 a (by omega)
      · right; simp only [List.length_take]; omega
  · intro k s _ hp; exact done k _ (keep k s _ hp rfl rfl)

/-! ### Where the loops wait -/

/-- `t` is IDLE, or waits in a block read whose block and attempt satisfy `C`. -/
def WaitsAt (o : Operands) (C : Nat → Nat → Prop) (t : State) : Prop :=
  t.seq = .idle ∨ ∃ op r k i, t.seq = .run op o (.waitRx r) ∧ r.kont = .xferBlock k i ∧ C k i

/-- The attempts left for block `k` wait in an attempt of that block, from `i` on (R118). -/
theorem attemptLoop_waitsAt (o : Operands) (k i left : Nat) (cause : ErrCode) (s : State)
    (h : left ≠ 0 → i + left ≤ o.maxTries) :
    match attemptLoop o k left i cause s with
    | .waiting t => WaitsAt o (fun k' i' => k' = k ∧ i ≤ i' ∧ i' < o.maxTries) t
    | .accepted _ => True
    | .failed _ _ => True := by
  have := attemptLoop_rule (P := fun j _ => i ≤ j)
    (W := WaitsAt o (fun k' i' => k' = k ∧ i ≤ i' ∧ i' < o.maxTries)) (A := fun _ => True) (F := fun _ _ => True)
    (o := o) (k := k) (fun j s hj hp _ _ => .inr ⟨_, _, k, j, rfl, rfl, rfl, hp, hj⟩)
    (fun j s d rest _ hp _ _ => ⟨by omega, trivial⟩) (fun j s d rest x _ hp _ _ _ _ => ⟨by omega, trivial⟩)
    (fun _ _ _ _ _ _ _ _ _ => trivial) left i cause s h (Nat.le_refl i) (fun _ => trivial)
  revert this
  cases attemptLoop o k left i cause s <;> exact id

/-- The blocks left from `k` end IDLE or wait in an attempt of a block from `k` on (R114). -/
theorem blockLoop_waitsAt (o : Operands) (k : Nat) (s : State) :
    WaitsAt o (fun k' i' => k ≤ k' ∧ k' < o.totalBlocks ∧ i' < o.maxTries)
      (blockLoop o (o.totalBlocks - k) k s) := by
  refine blockLoop_rule (P := fun j _ => k ≤ j)
    (Q := WaitsAt o (fun k' i' => k ≤ k' ∧ k' < o.totalBlocks ∧ i' < o.maxTries)) ?_ ?_ _ k s rfl (Nat.le_refl k)
  · intro j s hj hp
    have := attemptLoop_waitsAt o j 0 o.maxTries .noError s (by omega)
    revert this
    cases attemptLoop o j o.maxTries 0 .noError s with
    | waiting t =>
      rintro (h | ⟨op, r, k', i', h1, h2, h3, h4, h5⟩)
      · exact .inl h
      · exact .inr ⟨op, r, k', i', h1, h2, by omega, by omega, h5⟩
    | failed c t => exact fun _ => .inl rfl
    | accepted t => intro _; simp only; omega
  · exact fun j s _ _ => .inl rfl

/-- XFER going on after attempt `i` of block `k` ends IDLE, or waits in a later attempt of the block or in a later
block (R128). -/
theorem xferBlockDone_waitsAt (o : Operands) (k i : Nat) (d : List Byte) (s : State) :
    WaitsAt o (fun k' i' => (k' = k ∧ i < i' ∧ i' < o.maxTries) ∨ (k < k' ∧ k' < o.totalBlocks ∧ i' < o.maxTries))
      (xferBlockDone o k i d s) := by
  refine xferBlockDone_rule (P := fun _ _ => True) (fun _ _ => trivial) ?_ ?_
  · intro c t _
    have := attemptLoop_waitsAt o k (i + 1) (o.maxTries - (i + 1)) c t (by omega)
    revert this
    cases attemptLoop o k (o.maxTries - (i + 1)) (i + 1) c t with
    | waiting t =>
      rintro (h | ⟨op, r, k', i', h1, h2, h3, h4, h5⟩)
      · exact .inl h
      · exact .inr ⟨op, r, k', i', h1, h2, .inl ⟨h3, by omega, h5⟩⟩
    | failed c t => exact fun _ => .inl rfl
    | accepted t => exact fun _ => trivial
  · intro t _
    rcases blockLoop_waitsAt o (k + 1) t with h | ⟨op, r, k', i', h1, h2, h3, h4, h5⟩
    · exact .inl h
    · exact .inr ⟨op, r, k', i', h1, h2, .inr ⟨by omega, h4, h5⟩⟩

end Sys2Proof.Machine
end

