-- ==== Sys2Proof/Laws/Invariant.lean ====
section
/-! SUPPORT. The parts of the invariant (`Safety.StateInv`) and how the shared operations keep them: the registers and
buffers (`CoreOk`), STATUS while an operation runs (`Running`), and the transfer's loops (`XferAt`). -/

namespace Sys2Proof.Machine

open Sys2Proof Sys2Proof.Safety

/-- The part of the invariant that is about registers and buffers. -/
structure CoreOk (s : State) : Prop where
  wf : s.cfg.wf = true
  cacc : s.cacc.getLsbD 7 = false
  baud : s.baud.toNat ≤ 6
  xferCfg : s.xferCfg &&& 0x00F00000#32 = 0#32
  rxlen : s.rxlen.toNat ≤ s.cfg.rxbufSize
  progress : s.progress.toNat ≤ 100
  imglen : s.imglen.toNat ≤ s.cfg.imgbufSize
  rxq : s.rxq.length ≤ s.cfg.rxqDepth
  txbuf : BufferOk s.txbuf s.cfg.txbufSize 0
  rxbuf : BufferOk s.rxbuf s.cfg.rxbufSize s.rxlen.toNat
  imgbuf : BufferOk s.imgbuf s.cfg.imgbufSize s.imglen.toNat
  blkbuf : BufferOk s.blkbuf s.cfg.blkbufSize 0

theorem stateInv_iff (s : State) : StateInv s ↔ CoreOk s ∧ StatusOk s ∧ SeqOk s := by
  constructor
  · rintro ⟨a1, a2, a3, a4, a5, a6, a7, a8, a9, a10, a11, a12, a13, a14⟩
    exact ⟨⟨a1, a2, a3, a4, a5, a6, a7, a8, a9, a10, a11, a12⟩, a13, a14⟩
  · rintro ⟨⟨a1, a2, a3, a4, a5, a6, a7, a8, a9, a10, a11, a12⟩, a13, a14⟩
    exact ⟨a1, a2, a3, a4, a5, a6, a7, a8, a9, a10, a11, a12, a13, a14⟩

/-- `CoreOk` depends on its own fields only; RXQ may get shorter. -/
theorem CoreOk.congr {s t : State} (h : CoreOk s) (h1 : t.cfg = s.cfg := by rfl) (h2 : t.cacc = s.cacc := by rfl)
    (h3 : t.baud = s.baud := by rfl) (h4 : t.xferCfg = s.xferCfg := by rfl) (h5 : t.rxlen = s.rxlen := by rfl)
    (h6 : t.progress = s.progress := by rfl) (h7 : t.imglen = s.imglen := by rfl)
    (h8 : t.rxq.length ≤ s.rxq.length := by exact Nat.le_refl _) (h9 : t.txbuf = s.txbuf := by rfl)
    (h10 : t.rxbuf = s.rxbuf := by rfl) (h11 : t.imgbuf = s.imgbuf := by rfl)
    (h12 : t.blkbuf = s.blkbuf := by rfl) : CoreOk t := by
  constructor
  · rw [h1]; exact h.wf
  · rw [h2]; exact h.cacc
  · rw [h3]; exact h.baud
  · rw [h4]; exact h.xferCfg
  · rw [h5, h1]; exact h.rxlen
  · rw [h6]; exact h.progress
  · rw [h7, h1]; exact h.imglen
  · rw [h1]; exact h8.trans h.rxq
  · rw [h9, h1]; exact h.txbuf
  · rw [h10, h1, h5]; exact h.rxbuf
  · rw [h11, h1, h7]; exact h.imgbuf
  · rw [h12, h1]; exact h.blkbuf

theorem CoreOk.takeRxq {s : State} (h : CoreOk s) {q : List Byte} (hq : q.length ≤ s.rxq.length) :
    CoreOk { s with rxq := q } := h.congr (h8 := hq)

/-- STATUS while an operation runs: every result bit is 0 (R30). -/
structure Running (s : State) : Prop where
  done : s.status.done = false
  ok : s.status.ok = false
  term : s.status.term = false
  limit : s.status.limit = false
  err : s.status.err = .noError

theorem Running.congr {s t : State} (h : Running s) (ht : t.status = s.status := by rfl) : Running t :=
  ⟨by rw [ht]; exact h.done, by rw [ht]; exact h.ok, by rw [ht]; exact h.term, by rw [ht]; exact h.limit,
    by rw [ht]; exact h.err⟩

theorem Running.statusOk {s : State} (h : Running s) : StatusOk s :=
  ⟨fun x => by simp [h.done] at x, fun _ => ⟨h.ok, h.term, h.limit, h.err⟩, fun _ => h.done⟩

/-! ### Finishing and waiting -/

theorem stateInv_finish {s : State} (h : CoreOk s) (ok : Bool) (err : ErrCode) (he : ok = true ↔ err = .noError) :
    StateInv (finish ok err s) := by
  rw [stateInv_iff]
  exact ⟨h.congr, ⟨fun _ => he, fun h => by simp at h, fun h => by simp at h⟩, by simp [SeqOk]⟩

theorem stateInv_succeed {s : State} (h : CoreOk s) : StateInv (succeed s) := stateInv_finish h _ _ (by simp)

theorem stateInv_fail {s : State} (h : CoreOk s) {e : ErrCode} (he : e ≠ .noError) : StateInv (fail e s) :=
  stateInv_finish h _ _ (by simp [he])

theorem stateInv_wait {s : State} (h : CoreOk s) (hr : Running s) {op : Word} {o : Operands} {r : ReadCtx}
    (ho : OperandsOk s.cfg o) (hl : ∀ n, r.limit = some n → r.got.length < n) (hk : KontOk o r s) :
    StateInv { s with rxq := [], seq := .run op o (.waitRx r) } := by
  rw [stateInv_iff]
  exact ⟨h.congr (h8 := Nat.zero_le _), hr.congr.statusOk, ho, hl, hk⟩

/-- The invariant depends on its own fields only. -/
theorem stateInv_congr {s t : State} (h : StateInv s) (hb : CoreOk t) (h1 : t.cfg = s.cfg := by rfl)
    (h2 : t.seq = s.seq := by rfl) (st1 : t.status.done = s.status.done := by rfl)
    (st2 : t.status.ok = s.status.ok := by rfl) (st3 : t.status.term = s.status.term := by rfl)
    (st4 : t.status.limit = s.status.limit := by rfl) (st5 : t.status.err = s.status.err := by rfl)
    (h3 : t.blkTotal = s.blkTotal := by rfl) (h4 : t.blkRcvd = s.blkRcvd := by rfl)
    (h5 : t.imglen = s.imglen := by rfl) (h6 : t.progress = s.progress := by rfl)
    (h7 : t.tryNo = s.tryNo := by rfl) : StateInv t := by
  obtain ⟨-, hs, hq⟩ := (stateInv_iff s).1 h
  rw [stateInv_iff]
  refine ⟨hb, ?_, ?_⟩
  · unfold StatusOk State.busy at *; rw [h2, st1, st2, st3, st4, st5]; exact hs
  · unfold SeqOk KontOk SessionAt at *; rw [h2, h1, h3, h4, h5, h6, h7]; exact hq

/-! ### Buffers -/

theorem bufferOk_write {m : Memory} {size d a : Nat} {bs : List Byte} {d' : Nat} (h : BufferOk m size d)
    (hs : a + bs.length ≤ size) (hd : ∀ x, x < d' → x < d ∨ (a ≤ x ∧ x < a + bs.length)) :
    BufferOk (Memory.writeBytes m a bs) size d' := by
  refine ⟨Memory.wf_writeBytes h.1 a bs, ?_, ?_⟩
  · intro c hc
    rcases Memory.mem_writeBytes hc with h' | h'
    · exact h.2.1 c h'
    · omega
  · intro x hx
    by_cases hin : a ≤ x ∧ x < a + bs.length
    · have := Memory.read_writeBytes_inside m a bs (j := x - a) (by omega)
      rw [show a + (x - a) = x by omega] at this
      rw [this]; rfl
    · rw [Memory.read_writeBytes_outside _ _ _ (by omega)]
      exact (hd x hx).elim (h.2.2 x) fun h1 => absurd h1 hin

theorem CoreOk.received {s : State} (h : CoreOk s) {got : List Byte} (hg : got.length ≤ s.cfg.rxbufSize) :
    CoreOk (putReceived got s) := by
  have hw := wf_sizes h.wf
  have e : (putReceived got s).rxlen.toNat = got.length := by simp; omega
  refine { h.congr (t := { putReceived got s with rxbuf := s.rxbuf, rxlen := s.rxlen }) with
    rxlen := ?_, rxbuf := ?_ }
  · rw [e]; exact hg
  · rw [e]; exact bufferOk_write h.rxbuf (by simpa using hg) (fun x hx => .inr (by omega))

theorem CoreOk.checksum {s : State} (h : CoreOk s) (cmd : List Byte) :
    CoreOk (putCommandChecksum (cmdChecksum cmd) s) :=
  { h.congr (t := { putCommandChecksum (cmdChecksum cmd) s with cacc := s.cacc }) with
    cacc := cmdChecksum_bit7 cmd }

theorem CoreOk.frame {s : State} (h : CoreOk s) (cmd : List Byte) (e : Bool) :
    CoreOk (transmitFrame cmd (putExposing e s)) := ((h.congr (t := putExposing e s)).checksum cmd).congr

theorem CoreOk.endExposure {s : State} (h : CoreOk s) (b : Byte) (seen limit : Bool) :
    CoreOk (endExposure b seen limit s) := by
  rcases endExposure_cases b seen limit s with e | e <;> rw [e]
  · exact h
  · exact h.congr

theorem CoreOk.writeTxbuf {s : State} (h : CoreOk s) {i : Nat} {bs : List Byte} (hi : i + bs.length ≤ s.cfg.txbufSize) :
    CoreOk (writeTxbuf i bs s) := by
  refine { h.congr (t := { Machine.writeTxbuf i bs s with txbuf := s.txbuf }) with txbuf := ?_ }
  exact bufferOk_write h.txbuf hi (fun x hx => by omega)

theorem CoreOk.putBlkbuf {s : State} (h : CoreOk s) {d : List Byte} (hd : d.length ≤ s.cfg.blkbufSize) :
    CoreOk (putBlkbuf d s) := by
  refine { h.congr (t := { Machine.putBlkbuf d s with blkbuf := s.blkbuf }) with blkbuf := ?_ }
  exact bufferOk_write h.blkbuf (by simpa using hd) (fun x hx => by omega)

/-! ### What an operation does with its read -/

theorem stateInv_readDone {s : State} (h : CoreOk s) {got : List Byte} (hg : got.length ≤ s.cfg.rxbufSize) :
    StateInv (readDone got s) := stateInv_succeed (h.received hg)

theorem stateInv_rduntDone {s : State} (h : CoreOk s) {got : List Byte} (hg : got.length ≤ s.cfg.rxbufSize) (b : Byte)
    (seen limit : Bool) : StateInv (rduntDone b got seen limit s) := by
  have : (endExposure b seen limit s).cfg = s.cfg := by
    rcases endExposure_cases b seen limit s with e | e <;> rw [e]; rfl
  exact stateInv_succeed (((h.endExposure b seen limit).received (by rw [this]; exact hg)).congr)

theorem stateInv_sendvDone {s : State} (h : CoreOk s) {got cmd : List Byte} (hg : got.length ≤ 1) :
    StateInv (sendvDone cmd got s) := by
  have := wf_sizes h.wf
  unfold sendvDone
  split
  · exact stateInv_succeed (h.received (by omega))
  · exact stateInv_fail (h.received (by omega)) (by simp)

theorem stateInv_expectDone {s : State} (h : CoreOk s) {got cmd reply : List Byte} :
    StateInv (expectDone cmd reply got s) := by
  have b := (h.received (tailN_length_le s.cfg.rxbufSize got)).congr
    (t := putLimit (decide (s.cfg.rxbufSize < got.length)) (putReceived (tailN s.cfg.rxbufSize got) s))
  unfold expectDone
  simp only
  split
  · exact stateInv_succeed b
  · exact stateInv_fail b (by simp)

/-! ### The transfer -/

/-- The arithmetic of a legal transfer (R115, R116, R193). -/
structure XferArith (c : Config) (o : Operands) : Prop where
  block : o.blockBytes + 1 ≤ c.blkbufSize
  tries : o.maxTries ≠ 0
  image : o.totalBlocks * o.blockBytes ≤ c.imgbufSize
  fits : o.totalBlocks < 2 ^ 32
  pos : 0 < o.totalBlocks

theorem xferArith {c : Config} {o : Operands} (hx : xferConfigOk c o = true) : XferArith c o := by
  simp only [xferConfigOk, Bool.and_eq_true, decide_eq_true_eq] at hx
  obtain ⟨⟨⟨⟨⟨⟨⟨a1, a2⟩, a3⟩, a4⟩, a5⟩, a6⟩, a7⟩, a8⟩ := hx
  have hWH : o.totalBlocks * o.blockPixels = o.imgW * o.imgH := by
    unfold Operands.totalBlocks; exact Nat.div_mul_cancel (Nat.dvd_of_mod_eq_zero a6)
  have hpos : 0 < o.imgW * o.imgH := Nat.mul_pos (Nat.pos_of_ne_zero a4) (Nat.pos_of_ne_zero a5)
  have h1 : o.imgW < 2 ^ 16 := (o.imgDim.extractLsb' 0 16).isLt
  have h2 : o.imgH < 2 ^ 16 := (o.imgDim.extractLsb' 16 16).isLt
  have h3 : o.imgW * o.imgH < 2 ^ 16 * 2 ^ 16 := Nat.mul_lt_mul'' h1 h2
  have h4 : o.totalBlocks ≤ o.imgW * o.imgH := Nat.div_le_self _ _
  refine ⟨a7, a3, ?_, by omega, ?_⟩
  · unfold Operands.blockBytes; rw [← Nat.mul_assoc, hWH]; exact a8
  · rcases Nat.eq_zero_or_pos o.totalBlocks with h | h
    · rw [h] at hWH; omega
    · exact h

theorem progressOf_le {received total : Nat} (h : received ≤ total) : progressOf received total ≤ 100 := by
  unfold progressOf
  rcases Nat.eq_zero_or_pos total with h' | h'
  · simp [h']
  · exact (Nat.div_le_iff_le_mul_add_pred h').2 (by rw [Nat.mul_comm]; have := Nat.mul_le_mul_left 100 h; omega)

/-- What holds of the state while XFER runs with `k` blocks accepted. -/
structure XferAt (c : Config) (o : Operands) (k : Nat) (s : State) : Prop where
  core : CoreOk s
  running : Running s
  cfg : s.cfg = c
  le : k ≤ o.totalBlocks
  session : SessionAt o k s

theorem XferAt.congr {c : Config} {o : Operands} {k : Nat} {s t : State} (h : XferAt c o k s) (hb : CoreOk t)
    (h1 : t.cfg = s.cfg := by rfl) (h2 : t.status = s.status := by rfl) (h3 : t.blkTotal = s.blkTotal := by rfl)
    (h4 : t.blkRcvd = s.blkRcvd := by rfl) (h5 : t.imglen = s.imglen := by rfl)
    (h6 : t.progress = s.progress := by rfl) : XferAt c o k t := by
  obtain ⟨s1, s2, s3, s4⟩ := h.session
  exact ⟨hb, h.running.congr h2, h1.trans h.cfg, h.le,
    ⟨by rw [h3]; exact s1, by rw [h4]; exact s2, by rw [h5]; exact s3, by rw [h6]; exact s4⟩⟩

theorem CoreOk.attempt {s : State} (h : CoreOk s) (i : Nat) {d rest : List Byte} (hq : s.rxq = d ++ rest)
    (hd : d.length ≤ s.cfg.blkbufSize) : CoreOk (Machine.putBlkbuf d (afterAttemptRead i rest s)) := by
  have b : CoreOk (afterAttemptRead i rest s) :=
    h.congr (by simp) (by simp) (by simp) (by simp) (by simp) (by simp) (by simp)
      (by rw [afterAttemptRead_rxq, hq]; simp) (by simp) (by simp) (by simp) (by simp)
  exact b.putBlkbuf (by simpa using hd)

theorem CoreOk.mismatch {s : State} (h : CoreOk s) : CoreOk (signalMismatch s) :=
  h.congr (by rw [signalMismatch_cfg]) (by rw [signalMismatch_cacc]) (by rw [signalMismatch_baud])
    (by rw [signalMismatch_xferCfg]) (by rw [signalMismatch_rxlen]) (by rw [signalMismatch_progress])
    (by rw [signalMismatch_imglen]) (by rw [signalMismatch_rxq]) (by rw [signalMismatch_txbuf])
    (by rw [signalMismatch_rxbuf]) (by rw [signalMismatch_imgbuf]) (by rw [signalMismatch_blkbuf])

theorem XferAt.attempt {c : Config} {o : Operands} {k : Nat} {s : State} (h : XferAt c o k s) (i : Nat)
    {d rest : List Byte} (hq : s.rxq = d ++ rest) (hd : d.length ≤ c.blkbufSize) :
    XferAt c o k (Machine.putBlkbuf d (afterAttemptRead i rest s)) :=
  h.congr (h.core.attempt i hq (by rw [h.cfg]; exact hd)) (by simp) (by simp) (by simp) (by simp) (by simp) (by simp)

theorem XferAt.bacc {c : Config} {o : Operands} {k : Nat} {s : State} (h : XferAt c o k s) (x : Byte) :
    XferAt c o k (putBacc x s) := h.congr h.core.congr

theorem XferAt.mismatch {c : Config} {o : Operands} {k : Nat} {s : State} (h : XferAt c o k s) :
    XferAt c o k (signalMismatch s) :=
  h.congr h.core.mismatch (by rw [signalMismatch_cfg]) (by rw [signalMismatch_status]) (by rw [signalMismatch_blkTotal])
    (by rw [signalMismatch_blkRcvd]) (by rw [signalMismatch_imglen]) (by rw [signalMismatch_progress])

/-- Accepting block `k` (R123, R125). -/
theorem XferAt.accept {c : Config} {o : Operands} {k : Nat} {s : State} (h : XferAt c o k s) (ha : XferArith c o)
    (hk : k < o.totalBlocks) {d : List Byte} (hd : d.length = o.blockBytes) :
    XferAt c o (k + 1) (acceptBlock o k d s) := by
  have hm : (k + 1) * o.blockBytes ≤ c.imgbufSize := (Nat.mul_le_mul_right _ hk).trans ha.image
  have hw := wf_sizes h.core.wf
  have hc := h.cfg
  have hp : progressOf (k + 1) o.totalBlocks ≤ 100 := progressOf_le hk
  have e1 : (acceptBlock o k d s).imglen.toNat = (k + 1) * o.blockBytes := by
    rw [← hc] at hm; simp; omega
  have e2 : (acceptBlock o k d s).progress.toNat = progressOf (k + 1) o.totalBlocks := by
    simp [storeBlock]; omega
  have ex : k * o.blockBytes + o.blockBytes = (k + 1) * o.blockBytes := by rw [Nat.add_mul]; omega
  have hf := ha.fits
  refine ⟨?_, h.running.congr (by simp), by simpa using hc, hk, ⟨?_, ?_, e1, e2⟩⟩
  · refine { h.core.congr (t := { acceptBlock o k d s with
        imgbuf := s.imgbuf, imglen := s.imglen, progress := s.progress }) with
      progress := ?_, imglen := ?_, imgbuf := ?_ }
    · rw [e2]; exact hp
    · rw [e1]; simpa [hc] using hm
    · rw [e1]
      have := h.session.2.2.1
      simp only [acceptBlock_eq, storeBlock_imgbuf, transmit_imgbuf, storeBlock_cfg, transmit_cfg]
      refine bufferOk_write h.core.imgbuf (by rw [hd, hc]; omega) (fun x hx => ?_)
      rw [this, hd]; omega
  · simpa using h.session.1
  · simp [storeBlock]; omega

/-- The start of the session (R116, R117). -/
theorem xferAt_start {c : Config} {o : Operands} {s : State} (h : CoreOk s) (hr : Running s) (hc : s.cfg = c)
    (ha : XferArith c o) (cmd : List Byte) :
    XferAt c o 0 (transmitFrame cmd (startSession o.totalBlocks s)) := by
  have hb : CoreOk (startSession o.totalBlocks s) := by
    refine { h.congr (t := { startSession o.totalBlocks s with imglen := s.imglen, progress := s.progress }) with
      progress := by simp, imglen := by simp, imgbuf := ⟨h.imgbuf.1, h.imgbuf.2.1, fun a ha => by simp at ha⟩ }
  have hf := ha.fits
  refine ⟨(hb.checksum cmd).congr, hr.congr, hc, Nat.zero_le _, ⟨?_, by simp, by simp, by simp [progressOf]⟩⟩
  simp; omega

theorem stateInv_abort {s : State} (h : CoreOk s) {c : ErrCode} (hc : c ≠ .noError) :
    StateInv (abortTransfer c s) := by
  refine stateInv_fail ?_ hc
  refine { h.congr (t := { discardImage (transmit [sigStop] s) with imglen := s.imglen }) with
    imglen := by simp, imgbuf := ⟨h.imgbuf.1, h.imgbuf.2.1, fun a ha => by simp at ha⟩ }

theorem stateInv_waitBlock {c : Config} {o : Operands} {k i : Nat} {q : List Byte} {s : State} (h : XferAt c o k s)
    (ho : OperandsOk c o) (hx : xferConfigOk c o = true) (hk : k < o.totalBlocks) (hi : i < o.maxTries)
    (hq : q.length < o.blockBytes + 1) :
    StateInv { startAttempt i s with
      rxq := [],
      seq := .run xferWord o (.waitRx ⟨q, some (o.blockBytes + 1), none, none, o.blockReadTimeout s.cfg,
                                       .xferBlock k i⟩) } := by
  have hmt : o.maxTries < 256 := (o.xferCfg.extractLsb' 24 8).isLt
  obtain ⟨s1, s2, s3, s4⟩ := h.session
  have hc := h.cfg
  have hcore : CoreOk (startAttempt i s) :=
    h.core.congr (by simp) (by simp) (by simp) (by simp) (by simp) (by simp) (by simp) (by simp) (by simp) (by simp)
      (by simp) (by simp)
  refine stateInv_wait hcore (h.running.congr (by simp)) (by simpa [hc] using ho) ?_ ?_
  · intro n hn; cases hn; exact hq
  · simp only [KontOk]
    refine ⟨trivial, trivial, by simpa [hc] using hx, hk, hi,
      ⟨by simpa using s1, by simpa using s2, by simpa using s3, by simpa using s4⟩, ?_⟩
    simp; omega

/-- The attempts left for block `k` keep the invariant (R118 to R124). -/
theorem attemptLoop_inv {c : Config} {o : Operands} {k : Nat} (ho : OperandsOk c o) (hx : xferConfigOk c o = true)
    (hk : k < o.totalBlocks) (left i : Nat) (cause : ErrCode) (s : State) (hi : left ≠ 0 → i + left ≤ o.maxTries)
    (h : XferAt c o k s) (hcause : left = 0 → cause ≠ .noError) :
    match attemptLoop o k left i cause s with
    | .waiting t => StateInv t
    | .accepted t => XferAt c o (k + 1) t
    | .failed c' t => XferAt c o k t ∧ c' ≠ .noError := by
  have ha := xferArith hx
  have hb := ha.block
  refine attemptLoop_rule (P := fun _ s => XferAt c o k s) (W := StateInv) (A := XferAt c o (k + 1))
    (F := fun c' t => XferAt c o k t ∧ c' ≠ .noError) ?_ ?_ ?_ ?_ left i cause s hi h (fun h0 => ⟨h, hcause h0⟩)
  · exact fun i s hi hp _ hq => stateInv_waitBlock hp ho hx hk hi hq
  · intro i s d rest _ hp hq hd
    have := hp.attempt i hq (by omega)
    exact ⟨this, this, by simp⟩
  · intro i s d rest x _ hp hq hd _ _
    have := ((hp.attempt i hq (by omega)).bacc x).mismatch
    exact ⟨this, this, by simp⟩
  · intro i s d rest x _ hp hq hd
    exact ((hp.attempt i hq (by omega)).bacc x).accept ha hk (by simp [hd])

/-- The blocks left keep the invariant (R114). -/
theorem blockLoop_inv {c : Config} {o : Operands} {k : Nat} (ho : OperandsOk c o) (hx : xferConfigOk c o = true)
    (s : State) (h : XferAt c o k s) : StateInv (blockLoop o (o.totalBlocks - k) k s) := by
  have ha := xferArith hx
  refine blockLoop_rule (P := XferAt c o) (Q := StateInv) ?_ (fun k s _ hp => stateInv_succeed hp.core) _ k s rfl h
  intro k s hk hp
  have := attemptLoop_inv ho hx hk o.maxTries 0 .noError s (by omega) hp (fun h => absurd h ha.tries)
  revert this
  cases attemptLoop o k o.maxTries 0 .noError s with
  | waiting u => exact id
  | failed c u => rintro ⟨h, hc⟩; exact stateInv_abort h.core hc
  | accepted u => exact id

end Sys2Proof.Machine
end

