-- ==== Sys2Proof/Laws/PerInstr.lean ====
section
/-! SUPPORT. The family `CommandLength`: the length an encoded wire command has is the one its opcode gives it
(30_encoding.md R71), one lemma per constructor. -/

namespace Sys2Proof.Laws.CommandLength

open Sys2Proof

/-- If the instruction is a framed wire command, its bytes are as many as its first byte says (R71). -/
def Statement (i : Instr) : Prop :=
  ∀ cmd, encode i = .frame cmd → commandLength (cmd.headD 0#8) = some cmd.length

theorem csumc (n : BitVec 16) : Statement (.csumc n) := by rintro cmd ⟨⟩
theorem csumb (n : BitVec 16) : Statement (.csumb n) := by rintro cmd ⟨⟩
theorem write (n : BitVec 16) : Statement (.write n) := by rintro cmd ⟨⟩
theorem read (n : BitVec 16) : Statement (.read n) := by rintro cmd ⟨⟩
theorem rdunt (n : BitVec 16) (b : Byte) : Statement (.rdunt n b) := by rintro cmd ⟨⟩
theorem setbaud (c : Byte) : Statement (.setbaud c) := by rintro cmd ⟨⟩
theorem drain : Statement .drain := by rintro cmd ⟨⟩
theorem send (n : BitVec 16) : Statement (.send n) := by rintro cmd ⟨⟩
theorem sendv (n : BitVec 16) : Statement (.sendv n) := by rintro cmd ⟨⟩
theorem expect (n : BitVec 16) (m : Byte) : Statement (.expect n m) := by rintro cmd ⟨⟩
theorem xfer : Statement .xfer := by rintro cmd ⟨⟩
theorem wireE : Statement .wireE := by rintro cmd ⟨⟩; rfl
theorem wireO : Statement .wireO := by rintro cmd ⟨⟩; rfl
theorem wireC : Statement .wireC := by rintro cmd ⟨⟩; rfl
theorem wireK : Statement .wireK := by rintro cmd ⟨⟩; rfl
theorem wireG1 : Statement .wireG1 := by rintro cmd ⟨⟩; rfl
theorem wireG0 : Statement .wireG0 := by rintro cmd ⟨⟩; rfl
theorem wireV : Statement .wireV := by rintro cmd ⟨⟩; rfl
theorem wireR : Statement .wireR := by rintro cmd ⟨⟩; rfl
theorem wireB (d : Byte) : Statement (.wireB d) := by rintro cmd ⟨⟩; rfl
theorem wireT (t0 : Byte) (t1 : Byte) (t2 : Byte) (m0 : Byte) (m1 : Byte) : Statement (.wireT t0 t1 t2 m0 m1) := by rintro cmd ⟨⟩; rfl
theorem wireA : Statement .wireA := by rintro cmd ⟨⟩; rfl
theorem wireX : Statement .wireX := by rintro cmd ⟨⟩; rfl
theorem wireH : Statement .wireH := by rintro cmd ⟨⟩; rfl
theorem wireI : Statement .wireI := by rintro cmd ⟨⟩; rfl
theorem signalK : Statement .signalK := by rintro cmd ⟨⟩
theorem signalR : Statement .signalR := by rintro cmd ⟨⟩
theorem signalS : Statement .signalS := by rintro cmd ⟨⟩
theorem markerD : Statement .markerD := by rintro cmd ⟨⟩
theorem marker1A : Statement .marker1A := by rintro cmd ⟨⟩

end Sys2Proof.Laws.CommandLength
end

