-- ==== Sys2Proof/Laws/Run.lean ====
section
/-! SUPPORT. Runs of a machine, one step at a time. -/

namespace Sys2Proof.Machine

theorem run_next (M : Host.Core) {n : Nat} {s t : M.State} (h : M.step s = .next t) : M.run (n + 1) s = M.run n t := by
  unfold Host.Core.run; rw [h]; cases n <;> rfl

theorem run_fault (M : Host.Core) {n : Nat} {s : M.State} {f : M.Fault} (h : M.step s = .fault f) :
    M.run (n + 1) s = .fault f := by
  unfold Host.Core.run; rw [h]

end Sys2Proof.Machine
end

