-- ==== Sys2Proof/Tests/Slice0.lean ====
section
/-! SUPPORT. The model's own tests. Expected values are those of 95_test_vectors.md (the vector's name stands in the
test's comment) or are written out by hand from the rule named. Then, for each obligation with hypotheses, a witness:
a concrete state and operands that meet them. -/

namespace Sys2Proof.Tests

open Sys2Proof Sys2Proof.Machine Sys2Proof.Safety

/-! ### Test states -/

/-- The default parameters, with example values for the OPEN ones. -/
def cfgT : Config :=
  { Config.default with
    base := 0x40000000#32, tMode0 := 0x00#8, tMode1 := 0x01#8, baudToken1 := [0xA5#8], baudToken2 := [0x5A#8]
    deviceBaud := 9600 }

/-- Small buffers, so that a boundary is a small number. -/
def cfgS : Config := { cfgT with txbufSize := 8, rxbufSize := 4, rxqDepth := 2 }

/-- After reset, with `bs` written to TXBUF, `q` in RXQ and TIMEOUT = `t`. -/
def ready (c : Config) (bs q : List Byte) (t : Word) : State :=
  { State.resetWith c with txbuf := Memory.writeBytes [] 0 bs, rxq := q, timeout := t }

/-- The small transfer configuration of 95_test_vectors.md section 2.8, with `q` in RXQ. -/
def small (q : List Byte) : State :=
  { ready cfgT [] q 100000#32 with xferCfg := 0x03010002#32, imgDim := 0x00010004#32 }

/-- `s` with the read `r` in progress. -/
def reading (r : ReadCtx) (s : State) : State := { s with seq := .run 0#32 s.registerOperands (.waitRx r) }

/-- The small transfer in attempt `i` of block `k`, with `got` read and `q` queued. -/
def inBlock (k i : Nat) (budget : Option Nat) (got q : List Byte) : State :=
  reading ⟨got, some 3, none, budget, 3750, .xferBlock k i⟩ (small q)

/-- A view of the next state, when there is one. -/
def after {α : Type} (o : Host.Outcome State Fault Refusal) (f : State → α) : Option α :=
  match o with
  | .next s => some (f s)
  | .fault _ => none
  | .refused _ => none

/-- STATUS as the host reads it. -/
def statusOf (s : State) : Word := s.status.word s.busy

/-- RXBUF[0..RXLEN). -/
def rxOf (s : State) : Option (List Byte) := Memory.readBytes s.rxbuf 0 s.rxlen.toNat

/-- The fault, when there is one. -/
def faultOf (o : Host.Outcome State Fault Refusal) : Option Fault :=
  match o with
  | .next _ => none
  | .fault f => some f
  | .refused _ => none

/-! ### Well-formedness: an ill-formed term for each check -/

theorem test_wf_txCount : (Instr.csumc 257#16).wf cfgT = false ∧ (Instr.csumb 257#16).wf cfgT = false
    ∧ (Instr.write 257#16).wf cfgT = false ∧ (Instr.write 256#16).wf cfgT = true := by decide
theorem test_wf_rxCount : (Instr.read 257#16).wf cfgT = false ∧ (Instr.read 256#16).wf cfgT = true := by decide
theorem test_wf_rdunt : (Instr.rdunt 0#16 0x44#8).wf cfgT = false ∧ (Instr.rdunt 257#16 0x44#8).wf cfgT = false
    ∧ (Instr.rdunt 256#16 0x44#8).wf cfgT = true := by decide
theorem test_wf_setbaud : (Instr.setbaud 7#8).wf cfgT = false ∧ (Instr.setbaud 6#8).wf cfgT = true := by decide
theorem test_wf_commandLength : (Instr.send 0#16).wf cfgT = false ∧ (Instr.send 257#16).wf cfgT = false
    ∧ (Instr.sendv 0#16).wf cfgT = false ∧ (Instr.sendv 257#16).wf cfgT = false := by decide
/-- DE9, DE10, and m + 1 against a smaller RXBUF. -/
theorem test_wf_expect : (Instr.expect 0#16 0#8).wf cfgT = false ∧ (Instr.expect 2#16 255#8).wf cfgT = false
    ∧ (Instr.expect 1#16 4#8).wf cfgS = false ∧ (Instr.expect 1#16 255#8).wf cfgT = true := by decide
theorem test_wf_baudArg : (Instr.wireB 0x2F#8).wf cfgT = false ∧ (Instr.wireB 0x37#8).wf cfgT = false
    ∧ (Instr.wireB 0x36#8).wf cfgT = true ∧ (Instr.wireB 7#8).wf { cfgT with baudCodeForm := .binary } = false := by
  decide
theorem test_wf_takeImage : (Instr.wireT 0#8 0#8 0#8 1#8 1#8).wf cfgT = false
    ∧ (Instr.wireT 0#8 0#8 0#8 0#8 0#8).wf cfgT = false
    ∧ (Instr.wireT 0#8 0#8 11#8 0#8 1#8).wf { cfgT with maxExposureTicks := 10 } = false
    ∧ (Instr.wireT 0xFF#8 0xFF#8 0xFF#8 0#8 1#8).wf cfgT = true := by decide

/-! ### Decoding: words and bytes written out from the encodings of 30_encoding.md and 44_wire_commands.md -/

/-- R63, R65: N in bits 31:16, B in bits 15:8, OPC in bits 7:0. -/
theorem test_decode_operation_words :
    decode (.op 0x00010001#32) = .ok (.csumc 1#16) ∧ decode (.op 0x00040002#32) = .ok (.csumb 4#16)
      ∧ decode (.op 0x00010010#32) = .ok (.write 1#16) ∧ decode (.op 0x00040011#32) = .ok (.read 4#16)
      ∧ decode (.op 0x01004412#32) = .ok (.rdunt 256#16 0x44#8) ∧ decode (.op 0x00000413#32) = .ok (.setbaud 4#8)
      ∧ decode (.op 0x00000014#32) = .ok .drain ∧ decode (.op 0x00020020#32) = .ok (.send 2#16)
      ∧ decode (.op 0x00060021#32) = .ok (.sendv 6#16) ∧ decode (.op 0x0001FF22#32) = .ok (.expect 1#16 255#8)
      ∧ decode (.op 0x00000030#32) = .ok .xfer := by decide
/-- R71, R132 to R145. -/
theorem test_decode_wire_commands :
    decode (.frame [0x45#8]) = .ok .wireE ∧ decode (.frame [0x4F#8]) = .ok .wireO
      ∧ decode (.frame [0x43#8]) = .ok .wireC ∧ decode (.frame [0x4B#8]) = .ok .wireK
      ∧ decode (.frame [0x67#8, 0x01#8]) = .ok .wireG1 ∧ decode (.frame [0x67#8, 0x00#8]) = .ok .wireG0
      ∧ decode (.frame [0x56#8]) = .ok .wireV ∧ decode (.frame [0x72#8]) = .ok .wireR
      ∧ decode (.frame [0x42#8, 0x34#8]) = .ok (.wireB 0x34#8)
      ∧ decode (.frame [0x54#8, 0x00#8, 0x13#8, 0x88#8, 0x00#8, 0x01#8])
          = .ok (.wireT 0x00#8 0x13#8 0x88#8 0x00#8 0x01#8)
      ∧ decode (.frame [0x41#8]) = .ok .wireA ∧ decode (.frame [0x58#8]) = .ok .wireX
      ∧ decode (.frame [0x48#8]) = .ok .wireH ∧ decode (.frame [0x49#8]) = .ok .wireI := by decide
/-- R72, R146 to R150. -/
theorem test_decode_signals_and_markers :
    decode (.signal 0x4B#8) = .ok .signalK ∧ decode (.signal 0x52#8) = .ok .signalR
      ∧ decode (.signal 0x53#8) = .ok .signalS ∧ decode (.marker 0x44#8) = .ok .markerD
      ∧ decode (.marker 0x1A#8) = .ok .marker1A := by decide
/-- DE1 to DE4, DE6, CO5, and command bytes that are no wire command. -/
theorem test_decode_rejects :
    decode (.op 0x00000000#32) = .error .illegalOp ∧ decode (.op 0x000000FF#32) = .error .illegalOp
      ∧ decode (.op 0x00000015#32) = .error .illegalOp ∧ decode (.op 0xFFFF0030#32) = .error .badArg
      ∧ decode (.op 0x00010013#32) = .error .badArg ∧ decode (.op 0x00010101#32) = .error .badArg
      ∧ decode (.frame []) = .error .unknownCommand ∧ decode (.frame [0x5A#8]) = .error .unknownCommand
      ∧ decode (.frame [0x45#8, 0x00#8]) = .error .wrongLength
      ∧ decode (.frame [0x67#8, 0x02#8]) = .error .unknownArgument
      ∧ decode (.signal 0x45#8) = .error .unknownSignal ∧ decode (.marker 0x00#8) = .error .unknownMarker := by decide
/-- Table words: an operation word, a two-byte command, a command with zero operand bytes, a signal and a marker. -/
theorem test_decode_table_words :
    decodeTableWord 32 0x00010010 = some (.write 1#16) ∧ decodeTableWord 16 0x0167 = some .wireG1
      ∧ decodeTableWord 8 0x54 = some (.wireT 0#8 0#8 0#8 0#8 0#8) ∧ decodeTableWord 8 0x53 = some .signalS
      ∧ decodeTableWord 8 0x1A = some .marker1A := by decide

/-! ### The checksum codec -/

/-- CK1 to CK9, CK13, CK14, BK1 to BK5. -/
theorem test_checksums :
    cmdChecksum [] = 0x00#8 ∧ cmdChecksum [0x00#8] = 0x7F#8 ∧ cmdChecksum [0xFF#8] = 0x00#8
      ∧ cmdChecksum [0x80#8] = 0x7F#8 ∧ cmdChecksum [0x41#8, 0x42#8] = 0x03#8
      ∧ cmdChecksum [0x01#8, 0x02#8, 0x03#8] = 0x7F#8 ∧ cmdChecksum [0x45#8] = 0x3A#8
      ∧ cmdChecksum [0x54#8, 0x00#8, 0x13#8, 0x88#8, 0x00#8, 0x01#8] = 0x4E#8
      ∧ cmdChecksum [0x54#8, 0xFF#8, 0xFF#8, 0xFF#8, 0x00#8, 0x00#8] = 0x2B#8
      ∧ blkChecksum [] = 0x00#8 ∧ blkChecksum [0x01#8, 0x02#8, 0x03#8, 0x04#8] = 0x04#8
      ∧ blkChecksum [0xFF#8, 0x0F#8] = 0xF0#8 ∧ blkChecksum [0x45#8] = 0x45#8 := by decide
/-- The frames of section 2.2. -/
theorem test_frames :
    frameOf [0x45#8] = [0x45#8, 0x3A#8] ∧ frameOf [0x4F#8] = [0x4F#8, 0x30#8] ∧ frameOf [0x43#8] = [0x43#8, 0x3C#8]
      ∧ frameOf [0x4B#8] = [0x4B#8, 0x34#8] ∧ frameOf [0x67#8, 0x01#8] = [0x67#8, 0x01#8, 0x66#8]
      ∧ frameOf [0x67#8, 0x00#8] = [0x67#8, 0x00#8, 0x67#8] ∧ frameOf [0x56#8] = [0x56#8, 0x29#8]
      ∧ frameOf [0x72#8] = [0x72#8, 0x0D#8] ∧ frameOf [0x41#8] = [0x41#8, 0x3E#8]
      ∧ frameOf [0x58#8] = [0x58#8, 0x27#8] ∧ frameOf [0x48#8] = [0x48#8, 0x37#8]
      ∧ frameOf [0x49#8] = [0x49#8, 0x36#8] ∧ frameOf [0x42#8, 0x34#8] = [0x42#8, 0x34#8, 0x76#8] := by decide
/-- CO1. -/
theorem test_csumc : after (exec (.csumc 1#16) (ready cfgT [0x45#8] [] 0#32)) (fun t => (t.result, statusOf t, t.sent))
    = some (0x3A#8, 0x00000006#32, []) := by decide
/-- CO6 and CO7. -/
theorem test_csumc_stops :
    after (exec (.csumc 257#16) (ready cfgT [] [] 0#32)) statusOf = some 0x00000602#32
      ∧ faultOf (exec (.csumc 1#16) (ready cfgT [] [] 0#32)) = some .txbufUnwritten := by decide
/-- CO3. -/
theorem test_csumb : after (exec (.csumb 4#16) (ready cfgT [0x01#8, 0x02#8, 0x03#8, 0x04#8] [] 0#32))
    (fun t => (t.result, statusOf t)) = some (0x04#8, 0x00000006#32) := by decide

/-! ### The UART framer -/

/-- TR1. -/
theorem test_write : after (exec (.write 1#16) (ready cfgT [0x52#8] [] 0#32)) (fun t => (t.sent, statusOf t, t.result))
    = some ([0x52#8], 0x00000006#32, 0x00#8) := by decide
/-- TR3. -/
theorem test_read_short : after (exec (.read 4#16) (ready cfgT [] [0x12#8, 0x34#8] 0#32))
    (fun t => (rxOf t, t.rxq, statusOf t)) = some (some [0x12#8, 0x34#8], [], 0x00000006#32) := by decide
/-- TR4. -/
theorem test_read_limit : after (exec (.read 2#16) (ready cfgT [] [0x01#8, 0x02#8, 0x03#8] 0#32))
    (fun t => (rxOf t, t.rxq, statusOf t)) = some (some [0x01#8, 0x02#8], [0x03#8], 0x00000006#32) := by decide
/-- TR8. -/
theorem test_rdunt_term : after (exec (.rdunt 256#16 0x44#8) (ready cfgT [] [0x01#8, 0x02#8, 0x44#8, 0x09#8] 0#32))
    (fun t => (rxOf t, t.rxq, statusOf t)) = some (some [0x01#8, 0x02#8], [0x09#8], 0x0000000E#32) := by decide
/-- TR10. -/
theorem test_rdunt_limit : after (exec (.rdunt 2#16 0x44#8) (ready cfgT [] [0x01#8, 0x02#8, 0x03#8, 0x44#8] 0#32))
    (fun t => (rxOf t, t.rxq, statusOf t)) = some (some [0x01#8, 0x02#8], [0x03#8, 0x44#8], 0x00000016#32) := by decide
/-- TR13 and DE5. -/
theorem test_setbaud : after (exec (.setbaud 4#8) (ready cfgT [] [] 0#32)) (fun t => (t.baud, statusOf t))
      = some (4#3, 0x00000006#32)
    ∧ after (exec (.setbaud 7#8) (ready cfgT [] [] 0#32)) (fun t => (t.baud, statusOf t)) = some (0#3, 0x00000602#32) := by
  decide
/-- TR14. -/
theorem test_drain : after (exec .drain (ready cfgT [] [0x00#8, 0xFF#8, 0x7F#8] 0#32))
    (fun t => (t.rxq, t.rxlen, statusOf t)) = some ([], 0#16, 0x00000006#32) := by decide

/-! ### The command protocol -/

/-- SD1. -/
theorem test_send : after (exec (.send 2#16) (ready cfgT [0x42#8, 0x34#8] [] 100000#32))
    (fun t => (t.sent, t.result, statusOf t)) = some ([0x42#8, 0x34#8, 0x76#8], 0x76#8, 0x00000006#32) := by decide
/-- SV1 (with the echo already queued, SV5). -/
theorem test_sendv : after (exec (.sendv 1#16) (ready cfgT [0x45#8] [0x3A#8] 100000#32))
    (fun t => (t.sent, rxOf t, t.result, statusOf t))
      = some ([0x45#8, 0x3A#8], some [0x3A#8], 0x3A#8, 0x00000006#32) := by decide
/-- SV4's comparison, and SV6. -/
theorem test_sendv_nack :
    after (exec (.sendv 1#16) (ready cfgT [0x45#8] [0x00#8, 0x3A#8] 100000#32)) (fun t => (rxOf t, t.rxq, statusOf t))
        = some (some [0x00#8], [0x3A#8], 0x00000102#32)
      ∧ after (exec (.sendv 1#16) (ready cfgT [0x45#8] [] 0#32)) (fun t => (t.rxlen, statusOf t))
        = some (0#16, 0x00000102#32) := by decide
/-- EX1 and EX3, their bytes queued before the deadline. -/
theorem test_expect :
    after (exec (.expect 1#16 1#8) (ready cfgT [0x45#8, 0x41#8] [0x00#8, 0x3A#8, 0x41#8] 0#32))
        (fun t => (t.sent, rxOf t, t.result, statusOf t))
        = some ([0x45#8, 0x3A#8], some [0x00#8, 0x3A#8, 0x41#8], 0x3A#8, 0x00000006#32)
      ∧ after (exec (.expect 1#16 1#8) (ready cfgT [0x45#8, 0x41#8] [0x3A#8, 0x41#8, 0x00#8] 0#32))
        (fun t => (t.rxlen, statusOf t)) = some (3#16, 0x00000102#32) := by decide
/-- EX5 with RXBUF_SIZE = 4: the last four bytes are kept, OK and LIMIT. -/
theorem test_expect_limit :
    after (exec (.expect 1#16 1#8)
        (ready cfgS [0x45#8, 0x41#8] [0x01#8, 0x02#8, 0x03#8, 0x04#8, 0x3A#8, 0x41#8] 0#32))
      (fun t => (rxOf t, statusOf t)) = some (some [0x03#8, 0x04#8, 0x3A#8, 0x41#8], 0x00000016#32) := by decide

/-! ### The transfer engine -/

/-- XF1. -/
theorem test_xfer :
    after (exec .xfer (small [0x27#8, 0x11#8, 0x22#8, 0x33#8, 0x33#8, 0x44#8, 0x77#8])) (fun t => (statusOf t, t.trace))
        = some (0x00000006#32, [.tx 0x58#8, .tx 0x27#8, .tx 0x4B#8, .progress 50#7, .tx 0x4B#8, .progress 100#7])
      ∧ after (exec .xfer (small [0x27#8, 0x11#8, 0x22#8, 0x33#8, 0x33#8, 0x44#8, 0x77#8]))
        (fun t => ([t.blkTotal.toNat, t.blkRcvd.toNat, t.tryNo.toNat, t.progress.toNat, t.imglen.toNat],
          Memory.readBytes t.imgbuf 0 4))
        = some ([2, 2, 1, 100, 4], some [0x11#8, 0x22#8, 0x33#8, 0x44#8]) := by decide
/-- XF4. -/
theorem test_xfer_exhausted :
    after (exec .xfer (small ([0x27#8, 0x11#8, 0x22#8, 0x33#8] ++ [0x33#8, 0x44#8, 0x00#8] ++ [0x33#8, 0x44#8, 0x00#8]
        ++ [0x33#8, 0x44#8, 0x00#8])))
      (fun t => ((statusOf t, t.sent), (t.blkTotal, t.blkRcvd, t.tryNo, t.progress, t.imglen)))
    = some ((0x00000302#32, [0x58#8, 0x27#8, 0x4B#8, 0x52#8, 0x52#8, 0x53#8]), (2#32, 1#32, 3#8, 50#7, 0#32)) := by decide
/-- XF9's second attempt: the late 33 and the resend's first two bytes are accepted as data 33 11. -/
theorem test_xfer_misalignment :
    after (blockMove (inBlock 0 1 none [] [0x33#8, 0x11#8, 0x22#8, 0x33#8])) (fun t => (t.sent, t.imglen, statusOf t))
      = some ([0x4B#8], 2#32, 0x00000001#32) := by decide
/-- R183, no drain: the two bytes after block 0's mismatch start its next attempt, and stay queued after an abort. -/
theorem test_xfer_drains_nothing :
    after (blockMove (inBlock 0 0 none [0x11#8, 0x22#8] [0x00#8, 0x11#8, 0x22#8])) (fun t => (t.sent, t.rxq, t.seq))
        = some ([0x52#8], [], .run xferWord (small []).registerOperands
            (.waitRx ⟨[0x11#8, 0x22#8], some 3, none, none, 3750, .xferBlock 0 1⟩))
      ∧ after (blockMove (inBlock 0 2 none [0x11#8, 0x22#8] [0x00#8, 0x11#8, 0x22#8])) (fun t => (t.sent, t.rxq, statusOf t))
        = some ([0x53#8], [0x11#8, 0x22#8], 0x00000302#32) := by decide
/-- R94: a block read with a byte got takes the next one and goes on waiting, with nothing transmitted. -/
theorem test_xfer_block_waits :
    after (blockMove (inBlock 0 0 none [0x11#8] [0x22#8])) (fun t => (t.sent, t.rxq, t.seq))
      = some ([], [], .run 0#32 (small []).registerOperands
          (.waitRx ⟨[0x11#8, 0x22#8], some 3, none, none, 3750, .xferBlock 0 0⟩)) := by decide
/-- The block timeouts of section 2.8. -/
theorem test_block_timeouts :
    cfgT.baudTable.map (fun r => blockTimeout cfgT r 8192)
        = [10241250, 5120625, 2560313, 1706875, 853438, 426719, 213360]
      ∧ blockTimeout cfgT 9600 2 = 3750 := by decide

/-! ### Wire commands, signals and markers: one step of the HOST's or DEVICE's move -/

/-- E, O, C, K, V, r, A, H and I: each frame of section 2.2 goes out and its queued echo is accepted. -/
theorem test_wire_one_byte_commands :
    [(Instr.wireE, 0x45#8, 0x3A#8), (.wireO, 0x4F#8, 0x30#8), (.wireC, 0x43#8, 0x3C#8), (.wireK, 0x4B#8, 0x34#8),
      (.wireV, 0x56#8, 0x29#8), (.wireR, 0x72#8, 0x0D#8), (.wireA, 0x41#8, 0x3E#8), (.wireH, 0x48#8, 0x37#8),
      (.wireI, 0x49#8, 0x36#8)].all (fun c =>
        after (exec c.1 (ready cfgT [] [c.2.2] 100000#32)) (fun t => (t.sent, statusOf t))
          == some ([c.2.1, c.2.2], 0x00000006#32)) = true := by decide
/-- SV1 as the wire command `E` before its echo comes: a wait for one byte; while BUSY, 45 is stored and F_BUSYWR set. -/
theorem test_wire_waits_and_busy :
    after (exec .wireE (ready cfgT [] [] 100000#32)) (fun t => (t.sent, statusOf t, t.seq)) = some ([0x45#8, 0x3A#8], 1#32,
        .run 0x00010021#32 (ready cfgT [0x45#8] [] 100000#32).registerOperands
          (.waitRx ⟨[], some 1, none, none, 100000, .sendv [0x45#8]⟩))
      ∧ after (exec .wireE (reading ⟨[], some 1, none, none, 9, .sendv [0x4F#8]⟩ (ready cfgT [0x4F#8] [] 9#32)))
        (fun t => (t.sent, statusOf t, t.txbuf)) = some ([], 0x00010001#32, [(0, 0x45#8)]) := by decide
/-- SV8, and the heater-off frame. -/
theorem test_wire_heater :
    after (exec .wireG1 (ready cfgT [] [0x66#8] 100000#32)) (fun t => (t.sent, statusOf t))
        = some ([0x67#8, 0x01#8, 0x66#8], 0x00000006#32)
      ∧ after (exec .wireG0 (ready cfgT [] [0x67#8] 100000#32)) (fun t => (t.sent, statusOf t))
        = some ([0x67#8, 0x00#8, 0x67#8], 0x00000006#32) := by decide
/-- SD1 as the wire command `B4`. -/
theorem test_wire_baud : after (exec (.wireB 0x34#8) (ready cfgT [] [] 0#32)) (fun t => (t.sent, t.rxlen, statusOf t))
    = some ([0x42#8, 0x34#8, 0x76#8], 0#16, 0x00000006#32) := by decide
/-- P4's SENDV, and R155. -/
theorem test_wire_takeImage :
    after (exec (.wireT 0x00#8 0x13#8 0x88#8 0x00#8 0x01#8) (ready cfgT [] [0x4E#8] 100000#32))
        (fun t => (t.sent, t.result, statusOf t))
        = some ([0x54#8, 0x00#8, 0x13#8, 0x88#8, 0x00#8, 0x01#8, 0x4E#8], 0x4E#8, 0x00000006#32)
      ∧ faultOf (exec (.wireT 0x00#8 0x13#8 0x88#8 0x00#8 0x01#8)
          { ready cfgT [] [0x4E#8] 100000#32 with exposing := true }) = some .takeImageDuringExposure := by decide
/-- XF11 by the wire command `X`. -/
theorem test_wire_transfer : after (exec .wireX (small [0x00#8]))
    (fun t => (t.sent, statusOf t, t.blkTotal, rxOf t))
      = some ([0x58#8, 0x27#8], 0x00000202#32, 2#32, some [0x00#8]) := by decide
/-- R146 to R148. -/
theorem test_signals :
    [(Instr.signalK, 0x4B#8), (.signalR, 0x52#8), (.signalS, 0x53#8)].all (fun c =>
      after (exec c.1 (ready cfgT [] [] 0#32)) (fun t => (t.sent, statusOf t)) == some ([c.2], 0x00000006#32)) = true := by
  decide
/-- R149, R150, and TR15 with RXQ_DEPTH = 2. -/
theorem test_markers :
    after (exec .markerD (ready cfgS [] [0x01#8] 0#32)) (fun t => t.rxq) = some [0x01#8, 0x44#8]
      ∧ after (exec .marker1A (ready cfgS [] [] 0#32)) (fun t => t.rxq) = some [0x1A#8]
      ∧ after (deviceMove 0x03#8 (ready cfgS [] [0x01#8, 0x02#8] 0#32)) (fun t => (t.rxq, statusOf t))
        = some ([0x01#8, 0x02#8], 0x00020000#32) := by decide
/-- R155: the checksum of 54 00 00 11 00 01 is 44, so its echo is a byte 44 that ends no exposure: `T` framed again then
faults; the marker `D` ends the exposure, and `T` runs. -/
theorem test_echo_is_not_the_marker :
    cmdChecksum [0x54#8, 0x00#8, 0x00#8, 0x11#8, 0x00#8, 0x01#8] = 0x44#8
      ∧ after (deviceMove 0x44#8 { ready cfgT [] [] 0#32 with exposing := true }) (fun t =>
          faultOf (exec (.wireT 0x00#8 0x00#8 0x11#8 0x00#8 0x01#8) t)) = some (some .takeImageDuringExposure)
      ∧ after (markerMove 0x44#8 { ready cfgT [] [] 0#32 with exposing := true }) (fun t =>
          faultOf (exec (.wireT 0x00#8 0x00#8 0x11#8 0x00#8 0x01#8) t)) = some none := by decide
/-- R143: after the `X` frame come the echo 27 and the blocks under ECHO, the blocks alone under NONE. -/
theorem test_answers_transfer :
    answers .echo 2 .blocks [0x58#8] [0x27#8, 0x11#8, 0x22#8, 0x33#8] = true
      ∧ answers .noEcho 2 .blocks [0x58#8] [0x11#8, 0x22#8, 0x33#8] = true
      ∧ answers .noEcho 2 .blocks [0x58#8] [0x27#8, 0x11#8, 0x22#8, 0x33#8] = false
      ∧ answers .echo 2 .blocks [0x58#8] [0x27#8, 0x11#8, 0x22#8] = false := by decide
/-- C4: a block timeout without the checksum byte's transfer, by the formula and by a table. -/
theorem test_block_timeout_forms :
    blockTimeout { cfgT with blockTimeoutFn := .slacked 8 0 3 2 } 9600 8192 = 10240000
      ∧ blockTimeout { cfgT with blockTimeoutFn := .table [⟨9600, 8192, 7⟩] 9 } 9600 8192 = 7
      ∧ blockTimeout { cfgT with blockTimeoutFn := .table [⟨9600, 8192, 7⟩] 9 } 19200 8192 = 9 := by decide

/-! ### The host bus -/

/-- HB2, HB3, HB4, HB5. -/
theorem test_bus_registers :
    registerValue (hostWrite .w32 0x40000000#32 0xFFFFFFFF#32 (ready cfgT [] [] 0#32)) 0x00 = 0x00000001#32
      ∧ registerValue (hostWrite .w32 0x4000001C#32 0xFFFFFFFF#32 (ready cfgT [] [] 0#32)) 0x1C = 0xFF0FFFFF#32
      ∧ registerValue (hostWrite .w32 0x40000004#32 0xFFFFFFFF#32 (ready cfgT [] [] 0#32)) 0x04 = 0x00000000#32
      ∧ after (hostRead .w32 0x40000008#32 (ready cfgT [] [] 0#32)) (fun t => t.bus) = some (.data 0#32) := by decide
/-- HB1, and STATUS with DONE, LIMIT, ERR = CHECKSUM (3) and F_RXOVR set. -/
theorem test_bus_register_reads :
    [(0x00, 0x0#32), (0x04, 0x0#32), (0x08, 0x0#32), (0x0C, 0x0#32), (0x10, 0x0#32), (0x14, 0x0#32), (0x18, 0x0#32),
      (0x1C, 0x0A021000#32), (0x20, 0x01E00280#32), (0x24, 0x0#32), (0x28, 0x0#32), (0x2C, 0x0#32), (0x30, 0x0#32),
      (0x34, 0x0#32)].all (fun e =>
        after (hostRead .w32 (0x40000000#32 + BitVec.ofNat 32 e.1) (State.resetWith cfgT)) (fun t => t.bus)
          == some (.data e.2)) = true
      ∧ after (hostRead .w32 0x40000004#32 { small [] with status := ⟨true, false, false, true, .checksum, false, true, false⟩ })
          (fun t => t.bus) = some (.data 0x00020312#32) := by decide
/-- HB6; HB7; and a received word of RXBUF in IDLE, whole and its second byte, which faults while an operation runs. -/
theorem test_bus_little_endian :
    after (hostRead .w32 0x40001000#32 (ready cfgT [0x45#8, 0x41#8, 0x42#8, 0x43#8] [] 0#32)) (fun t => t.bus)
        = some (.data 0x43424145#32)
      ∧ after (hostRead .w32 0x40100000#32 { small [] with
          imglen := 4#32, imgbuf := Memory.writeBytes [] 0 [0x11#8, 0x22#8, 0x33#8, 0x44#8] }) (fun t => t.bus)
        = some (.data 0x44332211#32)
      ∧ (let s := { small [] with rxlen := 4#16, rxbuf := Memory.writeBytes [] 0 [0x01#8, 0x02#8, 0x03#8, 0x04#8] }
        after (hostRead .w32 0x40002000#32 s) (fun t => t.bus) = some (.data 0x04030201#32)
          ∧ after (hostRead .w8 0x40002001#32 s) (fun t => t.bus) = some (.data 0x02#32)
          ∧ faultOf (hostRead .w8 0x40002001#32 (reading ⟨[], some 3, none, none, 9, .xferBlock 0 0⟩ s))
            = some .rxbufUndefined) := by decide
/-- HB8 to HB12: bus faults. -/
theorem test_bus_faults :
    [(Width.w8, 0x40000004#32), (.w32, 0x40000038#32), (.w8, 0x40001100#32), (.w32, 0x40000002#32),
      (.w16, 0x40001000#32)].all (fun a =>
        after (hostRead a.1 a.2 (ready cfgT [] [] 0#32)) (fun t => (t.bus, statusOf t)) == some (.error, 0x00040000#32)) = true
      ∧ (hostWrite .w8 0x40002000#32 1#32 (ready cfgT [] [] 0#32)).bus = .error := by decide
/-- HB13: a read of IMGBUF with IMGLEN = 0. -/
theorem test_bus_undefined_image :
    faultOf (hostRead .w8 0x40100000#32 (ready cfgT [] [] 0#32)) = some .imgbufUndefined := by decide
/-- R74: the character of 0x45 is 0, then 1 0 1 0 0 0 1 0, then 1. -/
theorem test_character :
    charBits cfgT.lineFormat 0x45#8 = [false, true, false, true, false, false, false, true, false, true]
      ∧ charBits ⟨8, .even, 2⟩ 0x45#8 = [false, true, false, true, false, false, false, true, false, true, true, true]
      ∧ readChar ⟨8, .even, 2⟩ [false, true, false, true, false, false, false, true, false, false, true, true] = none := by
  decide
/-- R74, the line idle at 1: before the first byte, and around a character of 0x45 with two idle bit times before it and
three after; a receiver reads 45 from it, nothing from an idle line, and no character where a stop bit is 0. -/
theorem test_idle_line :
    State.reset.lineOut (fun _ => 3) = [true, true, true]
      ∧ { small [] with trace := [.tx 0x45#8] }.lineOut (fun k => k + 2)
        = [true, true] ++ [false, true, false, true, false, false, false, true, false, true] ++ [true, true, true]
      ∧ readLine cfgT.lineFormat 15
          ([true, true] ++ [false, true, false, true, false, false, false, true, false, true] ++ [true, true, true])
        = some [0x45#8]
      ∧ readLine cfgT.lineFormat 15 [true, true, true] = some []
      ∧ readLine cfgT.lineFormat 15 [false, true, false, true, false, false, false, true, false, false] = none := by decide

/-! ### Witnesses: states and operands that meet the hypotheses of the obligations -/

theorem witness_EveryEncodingHasOneMeaning :
    decode (.op 0x01004412#32) = .ok (.rdunt 256#16 0x44#8) ∧ decode (.frame [0x67#8, 0x00#8]) = .ok .wireG0
      ∧ decode (.signal 0x52#8) = .ok .signalR ∧ decode (.marker 0x1A#8) = .ok .marker1A := by decide

theorem witness_ReservedOpcodeFinishesIllegalOp :
    (ready cfgT [] [] 0#32).busy = false
      ∧ ∀ w ∈ [0x00, 0x03, 0x0F, 0x15, 0x1F, 0x23, 0x2F, 0x31, 0xFF],
          (opcOf (BitVec.ofNat 32 w)).toNat ∉ listedOpcodes := by decide

/-- The three disjuncts of the first clause, and one ill-formed operation of each range for the second. -/
theorem witness_IllegalOperandFinishesBadArg :
    (ready cfgT [] [] 0#32).busy = false
      ∧ ((opcOf 0x00000101#32).toNat ∈ [0x01, 0x02, 0x10, 0x11, 0x20, 0x21] ∧ bOf 0x00000101#32 ≠ 0#8)
      ∧ ((opcOf 0x00010013#32).toNat = 0x13 ∧ nOf 0x00010013#32 ≠ 0#16)
      ∧ ((opcOf 0xFFFF0030#32).toNat ∈ [0x14, 0x30] ∧ (bOf 0xFFFF0030#32 ≠ 0#8 ∨ nOf 0xFFFF0030#32 ≠ 0#16))
      ∧ ∀ p ∈ [(Instr.csumc 257#16, 0x01010001#32), (.read 257#16, 0x01010011#32), (.rdunt 0#16 0#8, 0x00000012#32),
          (.setbaud 7#8, 0x00000713#32), (.sendv 0#16, 0x00000021#32), (.expect 2#16 255#8, 0x0002FF22#32)],
          encode p.1 = .op p.2 ∧ p.1.wf (ready cfgT [] [] 0#32).cfg = false := by decide

theorem witness_StepRunsTheDecodedInstruction :
    (∀ inputs ∈ [[Move.block], []],
        { acceptOp 0x00000014#32 (ready cfgT [] [] 0#32) with inputs := inputs }.seq
            = .run 0x00000014#32 (ready cfgT [] [] 0#32).operands .exec
          ∧ { acceptOp 0x00000014#32 (ready cfgT [] [] 0#32) with inputs := inputs }.inputs = inputs)
      ∧ decode (.op 0x00000014#32) = .ok .drain
      ∧ { ready cfgT [] [] 0#32 with inputs := [Move.command [0x45#8]] }.inputs = [Move.command [0x45#8]]
      ∧ decode (.frame [0x45#8]) = .ok .wireE
      ∧ { ready cfgT [] [] 0#32 with inputs := [Move.signal 0x53#8] }.inputs = [Move.signal 0x53#8]
      ∧ decode (.signal 0x53#8) = .ok .signalS
      ∧ { ready cfgT [] [] 0#32 with inputs := [Move.marker 0x44#8] }.inputs = [Move.marker 0x44#8]
      ∧ decode (.marker 0x44#8) = .ok .markerD := by decide

theorem witness_PlacedTableWordRunsNext :
    decodeTableWord 32 0x00000014 = some .drain ∧ decodeTableWord 8 0x45 = some .wireE
      ∧ decodeTableWord 8 0x52 = some .signalR ∧ decodeTableWord 8 0x44 = some .markerD := by decide

/-- IDLE and BUSY, at the OP offset; for both statements about the OP write. -/
theorem witness_OpWriteStartsAnOperation :
    busOffset (ready cfgT [] [] 0#32).cfg 0x40000008#32 = 0x08 ∧ (ready cfgT [] [] 0#32).busy = false
      ∧ busOffset (acceptOp 0x14#32 (ready cfgT [] [] 0#32)).cfg 0x40000008#32 = 0x08
      ∧ (acceptOp 0x14#32 (ready cfgT [] [] 0#32)).busy = true := by decide

theorem witness_OperandsAreLatchedAtTheOpWrite :
    (ready cfgT [0x45#8] [] 7#32).busy = false ∧ (acceptOp 0x21#32 (ready cfgT [0x45#8] [] 7#32)).busy = true := by decide

theorem witness_CommandChecksumClosedForm : [0x41#8, 0x42#8].Perm [0x42#8, 0x41#8] := by decide

/-- The least and greatest bit positions of the two statements about bit flips. -/
theorem witness_ChecksumFlips : 0 ≤ 6 ∧ 6 ≤ 6 ∧ 0 ≤ 7 ∧ 7 ≤ 7 := by decide

/-- n = 0, and n = TXBUF_SIZE, with their bytes written: for CSUMC, CSUMB and WRITE. -/
theorem witness_CsumcCsumbWrite :
    (0#16).toNat ≤ (ready cfgS [] [] 0#32).cfg.txbufSize
      ∧ Memory.readBytes (ready cfgS [] [] 0#32).operands.txbuf 0 (0#16).toNat = some []
      ∧ (8#16).toNat ≤ (ready cfgS [1#8, 2#8, 3#8, 4#8, 5#8, 6#8, 7#8, 8#8] [] 0#32).cfg.txbufSize
      ∧ Memory.readBytes (ready cfgS [1#8, 2#8, 3#8, 4#8, 5#8, 6#8, 7#8, 8#8] [] 0#32).operands.txbuf 0 (8#16).toNat
          = some [1#8, 2#8, 3#8, 4#8, 5#8, 6#8, 7#8, 8#8] := by decide

/-- n = RXBUF_SIZE with exactly n bytes queued; TIMEOUT = 0; one byte too few with a timeout. -/
theorem witness_ReadReturnsTheOldestQueuedBytes :
    (4#16).toNat ≤ cfgS.rxbufSize
      ∧ (4#16).toNat ≤ (ready cfgS [] [1#8, 2#8, 3#8, 4#8] 9#32).rxq.length
      ∧ (ready cfgS [] [] 0#32).operands.timeout = 0#32
      ∧ (ready cfgS [] [1#8, 2#8, 3#8] 1#32).rxq.length < (4#16).toNat
      ∧ (ready cfgS [] [1#8, 2#8, 3#8] 1#32).operands.timeout ≠ 0#32 := by decide

/-- A waiting READ 4 with two bytes got: its last byte just there, and more than it needs; expired with k = 0, and with
one byte queued within k = 1 and one after it; one byte too few before the deadline. -/
theorem witness_ReadWaits :
    (reading ⟨[1#8, 2#8], some 4, none, none, 9, .read⟩ (ready cfgS [] [3#8, 4#8] 9#32)).seq
        = .run 0#32 (ready cfgS [] [3#8, 4#8] 9#32).registerOperands
            (.waitRx ⟨[1#8, 2#8], some 4, none, none, 9, .read⟩)
      ∧ [1#8, 2#8].length ≤ 4 ∧ 4 ≤ [1#8, 2#8].length + (ready cfgS [] [3#8, 4#8] 9#32).rxq.length
      ∧ 4 ≤ [1#8, 2#8].length + (ready cfgS [] [3#8, 4#8, 5#8] 9#32).rxq.length
      ∧ (ReadCtx.mk [1#8, 2#8] (some 4) none (some 0) 9 .read).budget = some 0
      ∧ after (blockMove (reading ⟨[1#8, 2#8], some 4, none, some 1, 9, .read⟩ (ready cfgS [] [3#8, 4#8] 9#32)))
          (fun t => (rxOf t, t.rxq)) = some (some [1#8, 2#8, 3#8], [4#8])
      ∧ [1#8, 2#8].length + (ready cfgS [] [3#8] 9#32).rxq.length < 4 :=
  ⟨rfl, by decide, by decide, by decide, rfl, by decide, by decide⟩

/-- The terminator first (n = 1), and last before the limit (n = RXBUF_SIZE). -/
theorem witness_RduntStopsAtTheTerminator :
    1 ≤ (1#16).toNat ∧ (1#16).toNat ≤ cfgS.rxbufSize ∧ (ready cfgS [] [0x44#8] 0#32).rxq = [] ++ 0x44#8 :: []
      ∧ 0x44#8 ∉ ([] : List Byte) ∧ ([] : List Byte).length < (1#16).toNat
      ∧ (4#16).toNat ≤ cfgS.rxbufSize
      ∧ (ready cfgS [] [1#8, 2#8, 3#8, 0x44#8, 9#8] 0#32).rxq = [1#8, 2#8, 3#8] ++ 0x44#8 :: [9#8]
      ∧ 0x44#8 ∉ [1#8, 2#8, 3#8] ∧ [1#8, 2#8, 3#8].length < (4#16).toNat := by decide

/-- A waiting RDUNT 4, D with two bytes got: the terminator last before the limit and last within the budget. -/
theorem witness_RduntWaitsForTheTerminator :
    (reading ⟨[1#8, 2#8], some 4, some 0x44#8, some 2, 9, .rdunt 0x44#8⟩
          (ready cfgS [] [3#8, 0x44#8, 9#8] 9#32)).seq
        = .run 0#32 (ready cfgS [] [3#8, 0x44#8, 9#8] 9#32).registerOperands
            (.waitRx ⟨[1#8, 2#8], some 4, some 0x44#8, some 2, 9, .rdunt 0x44#8⟩)
      ∧ (ready cfgS [] [3#8, 0x44#8, 9#8] 9#32).rxq = [3#8] ++ 0x44#8 :: [9#8] ∧ 0x44#8 ∉ [3#8]
      ∧ [1#8, 2#8].length + [3#8].length < 4 ∧ [3#8].length < 2 :=
  ⟨rfl, rfl, by decide, by decide, by decide⟩

/-- The terminator right after the limit; and one byte below the limit at TIMEOUT = 0. -/
theorem witness_RduntStopsAtTheLimitOrTheTimeout :
    1 ≤ (4#16).toNat ∧ (4#16).toNat ≤ cfgS.rxbufSize
      ∧ (4#16).toNat ≤ (ready cfgS [] [1#8, 2#8, 3#8, 4#8, 0x44#8] 0#32).rxq.length
      ∧ 0x44#8 ∉ (ready cfgS [] [1#8, 2#8, 3#8, 4#8, 0x44#8] 0#32).rxq.take (4#16).toNat
      ∧ (ready cfgS [] [1#8, 2#8, 3#8] 0#32).rxq.length < (4#16).toNat
      ∧ 0x44#8 ∉ (ready cfgS [] [1#8, 2#8, 3#8] 0#32).rxq
      ∧ (ready cfgS [] [1#8, 2#8, 3#8] 0#32).operands.timeout = 0#32
      ∧ (ready cfgS [] [1#8, 2#8, 3#8] 9#32).rxq.length < (4#16).toNat
      ∧ 0x44#8 ∉ (ready cfgS [] [1#8, 2#8, 3#8] 9#32).rxq
      ∧ (ready cfgS [] [1#8, 2#8, 3#8] 9#32).operands.timeout ≠ 0#32 := by decide

/-- A waiting RDUNT 4, D with two bytes got: two more before the terminator, the second the budget's last; expired with
one byte within its budget and the terminator after it; one byte too few before the deadline. -/
theorem witness_RduntWaitsForTheLimitOrTheTimeout :
    (reading ⟨[1#8, 2#8], some 4, some 0x44#8, some 2, 9, .rdunt 0x44#8⟩
          (ready cfgS [] [3#8, 4#8, 0x44#8] 9#32)).seq
        = .run 0#32 (ready cfgS [] [3#8, 4#8, 0x44#8] 9#32).registerOperands
            (.waitRx ⟨[1#8, 2#8], some 4, some 0x44#8, some 2, 9, .rdunt 0x44#8⟩)
      ∧ [1#8, 2#8].length + 2 = 4 ∧ 2 ≤ (ready cfgS [] [3#8, 4#8, 0x44#8] 9#32).rxq.length
      ∧ 0x44#8 ∉ (ready cfgS [] [3#8, 4#8, 0x44#8] 9#32).rxq.take 2
      ∧ 0x44#8 ∉ (ready cfgS [] [3#8, 0x44#8] 9#32).rxq.take 1
      ∧ [1#8, 2#8].length + ((ready cfgS [] [3#8, 0x44#8] 9#32).rxq.take 1).length < 4
      ∧ 0x44#8 ∉ (ready cfgS [] [3#8] 9#32).rxq ∧ [1#8, 2#8].length + (ready cfgS [] [3#8] 9#32).rxq.length < 4 :=
  ⟨rfl, by decide, by decide, by decide, by decide, by decide, by decide, by decide⟩

theorem witness_SetbaudSelectsTheRate : (6#8).toNat ≤ 6 ∧ 6 < (7#8).toNat
    ∧ (ready cfgS [] [] 0#32).busy = false ∧ opcOf 0x00010013#32 = 0x13#8 ∧ nOf 0x00010013#32 ≠ 0#16 := by decide

theorem witness_DrainDiscardsTheQueue :
    (∃ t, exec .drain (ready cfgS [] [1#8] 0#32) = .next t) ∧ 0 < (ready cfgS [] [1#8] 0#32).cfg.rxqDepth
      ∧ (ready cfgS [] [1#8] 0#32).busy = false ∧ opcOf 0x00000114#32 = 0x14#8 ∧ bOf 0x00000114#32 ≠ 0#8
      ∧ opcOf 0x00010014#32 = 0x14#8 ∧ nOf 0x00010014#32 ≠ 0#16 :=
  ⟨⟨_, rfl⟩, by decide⟩

/-- A read that saw its terminator, one that met its limit, one that spent its budget. -/
theorem witness_ReadTakesAPrefixOfTheQueue :
    (∃ t, rxContinue 0#32 (small []).operands ⟨[], some 4, some 0x44#8, none, 9, .rdunt 0x44#8⟩ (small [1#8, 0x44#8])
        = .returned [1#8] true false t)
      ∧ (∃ t, rxContinue 0#32 (small []).operands ⟨[1#8], some 2, some 0x44#8, none, 9, .rdunt 0x44#8⟩
          (small [2#8, 3#8]) = .returned [1#8, 2#8] false true t)
      ∧ (∃ t, rxContinue 0#32 (small []).operands ⟨[], some 4, none, some 1, 9, .read⟩ (small [2#8, 3#8])
          = .returned [2#8] false false t) := ⟨⟨_, rfl⟩, ⟨_, rfl⟩, ⟨_, rfl⟩⟩

theorem witness_ReadWaitsOnlyOnAnEmptyQueue :
    ∃ t, rxContinue 0#32 (small []).operands ⟨[1#8], some 3, some 0x44#8, none, 9, .rdunt 0x44#8⟩ (small [2#8])
      = .waiting t := ⟨_, rfl⟩

theorem witness_ExpiredReadTakesNoLateByte :
    (inBlock 0 0 none [0x11#8] [0x22#8]).seq
        = .run 0#32 (small [0x22#8]).registerOperands (.waitRx ⟨[0x11#8], some 3, none, none, 3750, .xferBlock 0 0⟩)
      := rfl

/-- n = 1, and n = TXBUF_SIZE; and a take-image command while no exposure is in progress. -/
theorem witness_SendTransmitsTheFrame :
    1 ≤ (1#16).toNat ∧ (1#16).toNat ≤ cfgS.txbufSize
      ∧ Memory.readBytes (ready cfgS [0x45#8] [] 0#32).operands.txbuf 0 (1#16).toNat = some [0x45#8]
      ∧ (isTakeImage [0x45#8] && (ready cfgS [0x45#8] [] 0#32).exposing) = false
      ∧ (8#16).toNat ≤ cfgS.txbufSize
      ∧ Memory.readBytes (ready cfgS [1#8, 2#8, 3#8, 4#8, 5#8, 6#8, 7#8, 8#8] [] 0#32).operands.txbuf 0 (8#16).toNat
          = some [1#8, 2#8, 3#8, 4#8, 5#8, 6#8, 7#8, 8#8]
      ∧ Memory.readBytes (ready cfgS [0x54#8, 0#8, 0#8, 1#8, 0#8, 1#8] [] 0#32).operands.txbuf 0 (6#16).toNat
          = some [0x54#8, 0#8, 0#8, 1#8, 0#8, 1#8]
      ∧ (isTakeImage [0x54#8, 0#8, 0#8, 1#8, 0#8, 1#8] && (ready cfgS [] [] 0#32).exposing) = false := by decide

/-- The echo, another byte, and no byte with and without a timeout; and a device that answers. -/
theorem witness_Sendv :
    1 ≤ (1#16).toNat ∧ (1#16).toNat ≤ cfgS.txbufSize
      ∧ Memory.readBytes (ready cfgS [0x45#8] [0x3A#8] 9#32).operands.txbuf 0 (1#16).toNat = some [0x45#8]
      ∧ (isTakeImage [0x45#8] && (ready cfgS [0x45#8] [0x3A#8] 9#32).exposing) = false
      ∧ (ready cfgS [0x45#8] [0x3A#8] 9#32).rxq = 0x3A#8 :: []
      ∧ (ready cfgS [0x45#8] [0x3B#8, 1#8] 9#32).rxq = 0x3B#8 :: [1#8]
      ∧ (ready cfgS [0x45#8] [] 0#32).rxq = [] ∧ (ready cfgS [0x45#8] [] 0#32).operands.timeout = 0#32
      ∧ (ready cfgS [0x45#8] [] 9#32).operands.timeout ≠ 0#32 ∧ 0 < cfgS.rxqDepth
      ∧ (after (exec (.sendv 1#16) (ready cfgS [0x45#8] [] 9#32)) (fun t => t.busy)) = some true := by decide

/-- A waiting SENDV: with a byte queued before and within the deadline, expired with none, and expired with a late byte
only. -/
theorem witness_SendvWaits :
    (reading ⟨[], some 1, none, some 1, 9, .sendv [0x45#8]⟩ (ready cfgS [] [0x3A#8] 9#32)).seq
        = .run 0#32 (ready cfgS [] [0x3A#8] 9#32).registerOperands
            (.waitRx ⟨[], some 1, none, some 1, 9, .sendv [0x45#8]⟩)
      ∧ some 1 ≠ some 0 ∧ (none : Option Nat) ≠ some 0 ∧ (ready cfgS [] [0x3A#8] 9#32).rxq = 0x3A#8 :: []
      ∧ some 0 ≠ none ∧ (ready cfgS [] [] 9#32).rxq = []
      ∧ after (blockMove (reading ⟨[], some 1, none, some 0, 9, .sendv [0x45#8]⟩ (ready cfgS [] [0x3A#8] 9#32)))
          (fun t => (t.rxlen, t.rxq, statusOf t)) = some (0#16, [0x3A#8], 0x00000102#32) :=
  ⟨rfl, by decide, by decide, rfl, by decide, rfl, by decide⟩

/-- n + m = TXBUF_SIZE and m + 1 = RXBUF_SIZE, with TIMEOUT = 0 and not. -/
theorem witness_Expect :
    1 ≤ (5#16).toNat ∧ (5#16).toNat + (3#8).toNat ≤ cfgS.txbufSize ∧ (3#8).toNat + 1 ≤ cfgS.rxbufSize
      ∧ Memory.readBytes (ready cfgS [1#8, 2#8, 3#8, 4#8, 5#8, 6#8, 7#8, 8#8] [] 0#32).operands.txbuf 0 (5#16).toNat
          = some [1#8, 2#8, 3#8, 4#8, 5#8]
      ∧ Memory.readBytes (ready cfgS [1#8, 2#8, 3#8, 4#8, 5#8, 6#8, 7#8, 8#8] [] 0#32).operands.txbuf (5#16).toNat
          (3#8).toNat = some [6#8, 7#8, 8#8]
      ∧ (isTakeImage [1#8, 2#8, 3#8, 4#8, 5#8] && (ready cfgS [] [] 0#32).exposing) = false
      ∧ (ready cfgS [] [] 0#32).operands.timeout = 0#32 ∧ (ready cfgS [] [] 9#32).operands.timeout ≠ 0#32 := by decide

theorem witness_ExpectWaits :
    (reading ⟨[1#8], none, none, none, 9, .expect [0x45#8] []⟩ (ready cfgS [] [2#8] 9#32)).seq
      = .run 0#32 (ready cfgS [] [2#8] 9#32).registerOperands
          (.waitRx ⟨[1#8], none, none, none, 9, .expect [0x45#8] []⟩) := rfl

/-- EX1 at a real deadline: m + 1 = RXBUF_SIZE, the last byte of the reply the budget's last and a late byte after it. -/
theorem witness_ExpectDeadline :
    (reading ⟨[0#8, 0x3A#8], none, none, some 1, 9, .expect [0x45#8] [0x41#8]⟩ (ready cfgS [] [0x41#8, 9#8] 9#32)).seq
        = .run 0#32 (ready cfgS [] [0x41#8, 9#8] 9#32).registerOperands
            (.waitRx ⟨[0#8, 0x3A#8], none, none, some 1, 9, .expect [0x45#8] [0x41#8]⟩)
      ∧ [0x41#8].length + 1 ≤ cfgS.rxbufSize ∧ [1#8, 2#8, 3#8].length + 1 ≤ cfgS.rxbufSize
      ∧ [0#8, 0x3A#8, 0x41#8] = [0#8, 0x3A#8] ++ (ready cfgS [] [0x41#8, 9#8] 9#32).rxq.take 1
      ∧ after (blockMove (reading ⟨[0#8, 0x3A#8], none, none, some 1, 9, .expect [0x45#8] [0x41#8]⟩
          (ready cfgS [] [0x41#8, 9#8] 9#32))) (fun t => (rxOf t, t.rxq, statusOf t))
          = some (some [0#8, 0x3A#8, 0x41#8], [9#8], 0x00000006#32) :=
  ⟨rfl, by decide, by decide, rfl, by decide⟩

/-- m = 0, and 6 + m = TXBUF_SIZE. -/
theorem witness_TakeImageDuringExposureFaults :
    { ready cfgS [0x54#8, 0#8, 0#8, 1#8, 0#8, 1#8, 7#8, 8#8] [] 0#32 with exposing := true }.exposing = true
      ∧ 6 + (0#8).toNat ≤ cfgS.txbufSize ∧ 6 + (2#8).toNat ≤ cfgS.txbufSize ∧ (2#8).toNat + 1 ≤ cfgS.rxbufSize
      ∧ Memory.readBytes { ready cfgS [0x54#8, 0#8, 0#8, 1#8, 0#8, 1#8, 7#8, 8#8] [] 0#32 with
          exposing := true }.operands.txbuf 0 6 = some [0x54#8, 0#8, 0#8, 1#8, 0#8, 1#8]
      ∧ (Memory.readBytes { ready cfgS [0x54#8, 0#8, 0#8, 1#8, 0#8, 1#8, 7#8, 8#8] [] 0#32 with
          exposing := true }.operands.txbuf 6 (2#8).toNat).isSome = true := by decide

/-- RXBUF past RXLEN and while BUSY, IMGBUF past IMGLEN, and TXBUF bytes not written: the first and the last. -/
theorem witness_UndefinedBytesFault :
    busTarget cfgT .w8 (busOffset cfgT 0x40002000#32) = .rx 0 ∧ (ready cfgT [] [] 0#32).rxlen.toNat < 0 + Width.w8.bytes
      ∧ (acceptOp 0x14#32 (ready cfgT [] [] 0#32)).busy = true
      ∧ busTarget cfgT .w32 (busOffset cfgT 0x40100000#32) = .img 0
      ∧ (ready cfgT [] [] 0#32).imglen.toNat < 0 + Width.w32.bytes
      ∧ (8#16).toNat ≤ cfgS.txbufSize ∧ 7 < (8#16).toNat
      ∧ Memory.read (ready cfgS [1#8, 2#8, 3#8, 4#8, 5#8, 6#8, 7#8] [] 0#32).operands.txbuf 7 = none
      ∧ Memory.read (ready cfgS [] [] 0#32).operands.txbuf 0 = none
      ∧ 1 ≤ (5#16).toNat ∧ (5#16).toNat + (3#8).toNat ≤ cfgS.txbufSize ∧ (3#8).toNat + 1 ≤ cfgS.rxbufSize
      ∧ 7 < (5#16).toNat + (3#8).toNat := by decide

/-- One configuration for each disjunct: XF15, XF17, XF14 and their like. -/
theorem witness_XferRefusesIllegalConfigurations :
    { small [] with xferCfg := 0x03010000#32 }.operands.blockPixels = 0
      ∧ { small [] with xferCfg := 0x03000002#32 }.operands.pixelSize = 0
      ∧ { small [] with xferCfg := 0x00010002#32 }.operands.maxTries = 0
      ∧ { small [] with imgDim := 0x00010000#32 }.operands.imgW = 0
      ∧ { small [] with imgDim := 0x00000004#32 }.operands.imgH = 0
      ∧ ({ small [] with imgDim := 0x00010005#32 }.operands.imgW * { small [] with imgDim := 0x00010005#32 }.operands.imgH)
          % { small [] with imgDim := 0x00010005#32 }.operands.blockPixels ≠ 0
      ∧ cfgT.blkbufSize < { small [] with xferCfg := 0x0A021001#32 }.operands.blockPixels
          * { small [] with xferCfg := 0x0A021001#32 }.operands.pixelSize + 1
      ∧ cfgT.imgbufSize < { small [] with imgDim := 0xFFFF0280#32 }.operands.imgW
          * { small [] with imgDim := 0xFFFF0280#32 }.operands.imgH
          * { small [] with imgDim := 0xFFFF0280#32 }.operands.pixelSize := by decide

/-- XF11, XF12 and their like: under ECHO nothing queued with and without a timeout, another byte, and the echo; under
NONE nothing queued. -/
theorem witness_XferBeginsWithTheXFrame :
    xferConfigOk (small []).cfg (small []).operands = true ∧ (small []).cfg.xferBeginAck = .echo
      ∧ (small []).rxq = [] ∧ (small []).operands.timeout ≠ 0#32
      ∧ { small [] with timeout := 0#32 }.operands.timeout = 0#32
      ∧ xferConfigOk cfgT { small [] with timeout := 0#32 }.operands = true
      ∧ (small [0x26#8]).rxq = 0x26#8 :: [] ∧ 0x26#8 ≠ 0x27#8
      ∧ (small [0x27#8, 0x11#8, 0x22#8]).rxq = 0x27#8 :: [0x11#8, 0x22#8]
      ∧ [0x11#8, 0x22#8].length ≤ (small []).operands.blockBytes ∧ (small []).operands.blockReadTimeout cfgT ≠ 0
      ∧ { cfgT with xferBeginAck := .noEcho }.xferBeginAck = .noEcho
      ∧ xferConfigOk { cfgT with xferBeginAck := .noEcho } (small []).operands = true
      ∧ (small []).operands.blockReadTimeout { cfgT with xferBeginAck := .noEcho } ≠ 0 := by decide

/-- The begin-echo read: before its deadline with nothing queued; expired with nothing queued (XF12) and with a late byte, another byte, and the echo as the
budget's last byte. -/
theorem witness_XferEchoRead :
    (reading ⟨[], some 1, none, some 1, 9, .xferEcho⟩ (small [0x27#8])).seq
        = .run 0#32 (small [0x27#8]).registerOperands (.waitRx ⟨[], some 1, none, some 1, 9, .xferEcho⟩)
      ∧ some 1 ≠ some 0 ∧ (small [0x27#8]).rxq = [0x27#8]
      ∧ xferConfigOk cfgT (small [0x27#8]).registerOperands = true
      ∧ (small [0x27#8]).registerOperands.blockReadTimeout cfgT ≠ 0
      ∧ (small [0x27#8, 0x11#8, 0x22#8]).rxq = 0x27#8 :: [0x11#8, 0x22#8]
      ∧ [0x11#8, 0x22#8].length ≤ (small []).registerOperands.blockBytes
      ∧ (reading ⟨[], some 1, none, none, 9, .xferEcho⟩ (small [])).seq
        = .run 0#32 (small []).registerOperands (.waitRx ⟨[], some 1, none, none, 9, .xferEcho⟩)
      ∧ some 0 ≠ none ∧ (small []).rxq = [] ∧ (small [0x26#8]).rxq = 0x26#8 :: [] ∧ 0x26#8 ≠ 0x27#8
      ∧ after (blockMove (reading ⟨[], some 1, none, some 0, 9, .xferEcho⟩ (small [0x27#8])))
          (fun t => (t.rxlen, t.rxq, statusOf t)) = some (0#16, [0x27#8], 0x00000202#32) :=
  ⟨rfl, by decide, rfl, by decide, by decide, rfl, by decide, rfl, by decide, rfl, rfl, by decide, by decide⟩

/-- XF1 with a byte after the image: for XFER and for the wire command `X`. -/
theorem witness_XferAssemblesTheImage :
    (small []).seq = .idle ∧ (small []).cfg.wf = true ∧ xferConfigOk (small []).cfg (small []).operands = true
      ∧ xferConfigOk (small []).cfg (small []).registerOperands = true
      ∧ HoldsImage (small []).operands [[0x11#8, 0x22#8], [0x33#8, 0x44#8]] [0x99#8]
          (small [0x27#8, 0x11#8, 0x22#8, 0x33#8, 0x33#8, 0x44#8, 0x77#8, 0x99#8])
      ∧ HoldsImage (small []).registerOperands [[0x11#8, 0x22#8], [0x33#8, 0x44#8]] []
          { small [0x11#8, 0x22#8, 0x33#8, 0x33#8, 0x44#8, 0x77#8] with cfg := { cfgT with xferBeginAck := .noEcho } }
      := by
  refine ⟨rfl, by decide, by decide, by decide, ⟨by decide, by decide, rfl⟩, ⟨by decide, by decide, rfl⟩⟩

/-- Block 0 of 2: one byte got and one queued, one short of its three; its last byte just arrived: valid, with nothing after it and with a rest of two bytes (a block less one
byte) queued, and corrupt under CHK_DIS = 1; and the last block with a byte after the image, its checksum the budget's last
byte. -/
theorem witness_ValidBlockIsStoredAndTheNextOneRead :
    let o := (small [0x33#8]).registerOperands
    let u := { o with chkDis := true }
    (inBlock 0 0 none [0x11#8, 0x22#8] [0x33#8]).seq
        = .run 0#32 o (.waitRx ⟨[0x11#8, 0x22#8], some 3, none, none, 3750, .xferBlock 0 0⟩)
      ∧ (inBlock 0 0 none [0x11#8] [0x22#8]).seq
        = .run 0#32 o (.waitRx ⟨[0x11#8], some 3, none, none, 3750, .xferBlock 0 0⟩)
      ∧ [0x11#8].length + (inBlock 0 0 none [0x11#8] [0x22#8]).rxq.length ≤ o.blockBytes
      ∧ some 3 = some (o.blockBytes + 1) ∧ [0x11#8, 0x22#8].length = o.blockBytes
      ∧ [0x11#8, 0x22#8] ++ [0x33#8] = [0x11#8, 0x22#8] ++ 0x33#8 :: []
      ∧ [0x11#8, 0x22#8] ++ [0x33#8, 0x33#8, 0x44#8] = [0x11#8, 0x22#8] ++ 0x33#8 :: [0x33#8, 0x44#8]
      ∧ [0x33#8, 0x44#8].length ≤ o.blockBytes
      ∧ 0x33#8 = blkChecksum [0x11#8, 0x22#8]
      ∧ 0 + 1 < o.totalBlocks ∧ 0 < o.maxTries ∧ o.blockReadTimeout cfgT ≠ 0
      ∧ u.chkDis = true ∧ 0x34#8 ≠ blkChecksum [0x11#8, 0x22#8] ∧ 0 + 1 < u.totalBlocks ∧ u.blockReadTimeout cfgT ≠ 0
      ∧ (inBlock 1 2 (some 1) [0x33#8, 0x44#8] [0x77#8, 0x99#8]).seq
        = .run 0#32 o (.waitRx ⟨[0x33#8, 0x44#8], some 3, none, some 1, 3750, .xferBlock 1 2⟩)
      ∧ [0x33#8, 0x44#8] ++ [0x77#8, 0x99#8] = [0x33#8, 0x44#8] ++ 0x77#8 :: [0x99#8]
      ∧ o.blockBytes + 1 ≤ [0x33#8, 0x44#8].length + 1 ∧ 0x77#8 = blkChecksum [0x33#8, 0x44#8]
      ∧ 1 + 1 = o.totalBlocks :=
  ⟨rfl, rfl, by decide, by decide, by decide, rfl, rfl, by decide, by decide, by decide, by decide, by decide, rfl, by decide, by decide,
    by decide, rfl, rfl, by decide, by decide, by decide⟩

/-- At the last attempt but one and at the last one, for both statements about failed attempts: a mismatch with two bytes
queued past it, one in an expired read with its budget just enough, and a short read whose budget is below the length of
RXQ, the byte past it staying. -/
theorem witness_FailedAttempts :
    let o := (small []).registerOperands
    let d := [0x11#8, 0x22#8, 0x00#8]
    ((inBlock 0 1 none [0x11#8, 0x22#8] [0x00#8, 0x11#8, 0x22#8]).seq
        = .run 0#32 o (.waitRx ⟨[0x11#8, 0x22#8], some 3, none, none, 3750, .xferBlock 0 1⟩)
      ∧ some 3 = some (o.blockBytes + 1) ∧ 1 + 1 < o.maxTries ∧ o.maxTries ≤ 2 + 1 ∧ o.blockReadTimeout cfgT ≠ 0
      ∧ [0x11#8, 0x22#8] ++ [0x00#8, 0x11#8, 0x22#8] = d ++ [0x11#8, 0x22#8] ∧ [0x11#8, 0x22#8].length ≤ o.blockBytes
      ∧ d.length = o.blockBytes + 1 ∧ o.chkDis = false ∧ d[o.blockBytes]? ≠ some (blkChecksum (d.take o.blockBytes)))
    ∧ ((inBlock 0 2 (some 1) [0x11#8, 0x22#8] [0x00#8, 0x33#8]).seq
        = .run 0#32 o (.waitRx ⟨[0x11#8, 0x22#8], some 3, none, some 1, 3750, .xferBlock 0 2⟩)
      ∧ [0x11#8, 0x22#8] ++ [0x00#8, 0x33#8] = d ++ [0x33#8] ∧ o.blockBytes + 1 ≤ [0x11#8, 0x22#8].length + 1)
    ∧ ((inBlock 0 2 (some 1) [0x11#8] [0x22#8, 0x33#8]).seq
        = .run 0#32 o (.waitRx ⟨[0x11#8], some 3, none, some 1, 3750, .xferBlock 0 2⟩)
      ∧ [0x11#8] ++ [0x22#8, 0x33#8] = [0x11#8, 0x22#8] ++ [0x33#8] ∧ [0x33#8].length ≤ o.blockBytes
      ∧ [0x11#8, 0x22#8] = [0x11#8] ++ [0x22#8, 0x33#8].take 1) := by decide

theorem witness_AttemptAcceptanceRule :
    [0x11#8, 0x22#8, 0x33#8].length ≤ (small []).operands.blockBytes + 1 ∧ ([] : List Byte).length ≤ (small []).operands.blockBytes + 1
      := by decide

theorem witness_ProgressReachesOneHundredAtTheLastBlock : 0 < 1 ∧ 99 < 100 ∧ 100 ≤ 100 ∧ 201 < 202 := by decide

theorem witness_BlockTimeoutIsTheSlackedTransferTime : 0 < 1 ∧ 0 < 9600 := by decide

/-- `E` and `T` from IDLE with a byte queued, right and wrong, with nothing queued and TIMEOUT = 0 or not; `T` during an
exposure; and while BUSY. -/
theorem witness_WireCommandsAreSentAndVerified :
    encode .wireE = .frame [0x45#8] ∧ Instr.wireE ≠ .wireX ∧ (∀ d, Instr.wireE ≠ .wireB d)
      ∧ (ready cfgS [] [0x3A#8] 9#32).seq = .idle ∧ [0x45#8].length ≤ cfgS.txbufSize ∧ cfgS.txbufSize ≤ 4096
      ∧ (isTakeImage [0x45#8] && (ready cfgS [] [0x3A#8] 9#32).exposing) = false
      ∧ (ready cfgS [] [0x3A#8] 9#32).rxq = 0x3A#8 :: [] ∧ 0x3A#8 = cmdChecksum [0x45#8] ∧ 0x3B#8 ≠ cmdChecksum [0x45#8]
      ∧ (ready cfgS [] [] 9#32).rxq = [] ∧ (ready cfgS [] [] 0#32).timeout = 0#32 ∧ (ready cfgS [] [] 9#32).timeout ≠ 0#32
      ∧ encode (.wireT 0#8 0x13#8 0x88#8 0#8 1#8) = .frame [0x54#8, 0#8, 0x13#8, 0x88#8, 0#8, 1#8]
      ∧ isTakeImage [0x54#8, 0#8, 0x13#8, 0x88#8, 0#8, 1#8] = true
      ∧ { ready cfgS [] [] 9#32 with exposing := true }.exposing = true
      ∧ (reading ⟨[], some 1, none, none, 9, .sendv [0x4F#8]⟩ (ready cfgS [] [] 9#32)).seq ≠ .idle :=
  ⟨rfl, by decide, (fun _ h => by cases h), rfl, by decide, by decide, by decide, rfl, by decide, by decide, rfl, rfl,
    by decide, by decide, by decide, rfl, by decide⟩

/-- From IDLE and while BUSY, for the baud-select command, the signals and the wire command `X`. -/
theorem witness_BaudSelectAndSignals :
    (ready cfgS [] [] 0#32).seq = .idle ∧ 2 ≤ cfgS.txbufSize ∧ 1 ≤ cfgS.txbufSize ∧ cfgS.txbufSize ≤ 4096
      ∧ encode .signalK = .signal 0x4B#8 ∧ encode .signalR = .signal 0x52#8 ∧ encode .signalS = .signal 0x53#8
      ∧ (inBlock 0 0 none [] []).seq ≠ .idle := by
  decide

theorem witness_TakeImageCarriesTheTickCount : 0 < 2 ^ 24 ∧ 0xFFFFFF < 2 ^ 24 ∧ cfgT.tickByteOrder = .msbFirst := by
  decide

theorem witness_ResetAbandonsTheOperation :
    { inBlock 0 0 none [0x11#8] [] with inputs := [Move.reset] }.inputs = .reset :: [] := rfl

/-- Each way to be unmapped, at the edges of the windows. -/
theorem witness_BusFaultHasNoEffectButItsFlag :
    0x34 + 4 < 0x1000 ∧ ¬ (Width.w32 = .w32 ∧ (0x34 + 4) % 4 = 0 ∧ 0x34 + 4 ≤ 0x34)
      ∧ busOffset cfgT 0x40000038#32 = 0x38
      ∧ ¬ (Width.w8 = .w8 ∧ 0x1100 - 0x1000 < cfgT.txbufSize
            ∨ Width.w8 = .w32 ∧ (0x1100 - 0x1000) % 4 = 0 ∧ 0x1100 - 0x1000 + 4 ≤ cfgT.txbufSize)
      ∧ ¬ (Width.w32 = .w8 ∧ 0x20FD - 0x2000 < cfgT.rxbufSize
            ∨ Width.w32 = .w32 ∧ (0x20FD - 0x2000) % 4 = 0 ∧ 0x20FD - 0x2000 + 4 ≤ cfgT.rxbufSize)
      ∧ busOffset cfgT 0x40003000#32 = 0x3000 ∧ busOffset cfgT 0x400FFFFF#32 = 0xFFFFF
      ∧ ¬ (Width.w8 = .w8 ∧ 0x196000 - 0x100000 < cfgT.imgbufSize
            ∨ Width.w8 = .w32 ∧ (0x196000 - 0x100000) % 4 = 0 ∧ 0x196000 - 0x100000 + 4 ≤ cfgT.imgbufSize)
      ∧ busOffset cfgT 0x40200000#32 = 0x200000 ∧ 0x2000 ≤ busOffset cfgT 0x40002000#32 := by decide

/-- Every register's offset, OP's for the read alone. -/
theorem witness_RegisterWritesStoreNonReservedBits :
    (∀ off ∈ registerOffsets, off = busOffset cfgT (0x40000000#32 + BitVec.ofNat 32 off))
      ∧ ∀ off ∈ [0x00, 0x04, 0x0C, 0x10, 0x1C, 0x20, 0x34], off ≠ 0x08 ∧ off ∈ registerOffsets := by decide

/-- The first and the last word of TXBUF; the last word below RXLEN = 8 in IDLE, and the last byte below RXLEN = 7; the
last word below IMGLEN = 4 during a transfer. -/
theorem witness_BufferWordsAreLittleEndian :
    (∀ i ∈ [0, 252], busOffset cfgT (0x40001000#32 + BitVec.ofNat 32 i) = 0x1000 + i ∧ i % 4 = 0
      ∧ i + 4 ≤ cfgT.txbufSize ∧ cfgT.txbufSize ≤ 4096 ∧ 0 < 4 ∧ 3 < 4)
    ∧ (let m := Memory.writeBytes [] 0 [0x00#8, 0x01#8, 0x02#8, 0x03#8, 0x04#8, 0x05#8, 0x06#8, 0x07#8]
      let s := { small [] with rxlen := 8#16, rxbuf := m }
      s.seq = .idle ∧ cfgT.rxbufSize ≤ 4096 ∧ busOffset cfgT 0x40002004#32 = 0x2000 + 4
        ∧ busOffset cfgT 0x40002006#32 = 0x2000 + 6 ∧ 4 + 4 ≤ s.rxlen.toNat ∧ 4 + 4 ≤ cfgT.rxbufSize ∧ 6 < (7#16).toNat
        ∧ Memory.read m 4 = some 4#8 ∧ Memory.read m 5 = some 5#8 ∧ Memory.read m 6 = some 6#8
        ∧ Memory.read m 7 = some 7#8
        ∧ busOffset cfgT 0x40100000#32 = 0x100000 + 0 ∧ 0 + 4 ≤ (4#32).toNat ∧ 0 + 4 ≤ cfgT.imgbufSize
        ∧ cfgT.imgbufSize ≤ 0x100000 ∧ (inBlock 1 0 none [] []).seq ≠ .idle
        ∧ Memory.read m 0 = some 0#8 ∧ Memory.read m 3 = some 3#8) := by decide

/-- HB14: block 0 accepted, block 1 being read. -/
theorem witness_AcceptedImageBytesStay :
    let s := { inBlock 1 0 none [0x33#8] [0x44#8] with imglen := 2#32, imgbuf := [(0, 0x11#8), (1, 0x22#8)] }
    busOffset s.cfg 0x40100001#32 = 0x100000 + 1 ∧ 1 < s.imglen.toNat ∧ 1 < s.cfg.imgbufSize
      ∧ s.cfg.imgbufSize ≤ 0x100000 ∧ Memory.read s.imgbuf 1 = some 0x22#8
      ∧ s.seq = .run 0#32 (small [0x44#8]).registerOperands
          (.waitRx ⟨[0x33#8], some 3, none, none, 3750, .xferBlock 1 0⟩)
      ∧ s.imglen.toNat = 1 * (small [0x44#8]).registerOperands.blockBytes
      ∧ ∃ t, blockMove s = .next t :=
  ⟨by decide, by decide, by decide, by decide, by decide, rfl, by decide, ⟨_, rfl⟩⟩

/-- A read that is answered and one that faults on the bus; a write beside OP; a delivered byte. -/
theorem witness_HostAccessesHaveNoSideEffect :
    (∃ t, hostRead .w32 0x4000001C#32 (small []) = .next t ∧ t.bus = .data 0x03010002#32)
      ∧ (∃ t, hostRead .w32 0x40000038#32 (small []) = .next t ∧ t.bus = .error)
      ∧ (∀ off ∈ [0x00, 0x04, 0x0C, 0x1C, 0x20, 0x34],
          busTarget cfgT .w32 (busOffset cfgT (0x40000000#32 + BitVec.ofNat 32 off)) = .register off ∧ off ≠ 0x08)
      ∧ busTarget cfgT .w8 (busOffset cfgT 0x400010FF#32) = .tx 255
      ∧ busTarget cfgT .w32 (busOffset cfgT 0x400010FC#32) = .tx 252 ∧ 3 < Width.w32.bytes ∧ 251 < 252 ∧ 252 + Width.w32.bytes ≤ 256
      ∧ busTarget cfgT .w8 (busOffset cfgT 0x40002000#32) = .rx 0
      ∧ busTarget cfgT .w8 (busOffset cfgT 0x40100000#32) = .img 0
      ∧ busTarget cfgT .w32 (busOffset cfgT 0x40000038#32) = .fault
      ∧ (∃ t, deviceMove 0x44#8 (small []) = .next t)
      ∧ encode .drain = .op 0x00000014#32 ∧ ∃ t, exec .drain (small []) = .next t :=
  ⟨⟨_, rfl, by decide⟩, ⟨_, rfl, by decide⟩, by decide, by decide, by decide, by decide, by decide, by decide, by decide,
    by decide, by decide, ⟨_, rfl⟩, by decide, ⟨_, rfl⟩⟩

/-- An operation that finishes, one that waits, and the block's step in a waiting one. -/
theorem witness_OperationsKeepTheirFrame :
    encode (.csumb 1#16) = .op 0x00010002#32 ∧ (ready cfgS [0x45#8] [] 9#32).cfg.wf = true
      ∧ (∃ t, exec (.csumb 1#16) (ready cfgS [0x45#8] [] 9#32) = .next t ∧ t.seq = .idle)
      ∧ encode .xfer = .op 0x00000030#32 ∧ (small []).cfg.wf = true
      ∧ (∃ t, exec .xfer (small []) = .next t ∧ t.seq ≠ .idle)
      ∧ (∀ b, Kont.sendv [0x45#8] ≠ .rdunt b) ∧ (∀ cmd reply, Kont.sendv [0x45#8] ≠ .expect cmd reply)
      ∧ (∃ t, blockMove (reading ⟨[], some 1, none, none, 9, .sendv [0x45#8]⟩ (ready cfgS [] [0x3A#8] 9#32)) = .next t) :=
  ⟨by decide, by decide, ⟨_, rfl, by decide⟩, by decide, by decide, ⟨_, rfl, by decide⟩, (fun _ h => by cases h),
    (fun _ _ h => by cases h), ⟨_, rfl⟩⟩

theorem witness_BlockStepKeepsHostRegistersAndTrace :
    (∃ t, blockMove (inBlock 0 0 none [0x11#8, 0x22#8] [0x33#8]) = .next t)
      ∧ (inBlock 0 0 none [0x11#8, 0x22#8] [0x33#8]).seq ≠ .idle := ⟨⟨_, rfl⟩, by decide⟩

theorem witness_StickyBitsAreClearedOnlyByReset :
    let s := { small [] with status := ⟨false, false, false, false, .noError, true, true, true⟩ }
    (∃ t, step s = .next t) ∧ s.inputs.head? ≠ some .reset ∧ s.status.fBusyWr = true ∧ s.status.fRxOvr = true
      ∧ s.status.fBus = true := ⟨⟨_, rfl⟩, by decide, rfl, rfl, rfl⟩

/-- A state in the middle of a transfer, block 0 being read, that meets the invariant and steps. -/
theorem witness_EveryStepKeepsTheInvariant :
    let s := { inBlock 0 0 none [0x11#8] [0x22#8] with blkTotal := 2#32, tryNo := 1#8 }
    StateInv s ∧ ∃ t, step s = .next t := by
  refine ⟨?_, ⟨_, rfl⟩⟩
  refine ⟨by decide, by decide, by decide, by decide, by decide, by decide, by decide, by decide,
    ⟨by decide, by decide, fun a h => absurd h (Nat.not_lt_zero a)⟩,
    ⟨by decide, by decide, fun a h => absurd h (Nat.not_lt_zero a)⟩,
    ⟨by decide, by decide, fun a h => absurd h (Nat.not_lt_zero a)⟩,
    ⟨by decide, by decide, fun a h => absurd h (Nat.not_lt_zero a)⟩,
    ⟨by decide, by decide, by decide⟩,
    ⟨by decide, by decide, ⟨by decide, by decide, fun a h => absurd h (Nat.not_lt_zero a)⟩⟩,
    fun n h => by cases h; decide,
    rfl, rfl, by decide, by decide, by decide, ⟨by decide, by decide, by decide, by decide⟩, by decide⟩

theorem witness_EveryOperationFinishes : (acceptOp 0x14#32 (small [])).inputs = [] := rfl

end Sys2Proof.Tests
end

section
/-! The statements about reset and the OP write (10_state.md R27, R30, R44), and the invariant at reset. -/

namespace Sys2Proof.Machine

open Sys2Proof Sys2Proof.Safety

/-- The four reserved bits of XFER_CFG, one by one (R35). -/
theorem reserved_zero {v : Word} (h : ∀ j, 20 ≤ j → j < 24 → v.getLsbD j = false) : v &&& 0x00F00000#32 = 0#32 := by
  have mask : ∀ j, j < 32 → (0x00F00000#32).getLsbD j = decide (20 ≤ j ∧ j < 24) := by decide
  apply BitVec.eq_of_getLsbD_eq
  intro j hj
  rw [BitVec.getLsbD_and, mask j hj, BitVec.getLsbD_zero]
  by_cases hr : 20 ≤ j ∧ j < 24
  · simp [h j hr.1 hr.2]
  · simp [hr]

theorem resetXferCfg_reserved (c : Config) : resetXferCfg c &&& 0x00F00000#32 = 0#32 := by
  refine reserved_zero fun j h1 h2 => ?_
  simp only [resetXferCfg, BitVec.getLsbD_append, BitVec.getLsbD_zero]
  simp [show ¬ j < 16 by omega, show ¬ j - 16 < 4 by omega, show j - 16 - 4 < 4 by omega]

theorem storedXferCfg_reserved (v : Word) : storedXferCfg v &&& 0x00F00000#32 = 0#32 := by
  rw [storedXferCfg, BitVec.and_assoc, show 0xFF0FFFFF#32 &&& 0x00F00000#32 = 0#32 by decide, BitVec.and_zero]

theorem bufferOk_nil (size : Nat) : BufferOk [] size 0 := ⟨rfl, by simp, by simp⟩

/-- Reset under any legal parameters meets the invariant (R44, R174). -/
theorem stateInv_resetWith {c : Config} (h : c.wf = true) : StateInv (State.resetWith c) := by
  have core : CoreOk (State.resetWith c) :=
    { wf := h
      cacc := by simp [State.resetWith]
      baud := Nat.zero_le _
      xferCfg := resetXferCfg_reserved c
      rxlen := Nat.zero_le _
      progress := Nat.zero_le _
      imglen := Nat.zero_le _
      rxq := Nat.zero_le _
      txbuf := bufferOk_nil _
      rxbuf := bufferOk_nil _
      imgbuf := bufferOk_nil _
      blkbuf := bufferOk_nil _ }
  exact (stateInv_iff _).2 ⟨core, ⟨nofun, fun _ => ⟨rfl, rfl, rfl, rfl⟩, nofun⟩, trivial⟩

end Sys2Proof.Machine

namespace Sys2Proof.Proofs

open Sys2Proof Sys2Proof.Machine Sys2Proof.Safety

/-- Settles O58: reset under the default parameters, which are legal. -/
theorem invariantHoldsAtReset : Obligations.InvariantHoldsAtReset :=
  stateInv_resetWith (c := Config.default) (by decide)

/-- Settles O48: the register values of the reset state evaluate to the table; the other clauses are its fields. -/
theorem resetLeavesTheRegisterTable : Obligations.ResetLeavesTheRegisterTable :=
  ⟨by decide, rfl, rfl, rfl, rfl, rfl, rfl, rfl, rfl, rfl, fun _ => rfl⟩

/-- Settles O8: OP is a 32-bit register, so the write is `hostWriteOp`, in IDLE and while BUSY. -/
theorem opWriteStartsAnOperation : Obligations.OpWriteStartsAnOperation := by
  intro s addr v hoff
  have htarget : busTarget s.cfg .w32 (busOffset s.cfg addr) = .register 0x08 := by
    rw [hoff]; exact busTarget_register (by decide) (by decide)
  have hwrite : hostWrite .w32 addr v s = respond .ack (hostWriteOp v s) := by
    rw [hostWrite, hostWriteAt, htarget]; rfl
  refine ⟨fun hb => ⟨s.registerOperands, ?_⟩, fun hb => ?_, ?_⟩
  · rw [hwrite, hostWriteOp_idle v hb]; rfl
  · rw [hwrite, hostWriteOp_busy v hb]; rfl
  · rw [hostRead, htarget]; rfl

end Sys2Proof.Proofs
end

section
/-! What the block's step can come to: the eleven operations as one relation, and the read that five of them start as the
read context the block takes up again (41_transport.md R94). -/

namespace Sys2Proof.Machine

open Sys2Proof Sys2Proof.Safety

/-- The context of a read that starts in `s` (R94). -/
def ReadCtx.start (limit : Option Nat) (t : Nat) (term : Option Byte) (kont : Kont) (s : State) : ReadCtx where
  got     := []
  limit   := limit
  term    := term
  budget  := if t = 0 then some s.rxq.length else none
  timeout := t
  kont    := kont

/-- The block's step with its read: the operation goes on with what the read returned, RXQ no longer than before, or the
block takes all of RXQ and waits (R94). -/
theorem resumeRead_rule {P : State → Prop} {op : Word} {o : Operands} {r : ReadCtx} {s : State}
    (hret : ∀ got seen limit q, (∀ n, r.limit = some n → r.got.length ≤ n → got.length ≤ n) →
      q.length ≤ s.rxq.length → P (afterRead o r.kont got seen limit { s with rxq := q }))
    (hwait : ∀ got, (∀ n, r.limit = some n → got.length < n) →
      P { s with rxq := [], seq := .run op o (.waitRx { r with got := got }) }) :
    P (resumeRead op o r s) := by
  unfold resumeRead
  rcases rxContinue_shape op o r s with ⟨got, seen, limit, q, he, hg, hq⟩ | ⟨got, he, -, hg⟩ <;> rw [he]
  · exact hret got seen limit q hg hq
  · exact hwait got hg

/-- The block after framing the command `cmd`, with the exposure monitor at `e` (R103, R155). -/
def framed (cmd : List Byte) (e : Bool) (s : State) : State := transmitFrame cmd (putExposing e s)

/-- The begin frame of a transfer, after the session's start (R116, R117). -/
def transferBegun (o : Operands) (s : State) : State := transmitFrame [0x58#8] (startSession o.totalBlocks s)

/-- The reads an operation of `s` starts: the context, and the state the read starts from (R97, R98, R107, R110, R117). -/
inductive StartsRead (s : State) : Instr → ReadCtx → State → Prop
  | read (n : BitVec 16) (t : Nat) (hn : n.toNat ≤ s.cfg.rxbufSize) :
    StartsRead s (.read n) (.start (some n.toNat) t none .read s) s
  | rdunt (n : BitVec 16) (b : Byte) (t : Nat) (hn : n.toNat ≤ s.cfg.rxbufSize) :
    StartsRead s (.rdunt n b) (.start (some n.toNat) t (some b) (.rdunt b) s) s
  | sendv (n : BitVec 16) (cmd : List Byte) (e : Bool) (t : Nat) :
    StartsRead s (.sendv n) (.start (some 1) t none (.sendv cmd) (framed cmd e s)) (framed cmd e s)
  | expect (n : BitVec 16) (m : Byte) (cmd reply : List Byte) (e : Bool) (t : Nat)
      (hr : reply.length + 1 ≤ s.cfg.rxbufSize) :
    StartsRead s (.expect n m) (.start none t none (.expect cmd reply) (framed cmd e s)) (framed cmd e s)
  | xfer (t : Nat) (hx : xferConfigOk s.cfg s.operands = true) :
    StartsRead s .xfer (.start (some 1) t none .xferEcho (transferBegun s.operands s)) (transferBegun s.operands s)

/-- Everything an operation that answers a next state can come to: a refusal of its operands (R67), its effect and a
finish, a read, or a transfer that begins without one. -/
inductive RunsTo (s : State) : Instr → State → Prop
  | badArg (i : Instr) : RunsTo s i (fail .badArg s)
  | csumc (n : BitVec 16) (bs : List Byte) : RunsTo s (.csumc n) (succeed (putCommandChecksum (cmdChecksum bs) s))
  | csumb (n : BitVec 16) (bs : List Byte) : RunsTo s (.csumb n) (succeed (putBlockChecksum (blkChecksum bs) s))
  | write (n : BitVec 16) (bs : List Byte) : RunsTo s (.write n) (succeed (transmit bs s))
  | setbaud (c : Byte) (hc : c.toNat ≤ 6) : RunsTo s (.setbaud c) (succeed (putBaud c s))
  | drain : RunsTo s .drain (succeed (clearRxq s))
  | send (n : BitVec 16) (cmd : List Byte) (e : Bool) : RunsTo s (.send n) (succeed (framed cmd e s))
  | reads {i : Instr} {r : ReadCtx} {u : State} (op : Word) (h : StartsRead s i r u) :
    RunsTo s i (resumeRead op s.operands r u)
  | transfer (hx : xferConfigOk s.cfg s.operands = true) :
    RunsTo s .xfer (blockLoop s.operands s.operands.totalBlocks 0 (transferBegun s.operands s))

/-! ### Each operation runs to one of these -/

section
variable {s t : State}

theorem execCsumc_runsTo {n : BitVec 16} (h : execCsumc n s = .next t) : RunsTo s (.csumc n) t := by
  unfold execCsumc at h
  split at h
  · split at h <;> cases h
    exact .csumc n _
  · cases h; exact .badArg _

theorem execCsumb_runsTo {n : BitVec 16} (h : execCsumb n s = .next t) : RunsTo s (.csumb n) t := by
  unfold execCsumb at h
  split at h
  · split at h <;> cases h
    exact .csumb n _
  · cases h; exact .badArg _

theorem execWrite_runsTo {n : BitVec 16} (h : execWrite n s = .next t) : RunsTo s (.write n) t := by
  unfold execWrite at h
  split at h
  · split at h <;> cases h
    exact .write n _
  · cases h; exact .badArg _

theorem execSetbaud_runsTo {c : Byte} (h : execSetbaud c s = .next t) : RunsTo s (.setbaud c) t := by
  unfold execSetbaud at h
  split at h <;> cases h
  · next hc => exact .setbaud c (of_decide_eq_true hc)
  · exact .badArg _

theorem execDrain_runsTo (h : execDrain s = .next t) : RunsTo s .drain t := by
  cases h; exact .drain

theorem execSend_runsTo {n : BitVec 16} (h : execSend n s = .next t) : RunsTo s (.send n) t := by
  unfold execSend at h
  split at h
  · split at h
    · cases frameCommand_next h; exact .send n _ _
    · cases h
  · cases h; exact .badArg _

theorem execRead_runsTo {n : BitVec 16} (h : execRead n s = .next t) : RunsTo s (.read n) t := by
  unfold execRead at h
  split at h <;> cases h
  · next hn => exact .reads _ (.read n s.operands.timeout.toNat (of_decide_eq_true hn))
  · exact .badArg _

theorem execRdunt_runsTo {n : BitVec 16} {b : Byte} (h : execRdunt n b s = .next t) : RunsTo s (.rdunt n b) t := by
  unfold execRdunt at h
  split at h <;> cases h
  · next hn =>
    simp only [rxLimitOk, Bool.and_eq_true, decide_eq_true_eq] at hn
    exact .reads _ (.rdunt n b s.operands.timeout.toNat hn.2)
  · exact .badArg _

theorem execSendv_runsTo {n : BitVec 16} (h : execSendv n s = .next t) : RunsTo s (.sendv n) t := by
  unfold execSendv at h
  split at h
  · simp only at h
    split at h
    · cases frameCommand_next h; exact .reads _ (.sendv n _ _ s.operands.timeout.toNat)
    · cases h
  · cases h; exact .badArg _

theorem execExpect_runsTo {n : BitVec 16} {m : Byte} (h : execExpect n m s = .next t) : RunsTo s (.expect n m) t := by
  unfold execExpect at h
  split at h
  · next hc =>
    simp only [expectCountOk, Bool.and_eq_true, decide_eq_true_eq] at hc
    simp only at h
    split at h
    · next hcmd hreply =>
      have hlen := (Memory.readBytes_eq_some hreply).1
      cases frameCommand_next h
      exact .reads _ (.expect n m _ _ _ s.operands.timeout.toNat (by omega))
    · cases h
    · cases h
  · cases h; exact .badArg _

theorem execXfer_runsTo (h : execXfer s = .next t) : RunsTo s .xfer t := by
  unfold execXfer at h
  simp only at h
  split at h <;> cases h
  · next hx =>
    unfold beginTransfer
    simp only
    split
    · exact .reads _ (.xfer s.operands.timeout.toNat hx)
    · exact .transfer hx
  · exact .badArg _

end

/-- An operation that answers a next state runs to one of the outcomes above (R65). -/
theorem exec_runsTo {i : Instr} {w : Word} {s t : State} (hw : encode i = .op w) (h : exec i s = .next t) :
    RunsTo s i t := by
  cases i with
  | csumc n => exact execCsumc_runsTo h
  | csumb n => exact execCsumb_runsTo h
  | write n => exact execWrite_runsTo h
  | read n => exact execRead_runsTo h
  | rdunt n b => exact execRdunt_runsTo h
  | setbaud c => exact execSetbaud_runsTo h
  | drain => exact execDrain_runsTo h
  | send n => exact execSend_runsTo h
  | sendv n => exact execSendv_runsTo h
  | expect n m => exact execExpect_runsTo h
  | xfer => exact execXfer_runsTo h
  | _ => cases hw

end Sys2Proof.Machine
end

section
/-! Every move but the reset input is made of a few parts (00_scope.md R6, 30_encoding.md R77): a relation between states that
each part keeps, every such move keeps. -/

namespace Sys2Proof.Machine

open Sys2Proof Sys2Proof.Safety

/-! ### What a wire row runs -/

theorem noArgs_ok {args : List Byte} {i j : Instr} (h : noArgs args i = .ok j) : i = j := by
  unfold noArgs at h
  split at h <;> cases h
  rfl

theorem decodeHeater_encode {args : List Byte} {i : Instr} (h : decodeHeater args = .ok i) (w : Word) :
    encode i ≠ .op w := by
  unfold decodeHeater at h
  split at h
  · split at h
    · cases h; nofun
    · split at h <;> cases h; nofun
  · cases h

theorem decodeBaudSelect_encode {args : List Byte} {i : Instr} (h : decodeBaudSelect args = .ok i) (w : Word) :
    encode i ≠ .op w := by
  unfold decodeBaudSelect at h
  split at h <;> cases h
  nofun

theorem decodeTakeImage_encode {args : List Byte} {i : Instr} (h : decodeTakeImage args = .ok i) (w : Word) :
    encode i ≠ .op w := by
  unfold decodeTakeImage at h
  split at h <;> cases h
  nofun

/-- No operation word is reached through the bytes of a command: the heater, baud-select and take-image rows take
arguments, the others none (R71). -/
theorem decodeCommand_encode {bs : List Byte} {i : Instr} (h : decodeCommand bs = .ok i) (w : Word) :
    encode i ≠ .op w := by
  cases bs with
  | nil => cases h
  | cons opcode args =>
    simp only [decodeCommand] at h
    split at h
    case h_5 => exact decodeHeater_encode h w
    case h_8 => exact decodeBaudSelect_encode h w
    case h_9 => exact decodeTakeImage_encode h w
    case h_14 => cases h
    all_goals cases noArgs_ok h; nofun

/-- No operation word is reached through a signal byte (R72). -/
theorem decodeSignal_encode {b : Byte} {i : Instr} (h : decodeSignal b = .ok i) (w : Word) : encode i ≠ .op w := by
  unfold decodeSignal at h
  split at h <;> cases h <;> nofun

/-- No operation word is reached through a marker byte (R72). -/
theorem decodeMarker_encode {b : Byte} {i : Instr} (h : decodeMarker b = .ok i) (w : Word) : encode i ≠ .op w := by
  unfold decodeMarker at h
  split at h <;> cases h <;> nofun

/-- `r` is what a host command answers from `s`: bytes to TXBUF, then an OP write that starts an operation (R77). -/
def IssuesFrom (s : State) (r : Host.Outcome State Fault Refusal) : Prop :=
  ∃ bs op j w, encode j = .op w ∧ r = issueOp bs op (exec j) s

theorem issueCommand_issues (bs : List Byte) (s : State) : IssuesFrom s (issueCommand bs s) :=
  ⟨bs, _, .sendv (BitVec.ofNat 16 bs.length), _, rfl, rfl⟩

theorem issueSignal_issues (b : Byte) (s : State) : IssuesFrom s (issueSignal b s) :=
  ⟨[b], _, .write 1#16, _, rfl, rfl⟩

/-- Everything a wire row can be: a host command, or a byte the device delivers (R132 to R150). -/
theorem exec_wire {i : Instr} (h : ∀ w, encode i ≠ .op w) (s : State) :
    IssuesFrom s (exec i s) ∨ exec i s = .next (receive replyTerminator s) ∨ exec i s = .next (receiveDoneMarker s) := by
  cases i
  case csumc | csumb | write | read | rdunt | setbaud | drain | send | sendv | expect | xfer => exact absurd rfl (h _)
  case wireB d => exact .inl ⟨[0x42#8, d], _, .send 2#16, _, rfl, rfl⟩
  case wireX => exact .inl ⟨[], _, .xfer, _, rfl, rfl⟩
  case signalK | signalR | signalS => exact .inl (issueSignal_issues _ s)
  case markerD => exact .inr (.inr rfl)
  case marker1A => exact .inr (.inl rfl)
  all_goals exact .inl (issueCommand_issues _ s)

/-! ### The rule -/

/-- `R` is kept by every part the moves of the agents are made of, the reset input's apart (R6). -/
structure KeptByParts (R : State → State → Prop) : Prop where
  refl : ∀ s, R s s
  trans : ∀ {s t u}, R s t → R t u → R s u
  inputs : ∀ q s, R s { s with inputs := q }
  respond : ∀ r s, R s (respond r s)
  chkDis : ∀ b s, R s { s with chkDis := b }
  timeout : ∀ v s, R s { s with timeout := v }
  xferCfg : ∀ v s, R s { s with xferCfg := storedXferCfg v }
  imgDim : ∀ v s, R s { s with imgDim := v }
  store : ∀ {w i} v s, bufferAccessOk w i s.cfg.txbufSize = true → R s (writeTxbuf i (wordBytes w v) s)
  busFault : ∀ s, R s (busFault s)
  accept : ∀ op {s}, s.busy = false → R s (acceptOp op s)
  reject : ∀ s, R s (rejectOp s)
  receive : ∀ b s, R s (receive b s)
  exposing : ∀ e s, R s (putExposing e s)
  expire : ∀ s, R s (expireTimer s)
  runs : ∀ {i s t}, s.busy = true → RunsTo s i t → R s t
  fail : ∀ {e s}, s.busy = true → e ≠ .noError → R s (fail e s)
  resume : ∀ {op o r s}, s.seq = .run op o (.waitRx r) → R s (resumeRead op o r s)

/-- The move taken when none is listed is the block's or the timer's (R95). -/
theorem defaultMove_ne_reset (s : State) : defaultMove s ≠ .reset := by
  unfold defaultMove
  split
  · nofun
  · nofun
  · split <;> nofun

section
variable {R : State → State → Prop} (h : KeptByParts R)
include h

theorem KeptByParts.hostWrite (w : Width) (addr v : Word) (s : State) : R s (hostWrite w addr v s) := by
  rcases hostWrite_cases w addr v s with e | e | ⟨e, -⟩ | e | e | e | ⟨i, e, hi⟩ | e <;> rw [e]
  · exact h.respond _ s
  · exact h.trans (h.chkDis _ s) (h.respond _ _)
  · refine h.trans ?_ (h.respond _ _)
    cases hb : s.busy with
    | false => rw [hostWriteOp_idle v hb]; exact h.accept v hb
    | true => rw [hostWriteOp_busy v hb]; exact h.reject s
  · exact h.trans (h.timeout _ s) (h.respond _ _)
  · exact h.trans (h.xferCfg _ s) (h.respond _ _)
  · exact h.trans (h.imgDim _ s) (h.respond _ _)
  · exact h.trans (h.store v s hi) (h.respond _ _)
  · exact h.busFault s

theorem KeptByParts.hostRead {w : Width} {addr : Word} {s t : State} (ht : hostRead w addr s = .next t) : R s t := by
  rcases hostRead_cases w addr s with ⟨v, e⟩ | e | ⟨f, e⟩ <;> rw [e] at ht <;> cases ht
  · exact h.respond _ s
  · exact h.busFault s

/-- `tx k: bs`: each of its 8-bit writes stores a TXBUF byte or is a bus fault (R46 to R49, R76). -/
theorem KeptByParts.hostTx (k : Nat) (bs : List Byte) (s : State) : R s (hostTx k bs s) := by
  induction bs generalizing k s with
  | nil => exact h.refl s
  | cons b bs ih =>
    refine h.trans ?_ (ih (k + 1) _)
    rcases busTarget_cases s.cfg .w8 (0x1000 + k) with ⟨-, hk, -⟩ | ⟨e, -, -, hi⟩ | ⟨e, -⟩ | ⟨e, -⟩ | ⟨e, -⟩
    · omega
    · simp only [hostWriteAt, e]; exact h.trans (h.store _ s hi) (h.respond _ _)
    all_goals simp only [hostWriteAt, e]; exact h.busFault s

theorem KeptByParts.issues {r : Host.Outcome State Fault Refusal} {s t : State} (hi : IssuesFrom s r)
    (ht : r = .next t) : R s t := by
  obtain ⟨bs, op, j, w, hw, rfl⟩ := hi
  have stored : R s (Machine.respond .ack (Machine.hostTx 0 bs s)) := h.trans (h.hostTx 0 bs s) (h.respond _ _)
  refine h.trans stored ?_
  unfold issueOp at ht
  simp only at ht
  split at ht
  · cases ht; exact h.reject _
  · next hb => exact h.trans (h.accept op (Bool.eq_false_iff.2 hb)) (h.runs rfl (exec_runsTo hw ht))

theorem KeptByParts.wire {i : Instr} (hi : ∀ w, encode i ≠ .op w) {s t : State} (ht : exec i s = .next t) : R s t := by
  rcases exec_wire hi s with e | e | e
  · exact h.issues e ht
  · rw [e] at ht; cases ht; exact h.receive _ s
  · rw [e] at ht; cases ht; exact h.trans (h.exposing false s) (h.receive _ _)

theorem KeptByParts.blockMove {s t : State} (ht : blockMove s = .next t) : R s t := by
  unfold Machine.blockMove at ht
  split at ht
  · cases ht; exact h.refl s
  · next op o hs =>
    have hb := busy_run hs
    unfold runOperation at ht
    split at ht
    · next hd =>
      obtain ⟨w, hw⟩ := decodeOp_encode hd
      exact h.runs hb (exec_runsTo hw ht)
    · next e _ =>
      cases ht
      cases e <;> exact h.fail hb nofun
  · next hs => cases ht; exact h.resume hs

/-- Every move but the reset input keeps a relation that its parts keep. -/
theorem KeptByParts.agentMove {m : Move} (hm : m ≠ .reset) {s t : State} (ht : agentMove m s = .next t) : R s t := by
  cases m with
  | busWrite w addr v => cases ht; exact h.hostWrite w addr v s
  | busRead w addr => exact h.hostRead ht
  | command bs =>
    simp only [Machine.agentMove, commandMove] at ht
    split at ht
    · next hd => exact h.wire (decodeCommand_encode hd) ht
    · exact h.issues (issueCommand_issues bs s) ht
  | signal b =>
    simp only [Machine.agentMove, signalMove] at ht
    split at ht
    · next hd => exact h.wire (decodeSignal_encode hd) ht
    · exact h.issues (issueSignal_issues b s) ht
  | device b => cases ht; exact h.receive b s
  | marker b =>
    simp only [Machine.agentMove, markerMove] at ht
    split at ht
    · next hd => exact h.wire (decodeMarker_encode hd) ht
    · cases ht; exact h.receive b s
  | takeLost => cases ht; exact h.exposing false s
  | timer => cases ht; exact h.expire s
  | block => exact h.blockMove ht
  | reset => exact absurd rfl hm

/-- Every step that does not take the reset input keeps a relation that the moves' parts keep. -/
theorem KeptByParts.step {s t : State} (ht : step s = .next t) (hm : s.inputs.head? ≠ some .reset) : R s t := by
  unfold Machine.step at ht
  split at ht
  · exact h.agentMove (defaultMove_ne_reset s) ht
  · next m rest hi => exact h.trans (h.inputs rest s) (h.agentMove (by simpa [hi] using hm) ht)

end

end Sys2Proof.Machine
end

section
/-! The invariant is kept by every step (10_state.md R15 to R42): by the continuation of a read, by each outcome of an
operation, and by the moves of the other agents. -/

namespace Sys2Proof.Machine

open Sys2Proof Sys2Proof.Safety

/-! ### What follows a read -/

/-- XFER after its begin-echo read (R117). -/
theorem stateInv_xferEchoDone {o : Operands} {got : List Byte} {s : State} (h : XferAt s.cfg o 0 s)
    (ho : OperandsOk s.cfg o) (hx : xferConfigOk s.cfg o = true) (hg : got.length ≤ 1) :
    StateInv (xferEchoDone o got s) := by
  have hsize := wf_sizes h.core.wf
  have hcore : CoreOk (putReceived got s) := h.core.received (by omega)
  unfold xferEchoDone
  simp only
  split
  · exact blockLoop_inv (k := 0) ho hx _ (h.congr hcore)
  · exact stateInv_fail hcore nofun

/-- The bytes of an attempt of block `k`, judged (R120 to R124). -/
theorem judgeAttempt_inv {c : Config} {o : Operands} {k : Nat} {d : List Byte} {s : State} (h : XferAt c o k s)
    (hx : xferConfigOk c o = true) (hk : k < o.totalBlocks) (hd : d.length ≤ o.blockBytes + 1) :
    match judgeAttempt o k d s with
    | .waiting _ => True
    | .accepted t => XferAt c o (k + 1) t
    | .failed e t => XferAt c o k t ∧ e ≠ .noError := by
  have ha := xferArith hx
  have hfit : d.length ≤ s.cfg.blkbufSize := by rw [h.cfg]; exact hd.trans ha.block
  have hput : XferAt c o k (putBlkbuf d s) := h.congr (h.core.putBlkbuf hfit)
  rcases judgeAttempt_cases o k d s with ⟨-, e⟩ | ⟨hl, -, x, e⟩ | ⟨-, -, -, x, e⟩ <;> rw [e]
  · exact ⟨hput, nofun⟩
  · exact (hput.bacc x).accept ha hk (by rw [List.length_take]; omega)
  · exact ⟨(hput.bacc x).mismatch, nofun⟩

/-- XFER after the read of attempt `i` of block `k` (R118 to R127). -/
theorem stateInv_xferBlockDone {c : Config} {o : Operands} {k i : Nat} {d : List Byte} {s : State} (h : XferAt c o k s)
    (ho : OperandsOk c o) (hx : xferConfigOk c o = true) (hk : k < o.totalBlocks) (hd : d.length ≤ o.blockBytes + 1) :
    StateInv (xferBlockDone o k i d s) := by
  have hj := judgeAttempt_inv h hx hk hd
  refine xferBlockDone_rule (P := XferAt c o) (Q := StateInv) ?_ ?_ (blockLoop_inv ho hx)
  · intro t ht; rw [ht] at hj; exact hj
  · intro e t ht
    rw [ht] at hj
    have hl := attemptLoop_inv ho hx hk (o.maxTries - (i + 1)) (i + 1) e t (by omega) hj.1 fun _ => hj.2
    revert hl
    cases attemptLoop o k (o.maxTries - (i + 1)) (i + 1) e t with
    | waiting u => exact id
    | failed e' u => exact fun hu => stateInv_abort hu.1.core hu.2
    | accepted u => exact id

/-- An operation goes on with what its read returned: the bytes are within the limit its context says (R97 to R119). -/
theorem stateInv_afterRead {o : Operands} {r : ReadCtx} {s : State} {got : List Byte} {seen limit : Bool}
    (h : CoreOk s) (hr : Running s) (ho : OperandsOk s.cfg o) (hk : KontOk o r s)
    (hg : ∀ n, r.limit = some n → got.length ≤ n) : StateInv (afterRead o r.kont got seen limit s) := by
  unfold KontOk at hk
  cases hkont : r.kont <;> simp only [hkont] at hk
  case read =>
    obtain ⟨-, n, hn, hsize⟩ := hk
    exact stateInv_readDone h ((hg n hn).trans hsize)
  case rdunt b =>
    obtain ⟨-, n, hn, hsize⟩ := hk
    exact stateInv_rduntDone h ((hg n hn).trans hsize) b seen limit
  case sendv cmd => exact stateInv_sendvDone h (hg 1 hk.2)
  case expect cmd reply => exact stateInv_expectDone h
  case xferEcho =>
    obtain ⟨-, hn, hx, hsession, -⟩ := hk
    exact stateInv_xferEchoDone ⟨h, hr, rfl, Nat.zero_le _, hsession⟩ ho hx (hg 1 hn)
  case xferBlock k i =>
    obtain ⟨-, hn, hx, hlt, -, hsession, -⟩ := hk
    exact stateInv_xferBlockDone ⟨h, hr, rfl, hlt.le, hsession⟩ ho hx hlt (hg _ hn)

/-- The block takes up a read: it goes on with its operation, or waits again (R94). -/
theorem stateInv_resumeRead {op : Word} {o : Operands} {r : ReadCtx} {s : State} (h : CoreOk s) (hr : Running s)
    (ho : OperandsOk s.cfg o) (hk : KontOk o r s) (hl : ∀ n, r.limit = some n → r.got.length ≤ n) :
    StateInv (resumeRead op o r s) := by
  refine resumeRead_rule ?_ ?_
  · intro got seen limit q hg hq
    exact stateInv_afterRead (h.takeRxq hq) hr.congr ho hk fun n hn => hg n hn (hl n hn)
  · intro got hg
    exact stateInv_wait h hr ho hg hk

/-! ### The block's operations -/

theorem operandsOk_registers {s : State} (h : CoreOk s) : OperandsOk s.cfg s.registerOperands :=
  ⟨h.baud, h.xferCfg, h.txbuf⟩

/-- The operation in progress has legal operands (R53). -/
theorem operandsOk_latched {s : State} (h : SeqOk s) (hc : CoreOk s) : OperandsOk s.cfg s.operands := by
  unfold SeqOk at h
  cases hs : s.seq with
  | idle => rw [operands_idle hs]; exact operandsOk_registers hc
  | run op o p =>
    rw [operands_run hs]
    cases p <;> simp only [hs] at h
    · exact h
    · exact h.1

/-- While an operation runs no result bit of STATUS is set (R21, R30). -/
theorem running_of_busy {s : State} (h : StatusOk s) (hb : s.busy = true) : Running s := by
  obtain ⟨-, hclear, hdone⟩ := h
  obtain ⟨hok, hterm, hlimit, herr⟩ := hclear (hdone hb)
  exact ⟨hdone hb, hok, hterm, hlimit, herr⟩

/-- A read that an operation starts finds the state it starts from legal, and its context consistent with it. -/
theorem startsRead_inv {s u : State} {i : Instr} {r : ReadCtx} (h : CoreOk s) (hr : Running s)
    (hs : StartsRead s i r u) :
    CoreOk u ∧ Running u ∧ u.cfg = s.cfg ∧ r.got = [] ∧ KontOk s.operands r u := by
  cases hs with
  | read n t hn => exact ⟨h, hr, rfl, rfl, rfl, _, rfl, hn⟩
  | rdunt n b t hn => exact ⟨h, hr, rfl, rfl, rfl, _, rfl, hn⟩
  | sendv n cmd e t => exact ⟨h.frame cmd e, hr.congr, rfl, rfl, rfl, rfl⟩
  | expect n m cmd reply e t hreply => exact ⟨h.frame cmd e, hr.congr, rfl, rfl, rfl, rfl, hreply⟩
  | xfer t hx =>
    have begun := xferAt_start h hr rfl (xferArith hx) [0x58#8]
    exact ⟨begun.core, begun.running, rfl, rfl, rfl, rfl, hx, begun.session, rfl⟩

/-- Every outcome of an operation keeps the invariant. -/
theorem stateInv_runsTo {s t : State} {i : Instr} (h : StateInv s) (hb : s.busy = true) (hrun : RunsTo s i t) :
    StateInv t := by
  obtain ⟨hc, hst, hsq⟩ := (stateInv_iff s).1 h
  have hr := running_of_busy hst hb
  have ho := operandsOk_latched hsq hc
  cases hrun with
  | badArg => exact stateInv_fail hc nofun
  | csumc n bs => exact stateInv_succeed (hc.checksum bs)
  | csumb n bs => exact stateInv_succeed hc.congr
  | write n bs => exact stateInv_succeed hc.congr
  | setbaud c hle =>
    have hbaud : (putBaud c s).baud.toNat ≤ 6 := by
      rw [putBaud_baud, BitVec.toNat_setWidth]; exact (Nat.mod_le _ _).trans hle
    exact stateInv_succeed { hc.congr (t := { putBaud c s with baud := s.baud }) with baud := hbaud }
  | drain => exact stateInv_succeed (hc.congr (h8 := Nat.zero_le _))
  | send n cmd e => exact stateInv_succeed (hc.frame cmd e)
  | reads op hs =>
    obtain ⟨hcu, hru, hcfg, hgot, hk⟩ := startsRead_inv hc hr hs
    exact stateInv_resumeRead hcu hru (hcfg ▸ ho) hk fun n _ => by simp [hgot]
  | transfer hx => exact blockLoop_inv (k := 0) ho hx _ (xferAt_start hc hr rfl (xferArith hx) [0x58#8])

/-- The block's step in WAIT_RX keeps the invariant. -/
theorem stateInv_resume {s : State} {op : Word} {o : Operands} {r : ReadCtx} (h : StateInv s)
    (hs : s.seq = .run op o (.waitRx r)) : StateInv (resumeRead op o r s) := by
  obtain ⟨hc, hst, hsq⟩ := (stateInv_iff s).1 h
  simp only [SeqOk, hs] at hsq
  obtain ⟨ho, hl, hk⟩ := hsq
  exact stateInv_resumeRead hc (running_of_busy hst (busy_run hs)) ho hk fun n hn => (hl n hn).le

/-! ### The other agents -/

theorem stateInv_acceptOp {s : State} (h : StateInv s) (op : Word) : StateInv (acceptOp op s) := by
  obtain ⟨hc, -, -⟩ := (stateInv_iff s).1 h
  have hr : Running (acceptOp op s) := ⟨rfl, rfl, rfl, rfl, rfl⟩
  exact (stateInv_iff _).2 ⟨hc.congr, hr.statusOk, operandsOk_registers hc⟩

/-- A byte joins RXQ only where there is room (R55). -/
theorem stateInv_receive {s : State} (h : StateInv s) (b : Byte) : StateInv (receive b s) := by
  obtain ⟨hc, -, -⟩ := (stateInv_iff s).1 h
  by_cases hroom : s.rxq.length < s.cfg.rxqDepth
  · rw [receive_room b hroom]
    exact stateInv_congr h { hc.congr (t := s) with rxq := by simpa using hroom }
  · rw [receive_full b hroom]
    exact stateInv_congr h hc.congr

/-- The deadline changes a read's budget and nothing the invariant speaks of (R95). -/
theorem stateInv_expireTimer {s : State} (h : StateInv s) : StateInv (expireTimer s) := by
  unfold expireTimer
  split
  · next op o r hs =>
    split
    · obtain ⟨hc, hst, hsq⟩ := (stateInv_iff s).1 h
      simp only [SeqOk, hs] at hsq
      exact (stateInv_iff _).2 ⟨hc.congr, ((running_of_busy hst (busy_run hs)).congr).statusOk, hsq⟩
    · exact h
  · exact h
  · exact h

theorem stateInv_resetBlock {s : State} (h : StateInv s) : StateInv (resetBlock s) :=
  stateInv_resetWith ((stateInv_iff s).1 h).1.wf

/-- The invariant, as what every part of a move keeps. -/
theorem keptByParts_stateInv : KeptByParts fun s t => StateInv s → StateInv t := by
  have core : ∀ {s}, StateInv s → CoreOk s := fun {s} h => ((stateInv_iff s).1 h).1
  exact
    { refl := fun _ => id
      trans := fun h h' => h' ∘ h
      inputs := fun _ _ h => stateInv_congr h (core h).congr
      respond := fun _ _ h => stateInv_congr h (core h).congr
      chkDis := fun _ _ h => stateInv_congr h (core h).congr
      timeout := fun _ _ h => stateInv_congr h (core h).congr
      xferCfg := fun v s h => stateInv_congr h
        { (core h).congr (t := s) with xferCfg := storedXferCfg_reserved v }
      imgDim := fun _ _ h => stateInv_congr h (core h).congr
      store := fun v _ hi h => stateInv_congr h
        ((core h).writeTxbuf (by rw [wordBytes_length]; exact bufferAccessOk_inside hi))
      busFault := fun _ h => stateInv_congr h (core h).congr
      accept := fun op _ _ h => stateInv_acceptOp h op
      reject := fun _ h => stateInv_congr h (core h).congr
      receive := fun b _ h => stateInv_receive h b
      exposing := fun _ _ h => stateInv_congr h (core h).congr
      expire := fun _ => stateInv_expireTimer
      runs := fun hb hr h => stateInv_runsTo h hb hr
      fail := fun _ he h => stateInv_fail (core h) he
      resume := fun hs h => stateInv_resume h hs }

end Sys2Proof.Machine

namespace Sys2Proof.Proofs

open Sys2Proof Sys2Proof.Machine Sys2Proof.Safety

/-- Settles O59: the reset input leads to a reset state, and every other move is made of parts that keep the
invariant. -/
theorem everyStepKeepsTheInvariant : Obligations.EveryStepKeepsTheInvariant := by
  intro s t h ht
  by_cases hm : s.inputs.head? = some .reset
  · obtain ⟨rest, hi⟩ := List.head?_eq_some_iff.1 hm
    rw [step, hi] at ht
    cases ht
    exact stateInv_resetBlock (keptByParts_stateInv.inputs rest s h)
  · exact keptByParts_stateInv.step ht hm h

end Sys2Proof.Proofs
end

section
/-! What the operations leave alone (10_state.md R24 to R34, 20_memory.md R53, R190): the frame of each outcome, and what a
resumed read leaves of STATUS. -/

namespace Sys2Proof.Machine

open Sys2Proof Sys2Proof.Safety

/-- The frame of operation `i` from `s` to `t`, clause by clause of `Obligations.OperationsKeepTheirFrame`. -/
structure OpFrame (i : Instr) (s t : State) : Prop where
  setup : SameSetup s t
  sticky : SameSticky s t
  term : (∀ n b, i ≠ .rdunt n b) → t.status.term = s.status.term
  limit : (∀ n b, i ≠ .rdunt n b) → (∀ n m, i ≠ .expect n m) → t.status.limit = s.status.limit
  baud : (∀ c, i ≠ .setbaud c) → t.baud = s.baud
  session : i ≠ .xfer → SameSession s t
  bacc : (∀ n, i ≠ .csumb n) → i ≠ .xfer → t.bacc = s.bacc
  unreceived : ((∃ n, i = .csumc n) ∨ (∃ n, i = .csumb n) ∨ (∃ n, i = .write n) ∨ (∃ c, i = .setbaud c) ∨ i = .drain
      ∨ ∃ n, i = .send n) → t.rxlen = s.rxlen ∧ t.rxbuf = s.rxbuf ∧ (i ≠ .drain → t.rxq = s.rxq)
  result : ((∃ n, i = .write n) ∨ (∃ n, i = .read n) ∨ (∃ n b, i = .rdunt n b) ∨ (∃ c, i = .setbaud c) ∨ i = .drain) →
    t.result = s.result ∧ t.cacc = s.cacc
  silent : ((∃ n, i = .csumc n) ∨ (∃ n, i = .csumb n) ∨ (∃ n, i = .read n) ∨ (∃ n b, i = .rdunt n b)
      ∨ (∃ c, i = .setbaud c) ∨ i = .drain) → t.trace = s.trace
  past : s.cfg.wf = true → t.seq = .idle → ∀ a, t.rxlen.toNat ≤ a → Memory.read t.rxbuf a = Memory.read s.rxbuf a
  waiting : t.seq ≠ .idle → i ≠ .xfer → t.rxbuf = s.rxbuf ∧ t.rxlen = s.rxlen
  image : i = .xfer → ∀ a, t.blkRcvd.toNat * s.operands.blockBytes ≤ a →
    Memory.read t.imgbuf a = Memory.read s.imgbuf a

/-! ### What follows a read -/

/-- SENDV ends with a finish that stores its echo (R107). -/
theorem sendvDone_cases (cmd got : List Byte) (s : State) :
    ∃ ok err, sendvDone cmd got s = finish ok err (putReceived got s) := by
  unfold sendvDone; split <;> exact ⟨_, _, rfl⟩

/-- EXPECT ends with a finish that stores its tail and sets LIMIT (R110). -/
theorem expectDone_cases (cmd reply got : List Byte) (s : State) :
    ∃ ok err limit, expectDone cmd reply got s
      = finish ok err (putLimit limit (putReceived (tailN s.cfg.rxbufSize got) s)) := by
  unfold expectDone; simp only; split <;> exact ⟨_, _, _, rfl⟩

/-- RDUNT ends with a finish that stores its bytes and sets both flags; it may end an exposure (R98, R155). -/
theorem rduntDone_cases (b : Byte) (got : List Byte) (seen limit : Bool) (s : State) :
    ∃ e, rduntDone b got seen limit s = succeed (putReadFlags seen limit (putReceived got (putExposing e s))) := by
  unfold rduntDone
  rcases endExposure_cases b seen limit s with e | e <;> rw [e]
  · exact ⟨s.exposing, rfl⟩
  · exact ⟨false, rfl⟩

/-- XFER after its begin echo stores it and keeps the transfer's frame (R117). -/
theorem xferEchoDone_frame (o : Operands) (got : List Byte) (s : State) :
    XferFrame (putReceived got s) (xferEchoDone o got s) := by
  unfold xferEchoDone
  simp only
  split
  · exact blockLoop_frame o 0 _
  · constructor <;> simp

/-! ### The frame of each outcome -/

/-- The blocks of a transfer keep the frame of the state they start from, finished, and store their own image (R123). -/
theorem opFrame_blockLoop {s u : State} (hx : xferConfigOk s.cfg s.operands = true) (hu : OpFrame .xfer s (succeed u))
    (hr : u.blkRcvd = 0#32) (hm : u.imgbuf = s.imgbuf) :
    OpFrame .xfer s (blockLoop s.operands s.operands.totalBlocks 0 u) := by
  have f : XferFrame u (blockLoop s.operands s.operands.totalBlocks 0 u) := blockLoop_frame s.operands 0 u
  obtain ⟨h1, h2, h3, h4, h5, h6, h7, h8⟩ := hu.setup
  obtain ⟨k1, k2, k3⟩ := hu.sticky
  exact
    { setup := ⟨f.cfg.trans h1, f.inputs.trans h2, f.bus.trans h3, f.chkDis.trans h4, f.timeout.trans h5,
        f.xferCfg.trans h6, f.imgDim.trans h7, f.txbuf.trans h8⟩
      sticky := ⟨f.fBusyWr.trans k1, f.fRxOvr.trans k2, f.fBus.trans k3⟩
      term := fun h => f.term.trans (hu.term h)
      limit := fun h h' => f.limit.trans (hu.limit h h')
      baud := fun h => f.baud.trans (hu.baud h)
      session := fun h => absurd rfl h
      bacc := fun _ h => absurd rfl h
      unreceived := by simp
      result := by simp
      silent := by simp
      past := fun hwf _ a ha => by rw [f.rxbuf]; exact hu.past hwf rfl a (by rwa [f.rxlen] at ha)
      waiting := fun _ h => absurd rfl h
      image := fun _ => blockLoop_image s.operands s.imgbuf (xferArith hx).fits 0 u (Nat.zero_le _) hr
        fun a _ => by rw [hm] }

/-- XFER after its begin echo has stored it, and ends or goes on with the blocks (R117). -/
theorem opFrame_xferEchoDone {s : State} {got q : List Byte} (hx : xferConfigOk s.cfg s.operands = true)
    (hg : got.length ≤ 1) :
    OpFrame .xfer s (xferEchoDone s.operands got { transferBegun s.operands s with rxq := q }) := by
  have hlen : got.length < 2 ^ 16 := hg.trans_lt (by decide)
  have stored : ∀ ok err, OpFrame .xfer s
      (finish ok err (putReceived got { transferBegun s.operands s with rxq := q })) := by
    intro ok err
    constructor
    case past => exact fun _ _ a ha => putReceived_outside { transferBegun s.operands s with rxq := q } hlen ha
    all_goals simp [SameSetup, SameSticky, transferBegun]
  unfold xferEchoDone
  simp only
  split
  · exact opFrame_blockLoop hx (stored _ _) rfl rfl
  · exact stored _ _

/-- An operation that waits for its read has stored nothing. -/
theorem opFrame_waits {s u : State} {i : Instr} {r : ReadCtx} (h : StartsRead s i r u) (op : Word) (p : Phase) :
    OpFrame i s { u with rxq := [], seq := .run op s.operands p } := by
  cases h <;> constructor <;> simp [SameSetup, SameSticky, SameSession, framed, transferBegun]

/-- An operation whose read has returned stores what it got at RXBUF[0..RXLEN) (R34, R190). -/
theorem opFrame_afterRead {s u : State} {i : Instr} {r : ReadCtx} {got q : List Byte} {seen limit : Bool}
    (h : StartsRead s i r u) (hg : ∀ n, r.limit = some n → got.length ≤ n) :
    OpFrame i s (afterRead s.operands r.kont got seen limit { u with rxq := q }) := by
  cases h with
  | read n t hn =>
    have hlen : got.length < 2 ^ 16 := (hg _ rfl).trans_lt n.isLt
    constructor
    case past => exact fun _ _ a ha => putReceived_outside _ hlen ha
    all_goals simp [SameSetup, SameSticky, SameSession, ReadCtx.start, afterRead, readDone]
  | rdunt n b t hn =>
    have hlen : got.length < 2 ^ 16 := (hg _ rfl).trans_lt n.isLt
    obtain ⟨e, he⟩ := rduntDone_cases b got seen limit { s with rxq := q }
    change OpFrame _ s (rduntDone b got seen limit { s with rxq := q })
    rw [he]
    constructor
    case past => exact fun _ _ a ha => putReceived_outside (putExposing e { s with rxq := q }) hlen ha
    all_goals simp [SameSetup, SameSticky, SameSession]
  | sendv n cmd e t =>
    have hlen : got.length < 2 ^ 16 := (hg 1 rfl).trans_lt (by decide)
    obtain ⟨ok, err, he⟩ := sendvDone_cases cmd got { framed cmd e s with rxq := q }
    change OpFrame _ s (sendvDone cmd got { framed cmd e s with rxq := q })
    rw [he]
    constructor
    case past => exact fun _ _ a ha => putReceived_outside { framed cmd e s with rxq := q } hlen ha
    all_goals simp [SameSetup, SameSticky, SameSession, framed]
  | expect n m cmd reply e t hr =>
    obtain ⟨ok, err, lim, he⟩ := expectDone_cases cmd reply got { framed cmd e s with rxq := q }
    change OpFrame _ s (expectDone cmd reply got { framed cmd e s with rxq := q })
    rw [he]
    constructor
    case past =>
      intro hwf _ a ha
      have hlen := (tailN_length_le s.cfg.rxbufSize got).trans (wf_sizes hwf).1
      exact putReceived_outside { framed cmd e s with rxq := q } (hlen.trans_lt (by decide)) ha
    all_goals simp [SameSetup, SameSticky, SameSession, framed]
  | xfer t hx => exact opFrame_xferEchoDone hx (hg 1 rfl)

/-- Each outcome of an operation keeps the operation's frame. -/
theorem opFrame_runsTo {i : Instr} {s t : State} (h : RunsTo s i t) : OpFrame i s t := by
  cases h
  case reads r u op h =>
    refine resumeRead_rule (fun got seen limit q hg _ => opFrame_afterRead h fun n hn => hg n hn ?_)
      fun got _ => opFrame_waits h op _
    cases h <;> exact Nat.zero_le _
  case transfer hx =>
    refine opFrame_blockLoop hx ?_ rfl rfl
    constructor <;> simp [SameSetup, SameSticky, transferBegun]
  all_goals constructor <;> simp [SameSetup, SameSticky, SameSession, framed]

/-! ### What a resumed read leaves of STATUS -/

/-- What an operation does with its read keeps the sticky bits; TERM changes only in RDUNT, LIMIT only in RDUNT and
EXPECT (R24, R25, R27 to R29). -/
structure KeepsFlags (kont : Kont) (s t : State) : Prop where
  sticky : SameSticky s t
  term : (∀ b, kont ≠ .rdunt b) → t.status.term = s.status.term
  limit : (∀ b, kont ≠ .rdunt b) → (∀ cmd reply, kont ≠ .expect cmd reply) → t.status.limit = s.status.limit

theorem KeepsFlags.of_xferFrame {kont : Kont} {s t : State} (h : XferFrame s t) : KeepsFlags kont s t :=
  ⟨⟨h.fBusyWr, h.fRxOvr, h.fBus⟩, fun _ => h.term, fun _ _ => h.limit⟩

theorem afterRead_keepsFlags (o : Operands) (kont : Kont) (got : List Byte) (seen limit : Bool) (s : State) :
    KeepsFlags kont s (afterRead o kont got seen limit s) := by
  cases kont with
  | read => constructor <;> simp [afterRead, readDone, SameSticky]
  | rdunt b =>
    obtain ⟨e, he⟩ := rduntDone_cases b got seen limit s
    rw [afterRead, he]
    constructor <;> simp [SameSticky]
  | sendv cmd =>
    obtain ⟨ok, err, he⟩ := sendvDone_cases cmd got s
    rw [afterRead, he]
    constructor <;> simp [SameSticky]
  | expect cmd reply =>
    obtain ⟨ok, err, lim, he⟩ := expectDone_cases cmd reply got s
    rw [afterRead, he]
    constructor <;> simp [SameSticky]
  | xferEcho =>
    obtain ⟨hs, ht, hl⟩ := KeepsFlags.of_xferFrame (kont := .xferEcho) (xferEchoDone_frame o got s)
    exact ⟨hs, ht, hl⟩
  | xferBlock k i => exact .of_xferFrame (xferBlockDone_frame o k i got s)

theorem resumeRead_keepsFlags (op : Word) (o : Operands) (r : ReadCtx) (s : State) :
    KeepsFlags r.kont s (resumeRead op o r s) := by
  refine resumeRead_rule (fun got seen limit q _ _ => ?_) fun got _ => ⟨⟨rfl, rfl, rfl⟩, fun _ => rfl, fun _ _ => rfl⟩
  obtain ⟨hs, ht, hl⟩ := afterRead_keepsFlags o r.kont got seen limit { s with rxq := q }
  exact ⟨hs, ht, hl⟩

/-! ### The sticky bits along a step -/

/-- Each sticky bit that is set in `s` is set in `t` (R27 to R29). -/
def StickyStays (s t : State) : Prop :=
  (s.status.fBusyWr = true → t.status.fBusyWr = true) ∧ (s.status.fRxOvr = true → t.status.fRxOvr = true)
    ∧ (s.status.fBus = true → t.status.fBus = true)

theorem StickyStays.of_same {s t : State} (h : SameSticky s t) : StickyStays s t := by
  obtain ⟨h1, h2, h3⟩ := h
  exact ⟨fun h => h1.trans h, fun h => h2.trans h, fun h => h3.trans h⟩

theorem receive_stickyStays (b : Byte) (s : State) : StickyStays s (receive b s) := by
  unfold receive; split
  · exact ⟨id, id, id⟩
  · exact ⟨id, fun _ => rfl, id⟩

theorem expireTimer_stickyStays (s : State) : StickyStays s (expireTimer s) := by
  unfold expireTimer
  split
  · split <;> exact ⟨id, id, id⟩
  · exact ⟨id, id, id⟩
  · exact ⟨id, id, id⟩

/-- The parts of a move set a sticky bit (the busy OP write, the bus fault, the dropped byte) or leave all three. -/
theorem keptByParts_stickyStays : KeptByParts StickyStays where
  refl _ := ⟨id, id, id⟩
  trans h h' := ⟨h'.1 ∘ h.1, h'.2.1 ∘ h.2.1, h'.2.2 ∘ h.2.2⟩
  inputs _ _ := ⟨id, id, id⟩
  respond _ _ := ⟨id, id, id⟩
  chkDis _ _ := ⟨id, id, id⟩
  timeout _ _ := ⟨id, id, id⟩
  xferCfg _ _ := ⟨id, id, id⟩
  imgDim _ _ := ⟨id, id, id⟩
  store _ _ _ := ⟨id, id, id⟩
  busFault _ := ⟨id, id, fun _ => rfl⟩
  accept _ _ _ := ⟨id, id, id⟩
  reject _ := ⟨fun _ => rfl, id, id⟩
  receive := receive_stickyStays
  exposing _ _ := ⟨id, id, id⟩
  expire := expireTimer_stickyStays
  runs _ h := .of_same (opFrame_runsTo h).sticky
  fail _ _ := ⟨id, id, id⟩
  resume _ := .of_same (resumeRead_keepsFlags ..).sticky

end Sys2Proof.Machine

namespace Sys2Proof.Proofs

open Sys2Proof Sys2Proof.Machine Sys2Proof.Safety

/-- Settles O57: every part of a move sets sticky bits or leaves them. -/
theorem stickyBitsAreClearedOnlyByReset : Obligations.StickyBitsAreClearedOnlyByReset :=
  fun _ _ ht hm => keptByParts_stickyStays.step ht hm

/-- Settles O55: an operation's step runs to an outcome with the operation's frame, and a resumed read keeps the flags. -/
theorem operationsKeepTheirFrame : Obligations.OperationsKeepTheirFrame := by
  refine ⟨fun i w s t hw hwf ht => ?_, fun s t op o r hs ht => ?_⟩
  · have f := opFrame_runsTo (exec_runsTo hw ht)
    exact ⟨f.setup, f.sticky, f.term, f.limit, f.baud, f.session, f.bacc, f.unreceived, f.result, f.silent, f.past hwf,
      f.waiting, f.image⟩
  · have f := resumeRead_keepsFlags op o r s
    rw [blockMove, hs] at ht
    cases ht
    exact ⟨f.term, f.limit⟩

end Sys2Proof.Proofs
end

section
/-! What a host access does, by what its address reaches (20_memory.md R46 to R50, R54, R62), and the statements about bus
faults, undefined bytes and delivered bytes. -/

namespace Sys2Proof.Machine

open Sys2Proof

section
variable {s : State} {w : Width} {addr : Word} {i off : Nat}

/-! ### Host writes -/

theorem hostWrite_register (v : Word) (h : busTarget s.cfg w (busOffset s.cfg addr) = .register off) :
    hostWrite w addr v s = respond .ack (writeRegister off v s) := by
  simp only [hostWrite, hostWriteAt, h]

theorem hostWrite_tx (v : Word) (h : busTarget s.cfg w (busOffset s.cfg addr) = .tx i) :
    hostWrite w addr v s = respond .ack (writeTxbuf i (wordBytes w v) s) := by
  simp only [hostWrite, hostWriteAt, h]

/-- RXBUF and IMGBUF are read-only on the bus, and so is every offset that is not mapped (R48, R49). -/
theorem hostWrite_refused (v : Word)
    (h : busTarget s.cfg w (busOffset s.cfg addr) = .rx i ∨ busTarget s.cfg w (busOffset s.cfg addr) = .img i
      ∨ busTarget s.cfg w (busOffset s.cfg addr) = .fault) : hostWrite w addr v s = busFault s := by
  rcases h with h | h | h <;> simp only [hostWrite, hostWriteAt, h]

/-! ### Host reads -/

theorem hostRead_register (h : busTarget s.cfg w (busOffset s.cfg addr) = .register off) :
    hostRead w addr s = .next (respond (.data (registerValue s off)) s) := by
  simp only [hostRead, h]

theorem hostRead_tx (h : busTarget s.cfg w (busOffset s.cfg addr) = .tx i) :
    hostRead w addr s = bufferRead s.txbuf i w.bytes .txbufUnwritten s := by
  simp only [hostRead, h]

theorem hostRead_rx (h : busTarget s.cfg w (busOffset s.cfg addr) = .rx i) (hb : s.busy = false)
    (hi : i + w.bytes ≤ s.rxlen.toNat) : hostRead w addr s = bufferRead s.rxbuf i w.bytes .rxbufUndefined s := by
  simp only [hostRead, h, hb, hi, and_self, if_true]

theorem hostRead_rx_undefined (h : busTarget s.cfg w (busOffset s.cfg addr) = .rx i)
    (hu : s.busy = true ∨ s.rxlen.toNat < i + w.bytes) : hostRead w addr s = .fault .rxbufUndefined := by
  have hn : ¬ (s.busy = false ∧ i + w.bytes ≤ s.rxlen.toNat) := by
    rintro ⟨hb, hi⟩
    rcases hu with hu | hu
    · simp [hb] at hu
    · omega
  simp only [hostRead, h, if_neg hn]

theorem hostRead_img (h : busTarget s.cfg w (busOffset s.cfg addr) = .img i) (hi : i + w.bytes ≤ s.imglen.toNat) :
    hostRead w addr s = bufferRead s.imgbuf i w.bytes .imgbufUndefined s := by
  simp only [hostRead, h, hi, if_true]

theorem hostRead_img_undefined (h : busTarget s.cfg w (busOffset s.cfg addr) = .img i)
    (hu : s.imglen.toNat < i + w.bytes) : hostRead w addr s = .fault .imgbufUndefined := by
  simp only [hostRead, h, if_neg (Nat.not_le.2 hu)]

theorem hostRead_fault (h : busTarget s.cfg w (busOffset s.cfg addr) = .fault) :
    hostRead w addr s = .next (busFault s) := by
  simp only [hostRead, h]

end

/-! ### Offsets without a target -/

/-- A register offset with a width or alignment not allowed, or past the fourteen registers (R47). -/
theorem busTarget_below_tx {c : Config} {w : Width} {off : Nat} (ho : off < 0x1000)
    (hn : ¬ (w = .w32 ∧ off % 4 = 0 ∧ off ≤ 0x34)) : busTarget c w off = .fault := by
  simp only [busTarget, if_pos ho, if_neg hn]

theorem busTarget_tx_refused {c : Config} {w : Width} {off : Nat} (hl : 0x1000 ≤ off) (hu : off < 0x2000)
    (hn : ¬ bufferAccessOk w (off - 0x1000) c.txbufSize = true) : busTarget c w off = .fault := by
  simp only [busTarget, if_neg (Nat.not_lt.2 hl), if_pos hu, if_neg hn]

theorem busTarget_rx_refused {c : Config} {w : Width} {off : Nat} (hl : 0x2000 ≤ off) (hu : off < 0x3000)
    (hn : ¬ bufferAccessOk w (off - 0x2000) c.rxbufSize = true) : busTarget c w off = .fault := by
  simp only [busTarget, if_neg (by omega : ¬ off < 0x1000), if_neg (Nat.not_lt.2 hl), if_pos hu, if_neg hn]

/-- Between the windows of RXBUF and IMGBUF, and past the latter, nothing is mapped (R46). -/
theorem busTarget_no_window {c : Config} {w : Width} {off : Nat} (hl : 0x3000 ≤ off)
    (hn : ¬ (0x100000 ≤ off ∧ off < 0x200000)) : busTarget c w off = .fault := by
  simp only [busTarget, if_neg (by omega : ¬ off < 0x1000), if_neg (by omega : ¬ off < 0x2000),
    if_neg (Nat.not_lt.2 hl), if_neg hn]

theorem busTarget_img_refused {c : Config} {w : Width} {off : Nat} (h : 0x100000 ≤ off ∧ off < 0x200000)
    (hn : ¬ bufferAccessOk w (off - 0x100000) c.imgbufSize = true) : busTarget c w off = .fault := by
  simp only [busTarget, if_neg (by omega : ¬ off < 0x1000), if_neg (by omega : ¬ off < 0x2000),
    if_neg (by omega : ¬ off < 0x3000), if_pos h, if_neg hn]

/-- From offset 2000 up no write is allowed (R46, R48). -/
theorem busTarget_past_tx (c : Config) (w : Width) {off : Nat} (h : 0x2000 ≤ off) :
    ∃ i, busTarget c w off = .rx i ∨ busTarget c w off = .img i ∨ busTarget c w off = .fault := by
  rcases busTarget_cases c w off with ⟨-, hr, -⟩ | ⟨-, -, ht, -⟩ | ⟨e, -⟩ | ⟨e, -⟩ | ⟨e, -⟩
  · omega
  · omega
  · exact ⟨_, .inl e⟩
  · exact ⟨_, .inr (.inl e)⟩
  · exact ⟨0, .inr (.inr e)⟩

/-! ### Bytes that hold no value -/

/-- A buffer read that reaches a byte without a value answers nothing (R42). -/
theorem Memory.readBytes_eq_none {m : Memory} {a n j : Nat} (hj : Memory.read m j = none) (hl : a ≤ j)
    (hu : j < a + n) : Memory.readBytes m a n = none := by
  cases hr : Memory.readBytes m a n with
  | none => rfl
  | some bs =>
    obtain ⟨hlen, hread⟩ := Memory.readBytes_eq_some hr
    have hget : bs[j - a]? = none := by
      rw [← hread (j - a) (by omega), Nat.add_sub_cancel' hl, hj]
    have := List.getElem?_eq_none_iff.1 hget
    omega

end Sys2Proof.Machine

namespace Sys2Proof.Proofs

open Sys2Proof Sys2Proof.Machine Sys2Proof.Safety

/-- Settles O25: each of the three is `receive` written out, of its byte and, for `D`, after the exposure monitor is
cleared. -/
theorem deliveredByteIsQueuedOrDropped : Obligations.DeliveredByteIsQueuedOrDropped :=
  ⟨fun _ _ => rfl, fun _ => rfl, fun _ => rfl⟩

/-- Settles O50: no such access has a target, and a target from offset 2000 up refuses a write. -/
theorem busFaultHasNoEffectButItsFlag : Obligations.BusFaultHasNoEffectButItsFlag := by
  intro s w addr v off hoff allowed faulted unmapped
  subst hoff
  refine ⟨fun hun => ?_, fun hlow => ?_⟩
  · have notOk : ∀ {i size}, ¬ allowed i size → ¬ bufferAccessOk w i size = true :=
      fun {i size} hn hok => hn ((bufferAccessOk_iff w i size).1 hok)
    have htarget : busTarget s.cfg w (busOffset s.cfg addr) = .fault := by
      rcases hun with ⟨ho, hn⟩ | ⟨hl, hu, hn⟩ | ⟨hl, hu, hn⟩ | ⟨hl, hu⟩ | ⟨hl, hu, hn⟩ | hl
      · exact busTarget_below_tx ho hn
      · exact busTarget_tx_refused hl hu (notOk hn)
      · exact busTarget_rx_refused hl hu (notOk hn)
      · exact busTarget_no_window hl (by omega)
      · exact busTarget_img_refused ⟨hl, hu⟩ (notOk hn)
      · exact busTarget_no_window (by omega) (by omega)
    exact ⟨hostRead_fault htarget, hostWrite_refused (i := 0) v (.inr (.inr htarget))⟩
  · obtain ⟨i, htarget⟩ := busTarget_past_tx s.cfg w hlow
    exact hostWrite_refused v htarget

/-- Settles O33: a host read checks RXLEN and IMGLEN before it reads, and an operation fetches all its TXBUF bytes before
it does anything else. -/
theorem undefinedBytesFault : Obligations.UndefinedBytesFault := by
  refine ⟨fun s w addr i htarget hu => hostRead_rx_undefined htarget hu,
    fun s w addr i htarget hu => hostRead_img_undefined htarget hu, fun s n j hn hj hread => ?_,
    fun s n m j hn hsize hm hj hread => ?_⟩
  · have hnone : latchedTx s.operands 0 n.toNat = none :=
      Memory.readBytes_eq_none hread (Nat.zero_le j) (by omega)
    have hcount : txCountOk s.cfg n = true := decide_eq_true hn
    have hcommand : commandCountOk s.cfg n = true := by simp [commandCountOk, hn]; omega
    refine ⟨?_, ?_, ?_, ?_, ?_⟩
    · simp only [exec, execCsumc, hcount, hnone, if_true]
    · simp only [exec, execCsumb, hcount, hnone, if_true]
    · simp only [exec, execWrite, hcount, hnone, if_true]
    · simp only [exec, execSend, hcommand, hnone, if_true]
    · simp only [exec, execSendv, hcommand, hnone, if_true]
  · have hcount : expectCountOk s.cfg n m = true := by simp [expectCountOk, hn, hsize, hm]
    rcases Nat.lt_or_ge j n.toNat with hlt | hge
    · have hcmd : latchedTx s.operands 0 n.toNat = none :=
        Memory.readBytes_eq_none hread (Nat.zero_le j) (by omega)
      simp only [exec, execExpect, hcount, hcmd, if_true]
    · have hreply : latchedTx s.operands n.toNat m.toNat = none := Memory.readBytes_eq_none hread hge hj
      cases hcmd : latchedTx s.operands 0 n.toNat <;> simp only [exec, execExpect, hcount, hcmd, hreply, if_true]

end Sys2Proof.Proofs
end

section
/-! The registers on the bus (10_state.md R19 to R41, 20_memory.md R50): the value of each, bit by bit, and what a write leaves
of the others. -/

namespace Sys2Proof.Machine

open Sys2Proof

/-! ### The bits of a register value -/

/-- A narrow register reads 0 in every bit of a mask above its width. -/
theorem setWidth_and_eq_zero {n : Nat} (x : BitVec n) {mask : Word} (h : ∀ j, j < n → mask.getLsbD j = false) :
    x.setWidth 32 &&& mask = 0#32 := by
  apply BitVec.eq_of_getLsbD_eq
  intro j _
  by_cases hj : j < n
  · simp [h j hj]
  · simp [BitVec.getLsbD_of_ge x j (Nat.not_lt.1 hj)]

theorem bit_setWidth (b : Bool) : (bit b).setWidth 32 = if b then 1#32 else 0#32 := by cases b <;> decide

theorem bit_getLsbD_zero (v : Word) : (bit (v.getLsbD 0)).setWidth 32 = v &&& 0x00000001#32 := by
  have mask : ∀ j, j < 32 → (0x00000001#32).getLsbD j = decide (j = 0) := by decide
  apply BitVec.eq_of_getLsbD_eq
  intro j hj
  rw [BitVec.getLsbD_and, mask j hj, BitVec.getLsbD_setWidth]
  by_cases h0 : j = 0
  · subst h0; simp [bit]
  · simp [bit, h0]

/-- The reserved bits 7:5, 15:12 and 31:19 of STATUS read 0 (R21 to R29): bit by bit, the mask is clear or the field is
zero. -/
theorem Status.word_reserved (st : Status) (busy : Bool) : st.word busy &&& 0xFFF8F0E0#32 = 0#32 := by
  apply BitVec.eq_of_getLsbD_eq
  intro j hj
  simp only [Status.word, BitVec.getLsbD_and, BitVec.getLsbD_append]
  interval_cases j <;> simp

/-- The one-bit fields of STATUS (R21 to R25, R27 to R29). -/
theorem Status.word_bits (st : Status) (busy : Bool) :
    (st.word busy).getLsbD 0 = busy ∧ (st.word busy).getLsbD 1 = st.done ∧ (st.word busy).getLsbD 2 = st.ok
      ∧ (st.word busy).getLsbD 3 = st.term ∧ (st.word busy).getLsbD 4 = st.limit
      ∧ (st.word busy).getLsbD 16 = st.fBusyWr ∧ (st.word busy).getLsbD 17 = st.fRxOvr
      ∧ (st.word busy).getLsbD 18 = st.fBus := by
  simp only [Status.word, BitVec.getLsbD_append]
  simp [bit]

/-- STATUS.ERR is bits 11:8 (R26). -/
theorem Status.word_err (st : Status) (busy : Bool) : (st.word busy).extractLsb' 8 4 = st.err.code := by
  apply BitVec.eq_of_getLsbD_eq
  intro j hj
  simp only [Status.word, BitVec.getLsbD_extractLsb', BitVec.getLsbD_append, hj, decide_true, Bool.true_and]
  simp [hj, show ¬ 8 + j < 1 by omega]

theorem busy_eq_decide (s : State) : s.busy = decide (s.seq ≠ .idle) := by
  cases hs : s.seq with
  | idle => simp [busy_idle hs]
  | run op o p => simp [busy_run hs]

/-! ### Writing one register -/

/-- A write of another register than OP, field by field (R50). -/
theorem writeRegister_fields {off : Nat} (v : Word) (s : State) (h8 : off ≠ 0x08) :
    writeRegister off v s = { s with
      chkDis := (if off = 0x00 then v.getLsbD 0 else s.chkDis)
      timeout := (if off = 0x0C then v else s.timeout)
      xferCfg := (if off = 0x1C then storedXferCfg v else s.xferCfg)
      imgDim := (if off = 0x20 then v else s.imgDim) } := by
  unfold writeRegister
  split
  case h_2 => exact absurd rfl h8
  case h_6 h0 _ hC h1C h20 => rw [if_neg h0, if_neg hC, if_neg h1C, if_neg h20]
  all_goals rfl

/-- A read-only register ignores a write (R50). -/
theorem writeRegister_readOnly {off : Nat} (v : Word) (s : State) (h8 : off ≠ 0x08)
    (h : off ∉ [0x00, 0x0C, 0x1C, 0x20]) : writeRegister off v s = s := by
  simp only [List.mem_cons, List.not_mem_nil, or_false, not_or] at h
  obtain ⟨h0, hC, h1C, h20⟩ := h
  rw [writeRegister_fields v s h8, if_neg h0, if_neg hC, if_neg h1C, if_neg h20]

/-- A write of another register than OP leaves what every other register reads (R50). -/
theorem registerValue_writeRegister_ne {off off' : Nat} (v : Word) (s : State) (h8 : off ≠ 0x08) (h : off' ≠ off) :
    registerValue (writeRegister off v s) off' = registerValue s off' := by
  rw [writeRegister_fields v s h8]
  unfold registerValue
  split
  case h_1 => simp only [if_neg h.symm]
  case h_4 => simp only [if_neg h.symm]
  case h_8 => simp only [if_neg h.symm]
  case h_9 => simp only [if_neg h.symm]
  all_goals rfl

/-- The offsets of the registers are 32-bit aligned and within the register window (R19, R46). -/
theorem busTarget_registerOffsets (c : Config) {off : Nat} (h : off ∈ Safety.registerOffsets) :
    busTarget c .w32 off = .register off := by
  have hrange : ∀ off ∈ Safety.registerOffsets, off ≤ 0x34 ∧ off % 4 = 0 := by decide
  exact busTarget_register (hrange off h).1 (hrange off h).2

end Sys2Proof.Machine

namespace Sys2Proof.Proofs

open Sys2Proof Sys2Proof.Machine Sys2Proof.Safety

/-- Settles O51: a write is `writeRegister`, a read answers `registerValue`, and each register's bits are those of its
field. -/
theorem registerWritesStoreNonReservedBits : Obligations.RegisterWritesStoreNonReservedBits := by
  refine ⟨fun s addr v off hoff h8 hmem => ?_, fun s addr off hoff hmem => ?_, fun s => ?_⟩
  · have hwrite : hostWrite .w32 addr v s = respond .ack (writeRegister off v s) :=
      hostWrite_register v (hoff ▸ busTarget_registerOffsets s.cfg hmem)
    rw [hwrite]
    refine ⟨fun hro => ?_, ?_, ?_, ?_, ?_, fun off' _ hne => ?_, ?_, Status.word_reserved .., ?_, ?_, ?_, ?_, ?_, rfl⟩
    · rw [writeRegister_readOnly v s h8 hro]; rfl
    · rintro rfl; exact bit_getLsbD_zero v
    · rintro rfl; rfl
    · rintro rfl; rfl
    · rintro rfl; rfl
    · exact registerValue_writeRegister_ne v s h8 hne
    all_goals exact setWidth_and_eq_zero _ (by decide)
  · exact hostRead_register (hoff ▸ busTarget_registerOffsets s.cfg hmem)
  · obtain ⟨hbusy, hdone, hok, hterm, hlimit, hbusyWr, hrxOvr, hbus⟩ := s.status.word_bits s.busy
    exact ⟨bit_setWidth s.chkDis, hbusy.trans (busy_eq_decide s), hdone, hok, hterm, hlimit, s.status.word_err s.busy,
      hbusyWr, hrxOvr, hbus, rfl, BitVec.toNat_setWidth_of_le (by decide), BitVec.toNat_setWidth_of_le (by decide),
      BitVec.toNat_setWidth_of_le (by decide), rfl, rfl, rfl, rfl, BitVec.toNat_setWidth_of_le (by decide),
      BitVec.toNat_setWidth_of_le (by decide), rfl⟩

end Sys2Proof.Proofs
end

section
/-! The buffers on the bus (20_memory.md R48, R51, R54): a read of bytes that hold values, and of what a write has stored; and
what a host access leaves alone (R53, R62). -/

namespace Sys2Proof.Machine

open Sys2Proof

/-! ### Bytes and words -/

theorem bytesWord_wordBytes (v : Word) : bytesWord (wordBytes .w32 v) = v := by
  rw [wordBytes, bytesWord_four]
  apply BitVec.eq_of_getLsbD_eq
  intro j hj
  simp only [BitVec.getLsbD_append, BitVec.getLsbD_extractLsb']
  interval_cases j <;> simp

theorem wordBytes_byte_at (v : Word) {j : Nat} (hj : j < 4) : (wordBytes .w32 v)[j]? = some (v.extractLsb' (8 * j) 8) := by
  interval_cases j <;> rfl

/-- Byte `j` of a word, zero-extended, is bits 8j + 7 to 8j (R48). -/
theorem byte_setWidth (v : Word) (j : Nat) : (v.extractLsb' (8 * j) 8).setWidth 32 = (v >>> (8 * j)) &&& 0xFF#32 := by
  have mask : ∀ k, k < 32 → (0xFF#32).getLsbD k = decide (k < 8) := by decide
  apply BitVec.eq_of_getLsbD_eq
  intro k hk
  rw [BitVec.getLsbD_and, mask k hk]
  simp [hk, Bool.and_comm]

theorem Memory.readBytes_one {m : Memory} {i : Nat} {b : Byte} (h : Memory.read m i = some b) :
    Memory.readBytes m i 1 = some [b] := by
  simp only [Memory.readBytes, h]

theorem Memory.readBytes_four {m : Memory} {i : Nat} {b0 b1 b2 b3 : Byte} (h0 : Memory.read m i = some b0)
    (h1 : Memory.read m (i + 1) = some b1) (h2 : Memory.read m (i + 2) = some b2)
    (h3 : Memory.read m (i + 3) = some b3) : Memory.readBytes m i 4 = some [b0, b1, b2, b3] := by
  simp only [Memory.readBytes, h0, h1, h2, h3]

/-! ### Reading a buffer -/

/-- `buffer` is what the host sees from offset `start`: TXBUF, RXBUF in IDLE, or IMGBUF, with its size and the number of bytes
from its start that have a value by the rules (R46, R54). -/
def HostWindow (s : State) (start size defined : Nat) (buffer : Memory) : Prop :=
  start = 0x1000 ∧ buffer = s.txbuf ∧ size = s.cfg.txbufSize ∧ size ≤ 4096 ∧ defined = size
    ∨ start = 0x2000 ∧ buffer = s.rxbuf ∧ size = s.cfg.rxbufSize ∧ size ≤ 4096 ∧ defined = s.rxlen.toNat ∧ s.seq = .idle
    ∨ start = 0x100000 ∧ buffer = s.imgbuf ∧ size = s.cfg.imgbufSize ∧ size ≤ 0x100000 ∧ defined = s.imglen.toNat

section
variable {s : State} {w : Width} {addr : Word} {start size defined i : Nat} {buffer : Memory}

/-- An allowed read of bytes that have a value answers them (R48, R54). -/
theorem HostWindow.hostRead (h : HostWindow s start size defined buffer) (hoff : busOffset s.cfg addr = start + i)
    (hok : bufferAccessOk w i size = true) (hd : i + w.bytes ≤ defined) {bs : List Byte}
    (hbs : Memory.readBytes buffer i w.bytes = some bs) :
    hostRead w addr s = .next { s with bus := .data (bytesWord bs) } := by
  have hpos : 0 < w.bytes := by cases w <;> decide
  have hin := bufferAccessOk_inside hok
  rcases h with ⟨rfl, rfl, rfl, hsize, -⟩ | ⟨rfl, rfl, rfl, hsize, rfl, hidle⟩ | ⟨rfl, rfl, rfl, hsize, rfl⟩
  · rw [hostRead_tx (hoff ▸ busTarget_tx (by omega) hok), bufferRead_some hbs]
  · rw [hostRead_rx (hoff ▸ busTarget_rx (by omega) hok) (busy_idle hidle) hd, bufferRead_some hbs]
  · rw [hostRead_img (hoff ▸ busTarget_img (by omega) hok) hd, bufferRead_some hbs]

theorem HostWindow.hostRead_byte (h : HostWindow s start size defined buffer) (hoff : busOffset s.cfg addr = start + i)
    (hi : i < size) (hd : i < defined) {b : Byte} (hb : Memory.read buffer i = some b) :
    Machine.hostRead .w8 addr s = .next { s with bus := .data (b.setWidth 32) } := by
  rw [h.hostRead hoff ((bufferAccessOk_iff ..).2 (.inl ⟨rfl, hi⟩)) hd (Memory.readBytes_one hb), bytesWord_one]

theorem HostWindow.hostRead_word (h : HostWindow s start size defined buffer) (hoff : busOffset s.cfg addr = start + i)
    (h4 : i % 4 = 0) (hi : i + 4 ≤ size) (hd : i + 4 ≤ defined) {bs : List Byte}
    (hbs : Memory.readBytes buffer i 4 = some bs) :
    Machine.hostRead .w32 addr s = .next { s with bus := .data (bytesWord bs) } :=
  h.hostRead hoff ((bufferAccessOk_iff ..).2 (.inr ⟨rfl, h4, hi⟩)) hd hbs

theorem hostWindow_txbuf (h : s.cfg.txbufSize ≤ 4096) :
    HostWindow s 0x1000 s.cfg.txbufSize s.cfg.txbufSize s.txbuf := .inl ⟨rfl, rfl, rfl, h, rfl⟩

theorem hostWindow_imgbuf (h : s.cfg.imgbufSize ≤ 0x100000) :
    HostWindow s 0x100000 s.cfg.imgbufSize s.imglen.toNat s.imgbuf := .inr (.inr ⟨rfl, rfl, rfl, h, rfl⟩)

end

/-- An address a few bytes on is that many offsets on, below the top of the 32-bit space (R45). -/
theorem busOffset_add (c : Config) (addr : Word) {j : Nat} (h : busOffset c addr + j < 2 ^ 32) :
    busOffset c (addr + BitVec.ofNat 32 j) = busOffset c addr + j := by
  unfold busOffset at *
  bv_omega

/-! ### What a host access leaves alone -/

@[simp] theorem hostWriteOp_trace (v : Word) (s : State) : (hostWriteOp v s).trace = s.trace := by
  unfold hostWriteOp; split <;> rfl
@[simp] theorem hostWriteOp_registerOperands (v : Word) (s : State) :
    (hostWriteOp v s).registerOperands = s.registerOperands := by
  unfold hostWriteOp; split <;> rfl

/-- No host write transmits (R62). -/
theorem hostWrite_trace (w : Width) (addr v : Word) (s : State) : (hostWrite w addr v s).trace = s.trace := by
  rcases hostWrite_cases w addr v s with e | e | ⟨e, -⟩ | e | e | e | ⟨i, e, -⟩ | e <;> simp [e]

/-- A host write while BUSY leaves the sequencer and RXQ: a write of OP is R165's (R53). -/
theorem hostWrite_busy {w : Width} {addr v : Word} {s : State} (hb : s.busy = true) :
    (hostWrite w addr v s).seq = s.seq ∧ (hostWrite w addr v s).rxq = s.rxq := by
  rcases hostWrite_cases w addr v s with e | e | ⟨e, -⟩ | e | e | e | ⟨i, e, -⟩ | e <;>
    simp [e, hostWriteOp_busy v hb]

/-- What a host write stores does not depend on what the block is doing (R53). -/
theorem hostWrite_registerOperands (w : Width) (addr v : Word) (s : State) (q : Seq) :
    (hostWrite w addr v { s with seq := q }).registerOperands = (hostWrite w addr v s).registerOperands := by
  simp only [hostWrite, hostWriteAt]
  split
  · simp only [respond_registerOperands, writeRegister]
    split
    case h_2 => rw [hostWriteOp_registerOperands, hostWriteOp_registerOperands]; rfl
    all_goals rfl
  all_goals rfl

/-- A running operation's operands are part of SEQ (R53). -/
theorem operands_of_seq {s t : State} (hb : s.busy = true) (h : t.seq = s.seq) : t.operands = s.operands := by
  cases hs : s.seq with
  | idle => simp [busy_idle hs] at hb
  | run op o p => rw [operands_run hs, operands_run (h.trans hs)]

theorem receive_trace (b : Byte) (s : State) : (receive b s).trace = s.trace := by
  unfold receive; split <;> rfl

theorem expireTimer_trace (s : State) : (expireTimer s).trace = s.trace := by
  unfold expireTimer
  split
  · split <;> rfl
  · rfl
  · rfl

/-- A buffer read that is answered had all its bytes. -/
theorem bufferRead_next {m : Memory} {i n : Nat} {f : Fault} {s t : State} (h : bufferRead m i n f s = .next t) :
    ∃ bs, Memory.readBytes m i n = some bs ∧ t = { s with bus := .data (bytesWord bs) } := by
  unfold bufferRead at h
  split at h
  · next bs hbs => cases h; exact ⟨bs, hbs, rfl⟩
  · cases h

/-- A host read that is answered, repeated, is answered the same (R62). -/
theorem hostRead_again {w : Width} {addr : Word} {s t : State} (h : hostRead w addr s = .next t) :
    hostRead w addr t = .next t := by
  cases ht : busTarget s.cfg w (busOffset s.cfg addr) with
  | register off =>
    rw [hostRead_register ht] at h; cases h
    exact hostRead_register ht
  | tx i =>
    rw [hostRead_tx ht] at h
    obtain ⟨bs, hbs, rfl⟩ := bufferRead_next h
    exact (hostRead_tx ht).trans (bufferRead_some hbs)
  | rx i =>
    by_cases hu : s.busy = true ∨ s.rxlen.toNat < i + w.bytes
    · rw [hostRead_rx_undefined ht hu] at h; cases h
    · obtain ⟨hb, hi⟩ := not_or.1 hu
      replace hb : s.busy = false := Bool.eq_false_iff.2 hb
      rw [hostRead_rx ht hb (Nat.not_lt.1 hi)] at h
      obtain ⟨bs, hbs, rfl⟩ := bufferRead_next h
      exact (hostRead_rx ht hb (Nat.not_lt.1 hi)).trans (bufferRead_some hbs)
  | img i =>
    by_cases hu : s.imglen.toNat < i + w.bytes
    · rw [hostRead_img_undefined ht hu] at h; cases h
    · rw [hostRead_img ht (Nat.not_lt.1 hu)] at h
      obtain ⟨bs, hbs, rfl⟩ := bufferRead_next h
      exact (hostRead_img ht (Nat.not_lt.1 hu)).trans (bufferRead_some hbs)
  | fault =>
    rw [hostRead_fault ht] at h; cases h
    exact hostRead_fault ht

end Sys2Proof.Machine

namespace Sys2Proof.Proofs

open Sys2Proof Sys2Proof.Machine Sys2Proof.Safety

/-- Settles O9: the OP write latches the register operands, and what any write stores is the same whatever SEQ is. -/
theorem operandsAreLatchedAtTheOpWrite : Obligations.OperandsAreLatchedAtTheOpWrite := by
  refine ⟨fun s v hb => ?_, fun s w addr v hb => ?_⟩
  · rw [hostWriteOp_idle v hb]; rfl
  · obtain ⟨hseq, hrxq⟩ := hostWrite_busy (w := w) (addr := addr) (v := v) hb
    exact ⟨hseq, operands_of_seq hb hseq, hostWrite_trace w addr v s, hrxq,
      (hostWrite_registerOperands w addr v s .idle).symm⟩

/-- Settles O52: a write stores the bytes of its word, and a read of bytes that have a value answers them, in the order of
`bytesWord_four`. -/
theorem bufferWordsAreLittleEndian : Obligations.BufferWordsAreLittleEndian := by
  refine ⟨fun s addr v i j hoff h4 hi hsize hj => ?_, fun s addr buffer start size defined i h hoff => ⟨?_, ?_⟩⟩
  · have hwrite : hostWrite .w32 addr v s = respond .ack (writeTxbuf i (wordBytes .w32 v) s) :=
      hostWrite_tx v (hoff ▸ busTarget_tx (by omega) ((bufferAccessOk_iff ..).2 (.inr ⟨rfl, h4, hi⟩)))
    rw [hwrite]
    have hwindow := hostWindow_txbuf (s := respond .ack (writeTxbuf i (wordBytes .w32 v) s)) hsize
    have hword : Memory.readBytes (Memory.writeBytes s.txbuf i (wordBytes .w32 v)) i 4 = some (wordBytes .w32 v) :=
      Memory.readBytes_writeBytes s.txbuf i (wordBytes .w32 v)
    have hbyte : Memory.read (Memory.writeBytes s.txbuf i (wordBytes .w32 v)) (i + j) = some (v.extractLsb' (8 * j) 8) :=
      (Memory.readBytes_eq_some hword).2 j hj |>.trans (wordBytes_byte_at v hj)
    have hnext : busOffset s.cfg (addr + BitVec.ofNat 32 j) = 0x1000 + (i + j) := by
      rw [busOffset_add s.cfg addr (by omega), hoff, Nat.add_assoc]
    refine ⟨⟨_, hwindow.hostRead_word hoff h4 hi hi hword, ?_⟩,
      ⟨_, hwindow.hostRead_byte hnext (by simp; omega) (by simp; omega) hbyte, ?_⟩⟩
    · rw [bytesWord_wordBytes]
    · rw [byte_setWidth]
  · intro b hi hd hb
    exact HostWindow.hostRead_byte h hoff hi hd hb
  · intro b0 b1 b2 b3 h4 hi hd h0 h1 h2 h3
    rw [HostWindow.hostRead_word h hoff h4 hi hd (Memory.readBytes_four h0 h1 h2 h3), bytesWord_four]

/-- Settles O54: a read by what it can answer, a write by what its address reaches, and each other agent's step and silent
operation by its own law. -/
theorem hostAccessesHaveNoSideEffect : Obligations.HostAccessesHaveNoSideEffect := by
  refine ⟨fun s t w addr ht => ?_, fun s w addr v off htarget h8 => ?_, fun s w addr v i htarget => ?_,
    fun s w addr v i htarget => hostWrite_refused v htarget, fun s w addr v => hostWrite_trace w addr v s,
    fun s t b ht => ?_, expireTimer_trace, fun i w s t hw hwrite hsend hsendv hexpect hxfer ht => ?_⟩
  · have again := hostRead_again ht
    rcases hostRead_cases w addr s with ⟨v, e⟩ | e | ⟨f, e⟩ <;> rw [e] at ht <;> cases ht
    · exact ⟨rfl, fun _ => rfl, again⟩
    · exact ⟨rfl, fun h => absurd rfl h, again⟩
  · rw [hostWrite_register v htarget, writeRegister_fields v s h8]; rfl
  · rw [hostWrite_tx v htarget]
    have hlen := wordBytes_length w v
    refine ⟨⟨_, rfl⟩, fun j hj => ?_, fun a ha => ?_⟩
    · have hj' : j < (wordBytes w v).length := hlen ▸ hj
      exact (Memory.read_writeBytes_inside s.txbuf i _ hj').trans (List.getElem?_eq_getElem hj').symm
    · exact Memory.read_writeBytes_outside s.txbuf i _ (hlen ▸ ha)
  · cases ht; exact receive_trace b s
  · refine (opFrame_runsTo (exec_runsTo hw ht)).silent ?_
    cases i
    case write n => exact absurd rfl (hwrite n)
    case send n => exact absurd rfl (hsend n)
    case sendv n => exact absurd rfl (hsendv n)
    case expect n m => exact absurd rfl (hexpect n m)
    case xfer => exact absurd rfl hxfer
    case csumc | csumb | read | rdunt | setbaud | drain => simp
    all_goals cases hw

end Sys2Proof.Proofs
end

section
/-! What every step of the block keeps (20_memory.md R53, R59, R61): the host's registers, TXBUF, the sticky bits and the
events so far, and in a transfer the accepted bytes of IMGBUF. -/

namespace Sys2Proof.Machine

open Sys2Proof Sys2Proof.Safety

/-! ### The host's registers and the trace -/

/-- What no step of the block changes, and no event of before is taken back (R12, R27 to R29, R53). -/
structure BlockKeeps (s t : State) : Prop where
  setup : SameSetup s t
  trace : s.trace <+: t.trace
  sticky : SameSticky s t

theorem BlockKeeps.trans {s t u : State} (h : BlockKeeps s t) (h' : BlockKeeps t u) : BlockKeeps s u := by
  obtain ⟨⟨a1, a2, a3, a4, a5, a6, a7, a8⟩, ht, b1, b2, b3⟩ := h
  obtain ⟨⟨a1', a2', a3', a4', a5', a6', a7', a8'⟩, ht', b1', b2', b3'⟩ := h'
  exact ⟨⟨a1'.trans a1, a2'.trans a2, a3'.trans a3, a4'.trans a4, a5'.trans a5, a6'.trans a6, a7'.trans a7, a8'.trans a8⟩,
    ht.trans ht', b1'.trans b1, b2'.trans b2, b3'.trans b3⟩

theorem BlockKeeps.of_xferFrame {s t : State} (h : XferFrame s t) : BlockKeeps s t :=
  ⟨⟨h.cfg, h.inputs, h.bus, h.chkDis, h.timeout, h.xferCfg, h.imgDim, h.txbuf⟩, h.trace, h.fBusyWr, h.fRxOvr, h.fBus⟩

/-- What each operation does with its read keeps them. -/
theorem afterRead_blockKeeps (o : Operands) (kont : Kont) (got : List Byte) (seen limit : Bool) (s : State) :
    BlockKeeps s (afterRead o kont got seen limit s) := by
  cases kont with
  | read => constructor <;> simp [afterRead, readDone, SameSetup, SameSticky]
  | rdunt b =>
    obtain ⟨e, he⟩ := rduntDone_cases b got seen limit s
    rw [afterRead, he]
    constructor <;> simp [SameSetup, SameSticky]
  | sendv cmd =>
    obtain ⟨ok, err, he⟩ := sendvDone_cases cmd got s
    rw [afterRead, he]
    constructor <;> simp [SameSetup, SameSticky]
  | expect cmd reply =>
    obtain ⟨ok, err, lim, he⟩ := expectDone_cases cmd reply got s
    rw [afterRead, he]
    constructor <;> simp [SameSetup, SameSticky]
  | xferEcho =>
    have stored : BlockKeeps s (putReceived got s) := by constructor <;> simp [SameSetup, SameSticky]
    exact stored.trans (.of_xferFrame (xferEchoDone_frame o got s))
  | xferBlock k i => exact .of_xferFrame (xferBlockDone_frame o k i got s)

/-- The block taking up a read keeps them, whether it goes on or waits. -/
theorem resumeRead_blockKeeps (op : Word) (o : Operands) (r : ReadCtx) (s : State) :
    BlockKeeps s (resumeRead op o r s) := by
  refine resumeRead_rule (fun got seen limit q _ _ => ?_) fun got _ => ?_
  · have taken : BlockKeeps s { s with rxq := q } := by constructor <;> simp [SameSetup, SameSticky]
    exact taken.trans (afterRead_blockKeeps ..)
  · constructor <;> simp [SameSetup, SameSticky]

/-- What an operation does before its read keeps them: at most it transmits a frame. -/
theorem StartsRead.blockKeeps {s u : State} {i : Instr} {r : ReadCtx} (h : StartsRead s i r u) : BlockKeeps s u := by
  cases h <;> constructor <;> simp [SameSetup, SameSticky, framed, transferBegun]

/-- Each outcome of an operation keeps them. -/
theorem RunsTo.blockKeeps {s t : State} {i : Instr} (h : RunsTo s i t) : BlockKeeps s t := by
  cases h
  case reads r u op h => exact h.blockKeeps.trans (resumeRead_blockKeeps ..)
  case transfer hx =>
    have begun : BlockKeeps s (transferBegun s.operands s) := by
      constructor <;> simp [SameSetup, SameSticky, transferBegun]
    exact begun.trans (.of_xferFrame (blockLoop_frame s.operands 0 _))
  all_goals constructor <;> simp [SameSetup, SameSticky, framed]

theorem rejectWord_blockKeeps (e : DecodeError) (s : State) : BlockKeeps s (rejectWord e s) := by
  cases e <;> constructor <;> simp [rejectWord, SameSetup, SameSticky]

/-! ### The accepted bytes of IMGBUF -/

/-- IMGBUF of `t` holds below `n` what `m` holds there. -/
def ImageBelow (m : Memory) (n : Nat) (t : State) : Prop := ∀ a, a < n → Memory.read t.imgbuf a = Memory.read m a

theorem ImageBelow.congr {m : Memory} {n : Nat} {s t : State} (h : ImageBelow m n s) (ht : t.imgbuf = s.imgbuf) :
    ImageBelow m n t := by
  unfold ImageBelow
  rwa [ht]

section
variable {m : Memory} {n k : Nat} {o : Operands} {s : State} (hn : n ≤ k * o.blockBytes)
include hn

/-- An accepted block is stored from k × bb on (R123). -/
theorem ImageBelow.accept (h : ImageBelow m n s) (data : List Byte) : ImageBelow m n (acceptBlock o k data s) := by
  intro a ha
  rw [acceptBlock_eq, storeBlock_imgbuf, Memory.read_writeBytes_outside _ _ _ (.inl (by omega))]
  exact h a ha

theorem ImageBelow.judgeAttempt (h : ImageBelow m n s) (d : List Byte) :
    match judgeAttempt o k d s with
    | .waiting t => ImageBelow m n t
    | .accepted t => ImageBelow m n t
    | .failed _ t => ImageBelow m n t := by
  rcases judgeAttempt_cases o k d s with ⟨-, e⟩ | ⟨-, -, x, e⟩ | ⟨-, -, -, x, e⟩ <;> simp only [e]
  · exact h.congr rfl
  · exact ImageBelow.accept hn (h.congr (by simp)) _
  · exact h.congr (by simp)

theorem ImageBelow.attemptLoop (h : ImageBelow m n s) {left i : Nat} (cause : ErrCode)
    (hi : left ≠ 0 → i + left ≤ o.maxTries) :
    match attemptLoop o k left i cause s with
    | .waiting t => ImageBelow m n t
    | .accepted t => ImageBelow m n t
    | .failed _ t => ImageBelow m n t := by
  refine attemptLoop_rule (P := fun _ => ImageBelow m n) (W := ImageBelow m n) (A := ImageBelow m n)
    (F := fun _ => ImageBelow m n) ?_ ?_ ?_ ?_ left i cause s hi h fun _ => h
  · exact fun i t _ hp _ _ => hp.congr (by simp)
  · intro i t d rest _ hp _ _
    have := hp.congr (t := putBlkbuf d (afterAttemptRead i rest t)) (by simp)
    exact ⟨this, this⟩
  · intro i t d rest x _ hp _ _ _ _
    have := hp.congr (t := signalMismatch (putBacc x (putBlkbuf d (afterAttemptRead i rest t)))) (by simp)
    exact ⟨this, this⟩
  · exact fun i t d rest x _ hp _ _ => ImageBelow.accept hn (hp.congr (by simp)) _

theorem ImageBelow.blockLoop (h : ImageBelow m n s) : ImageBelow m n (blockLoop o (o.totalBlocks - k) k s) := by
  refine blockLoop_rule (P := fun j t => n ≤ j * o.blockBytes ∧ ImageBelow m n t) ?_ ?_ _ k s rfl ⟨hn, h⟩
  · rintro j t _ ⟨hj, ht⟩
    have hloop := ImageBelow.attemptLoop hj ht .noError (left := o.maxTries) (i := 0) (by omega)
    revert hloop
    cases Machine.attemptLoop o j o.maxTries 0 .noError t with
    | waiting u => exact id
    | failed c u => exact fun hu => hu.congr rfl
    | accepted u => exact fun hu => ⟨hj.trans (Nat.mul_le_mul_right _ (Nat.le_succ j)), hu⟩
  · rintro j t _ ⟨-, ht⟩; exact ht.congr rfl

/-- XFER going on after an attempt of block `k` leaves IMGBUF below k × bb (R61, R123). -/
theorem ImageBelow.xferBlockDone (h : ImageBelow m n s) (i : Nat) (d : List Byte) :
    ImageBelow m n (xferBlockDone o k i d s) := by
  have hj := ImageBelow.judgeAttempt hn h d
  refine xferBlockDone_rule (P := fun _ => ImageBelow m n) ?_ ?_ ?_
  · intro t ht; rw [ht] at hj; exact hj
  · intro c t ht
    rw [ht] at hj
    have hloop := ImageBelow.attemptLoop hn hj c (left := o.maxTries - (i + 1)) (i := i + 1) (by omega)
    revert hloop
    cases Machine.attemptLoop o k (o.maxTries - (i + 1)) (i + 1) c t with
    | waiting u => exact id
    | failed c u => exact fun hu => hu.congr rfl
    | accepted u => exact id
  · exact fun t ht => ImageBelow.blockLoop (hn.trans (Nat.mul_le_mul_right _ (Nat.le_succ k))) ht

end

end Sys2Proof.Machine

namespace Sys2Proof.Proofs

open Sys2Proof Sys2Proof.Machine Sys2Proof.Safety

/-- Settles O56: the block runs an operation to one of its outcomes, refuses its word, or takes up a read. -/
theorem blockStepKeepsHostRegistersAndTrace : Obligations.BlockStepKeepsHostRegistersAndTrace := by
  intro s t ht hbusy
  suffices h : BlockKeeps s t from ⟨h.setup, h.trace, h.sticky⟩
  unfold blockMove at ht
  split at ht
  · next hs => exact absurd hs hbusy
  · unfold runOperation at ht
    split at ht
    · next hd =>
      obtain ⟨w, hw⟩ := decodeOp_encode hd
      exact (exec_runsTo hw ht).blockKeeps
    · cases ht; exact rejectWord_blockKeeps ..
  · cases ht; exact resumeRead_blockKeeps ..

/-- Settles O53: the host's read of IMGBUF does not look at SEQ, and block `k` and those after it are stored from k × bb
on. -/
theorem acceptedImageBytesStay : Obligations.AcceptedImageBytesStay := by
  refine ⟨fun s addr i b hoff hlen hi hsize hb => (hostWindow_imgbuf hsize).hostRead_byte hoff hi hlen hb,
    fun s t op o r k i a hs hk hlen ht ha => ?_⟩
  rw [blockMove, hs] at ht
  cases ht
  refine resumeRead_rule (P := fun t => Memory.read t.imgbuf a = Memory.read s.imgbuf a) ?_ fun got _ => rfl
  intro got seen limit q _ _
  rw [hk]
  exact ImageBelow.xferBlockDone hlen.le (s := { s with rxq := q }) (fun _ _ => rfl) i got a ha

end Sys2Proof.Proofs
end

section
/-! The encodings (30_encoding.md R63 to R72): what each word or byte string decodes to, and that it is the encoding of what it
decodes to. -/

namespace Sys2Proof

/-! ### Operation words -/

/-- An operation word is the one assembled from its three fields, the operation code given by its number (R63). -/
theorem op_of_fields {w : Word} {opc b : Byte} {n : BitVec 16} (hopc : (opcOf w).toNat = opc.toNat) (hb : bOf w = b)
    (hn : nOf w = n) : Encoded.op (opWord opc b n) = .op w := by
  rw [← BitVec.eq_of_toNat_eq hopc, ← hb, ← hn, opWord_fields]

/-- An operation word that decodes is the encoding of what it decodes to: the fields it does not hold as operands are zero
(R65, R67). -/
theorem encode_of_decodeOp {w : Word} {i : Instr} (h : decodeOp w = .ok i) : encode i = .op w := by
  simp only [decodeOp] at h
  split at h
  case h_12 => cases h
  case h_5 hopc | h_10 hopc =>
    cases h
    exact op_of_fields hopc rfl rfl
  case h_6 hopc =>
    obtain ⟨hn, rfl⟩ := requireZero_ok h
    exact op_of_fields hopc rfl (eq_of_beq hn)
  case h_7 hopc | h_11 hopc =>
    obtain ⟨hz, rfl⟩ := requireZero_ok h
    obtain ⟨hb, hn⟩ := Bool.and_eq_true_iff.1 hz
    exact op_of_fields hopc (eq_of_beq hb) (eq_of_beq hn)
  case h_1 hopc | h_2 hopc | h_3 hopc | h_4 hopc | h_8 hopc | h_9 hopc =>
    obtain ⟨hb, rfl⟩ := requireZero_ok h
    exact op_of_fields hopc (eq_of_beq hb) rfl

/-- A word whose operation code is not listed (R66). -/
theorem decodeOp_unlisted {w : Word} (h : (opcOf w).toNat ∉ listedOpcodes) : decodeOp w = .error .illegalOp := by
  simp only [decodeOp]
  split
  case h_12 => rfl
  all_goals
    next hopc => exact absurd (hopc ▸ by decide) h

/-- The operations without an operand in B (R65, R67). -/
theorem decodeOp_nonzeroB {w : Word} (hopc : (opcOf w).toNat ∈ [0x01, 0x02, 0x10, 0x11, 0x20, 0x21]) (hb : bOf w ≠ 0#8) :
    decodeOp w = .error .badArg := by
  simp only [List.mem_cons, List.not_mem_nil, or_false] at hopc
  rcases hopc with h | h | h | h | h | h <;> simp [decodeOp, requireZero, h, hb]

/-- SETBAUD has no operand in N (R65, R67). -/
theorem decodeOp_setbaud_nonzeroN {w : Word} (hopc : (opcOf w).toNat = 0x13) (hn : nOf w ≠ 0#16) :
    decodeOp w = .error .badArg := by
  simp [decodeOp, requireZero, hopc, hn]

/-- DRAIN and XFER have no operand (R65, R67). -/
theorem decodeOp_nonzeroField {w : Word} (hopc : (opcOf w).toNat ∈ [0x14, 0x30]) (h : bOf w ≠ 0#8 ∨ nOf w ≠ 0#16) :
    decodeOp w = .error .badArg := by
  have hz : (bOf w == 0#8 && nOf w == 0#16) = false := by simpa [imp_iff_not_or] using h
  simp only [List.mem_cons, List.not_mem_nil, or_false] at hopc
  rcases hopc with ho | ho <;> simp only [decodeOp, requireZero, ho, hz] <;> rfl

/-! ### Wire rows -/

/-- The bytes of a command, its opcode given by its number (R71). -/
theorem frame_of_opcode {opcode first : Byte} (h : opcode.toNat = first.toNat) (args : List Byte) :
    Encoded.frame (first :: args) = .frame (opcode :: args) := by
  rw [BitVec.eq_of_toNat_eq h]

/-- A one-byte command that decodes has no bytes after its opcode (R71). -/
theorem encode_of_noArgs {opcode first : Byte} {args : List Byte} {i j : Instr} (h : noArgs args j = .ok i)
    (hj : encode j = .frame [first]) (hopcode : opcode.toNat = first.toNat) : encode i = .frame (opcode :: args) := by
  cases args with
  | nil => cases h; rw [hj, frame_of_opcode hopcode]
  | cons => cases h

theorem encode_of_decodeHeater {args : List Byte} {i : Instr} (h : decodeHeater args = .ok i) :
    encode i = .frame (0x67#8 :: args) := by
  unfold decodeHeater at h
  split at h
  · split at h
    · next ha => cases h; rw [ha]; rfl
    · split at h <;> cases h
      next ha => rw [ha]; rfl
  · cases h

theorem encode_of_decodeBaudSelect {args : List Byte} {i : Instr} (h : decodeBaudSelect args = .ok i) :
    encode i = .frame (0x42#8 :: args) := by
  unfold decodeBaudSelect at h
  split at h <;> cases h
  rfl

theorem encode_of_decodeTakeImage {args : List Byte} {i : Instr} (h : decodeTakeImage args = .ok i) :
    encode i = .frame (0x54#8 :: args) := by
  unfold decodeTakeImage at h
  split at h <;> cases h
  rfl

/-- The bytes of a command that decodes are the encoding of what they decode to (R71, R132 to R145). -/
theorem encode_of_decodeCommand {bs : List Byte} {i : Instr} (h : decodeCommand bs = .ok i) : encode i = .frame bs := by
  cases bs with
  | nil => cases h
  | cons opcode args =>
    simp only [decodeCommand] at h
    split at h
    case h_5 hopcode => rw [encode_of_decodeHeater h, frame_of_opcode hopcode]
    case h_8 hopcode => rw [encode_of_decodeBaudSelect h, frame_of_opcode hopcode]
    case h_9 hopcode => rw [encode_of_decodeTakeImage h, frame_of_opcode hopcode]
    case h_14 => cases h
    all_goals
      next hopcode => exact encode_of_noArgs h rfl hopcode

/-- A signal byte that decodes is the encoding of what it decodes to (R72). -/
theorem encode_of_decodeSignal {b : Byte} {i : Instr} (h : decodeSignal b = .ok i) : encode i = .signal b := by
  unfold decodeSignal at h
  split at h <;> cases h
  all_goals
    next hb => exact congrArg Encoded.signal (BitVec.eq_of_toNat_eq hb.symm)

/-- A marker byte that decodes is the encoding of what it decodes to (R72). -/
theorem encode_of_decodeMarker {b : Byte} {i : Instr} (h : decodeMarker b = .ok i) : encode i = .marker b := by
  unfold decodeMarker at h
  split at h <;> cases h
  all_goals
    next hb => exact congrArg Encoded.marker (BitVec.eq_of_toNat_eq hb.symm)

theorem decode_of_decodeTableWord {nbits w : Nat} {i : Instr} (h : decodeTableWord nbits w = some i) :
    decode (tableEncoded nbits w) = .ok i := by
  unfold decodeTableWord at h
  split at h <;> cases h
  assumption

end Sys2Proof

namespace Sys2Proof.Proofs

open Sys2Proof

/-- Settles O1: the fields of an assembled operation word are those it was assembled from, and the bytes of a wire row are
literals but for the arguments `decode` returns. -/
theorem decodeOfEncodeIsIdentity : Obligations.DecodeOfEncodeIsIdentity := by
  intro i
  cases i
  case csumc | csumb | write | read | rdunt | setbaud | drain | send | sendv | expect | xfer =>
    simp [encode, decode, decodeOp, requireZero]
  all_goals rfl

/-- Settles O2, format by format. -/
theorem everyEncodingHasOneMeaning : Obligations.EveryEncodingHasOneMeaning := by
  intro e i h
  cases e with
  | op w => exact encode_of_decodeOp h
  | frame bs => exact encode_of_decodeCommand h
  | signal b => exact encode_of_decodeSignal h
  | marker b => exact encode_of_decodeMarker h

/-- Settles O3: each word and byte string is a literal, so the decoder evaluates on it. -/
theorem sampleEncodingsDecodeAsTabled : Obligations.SampleEncodingsDecodeAsTabled := by
  unfold Obligations.SampleEncodingsDecodeAsTabled
  decide

end Sys2Proof.Proofs
end

section
/-! What the block does with an operation word: one that does not decode, or whose operands are out of range, finishes with
STATUS changed and nothing else (30_encoding.md R66, R67); one that decodes is run (R68). -/

namespace Sys2Proof.Machine

open Sys2Proof

/-! ### Words that are refused -/

/-- An accepted operation that fails at once leaves of the OP write and of itself only what is in STATUS (R30, R161). -/
theorem fail_acceptOp {s : State} (hb : s.busy = false) (e : ErrCode) (w : Word) :
    fail e (acceptOp w s) = { s with status := s.status.start.finish false e } := by
  rw [seq_of_not_busy hb]
  rfl

/-- The block's step after the OP write of a word that does not decode (R66, R67). -/
theorem blockMove_hostWriteOp_error {s : State} {w : Word} {e : DecodeError} (hb : s.busy = false)
    (h : decodeOp w = .error e) : blockMove (hostWriteOp w s) = .next (rejectWord e (acceptOp w s)) := by
  simp [hostWriteOp_idle w hb, blockMove, runOperation, decode, h]

/-- The range each operation checks is the one `Instr.wf` gives it; outside it, the operation finishes with BAD_ARG (R65,
R67). -/
theorem exec_illFormed {i : Instr} {w : Word} {s : State} (hw : encode i = .op w) (h : i.wf s.cfg = false) :
    exec i s = .next (fail .badArg s) := by
  have out : ¬ i.wf s.cfg = true := by simp [h]
  cases i
  case csumc | csumb | write | read | rdunt | setbaud | send | sendv | expect => exact if_neg out
  case drain | xfer => exact absurd rfl out
  all_goals cases hw

/-! ### Moves that decode -/

theorem step_cons {s : State} {m : Move} {rest : List Move} (h : s.inputs = m :: rest) :
    step s = agentMove m { s with inputs := rest } := by
  unfold step; rw [h]

theorem step_nil {s : State} (h : s.inputs = []) : step s = agentMove (defaultMove s) s := by
  unfold step; rw [h]

/-- The block's move in phase EXEC is exec of the latched word (R68). -/
theorem blockMove_exec {s : State} {op : Word} {o : Operands} {i : Instr} (hs : s.seq = .run op o .exec)
    (h : decode (.op op) = .ok i) : blockMove s = exec i s := by
  simp only [blockMove, hs, runOperation, h]

theorem defaultMove_exec {s : State} {op : Word} {o : Operands} (hs : s.seq = .run op o .exec) :
    defaultMove s = .block := by
  simp only [defaultMove, hs]

theorem commandMove_ok {bs : List Byte} {i : Instr} (h : decode (.frame bs) = .ok i) (s : State) :
    commandMove bs s = exec i s := by
  simp only [commandMove, h]

theorem signalMove_ok {b : Byte} {i : Instr} (h : decode (.signal b) = .ok i) (s : State) :
    signalMove b s = exec i s := by
  simp only [signalMove, h]

theorem markerMove_ok {b : Byte} {i : Instr} (h : decode (.marker b) = .ok i) (s : State) :
    markerMove b s = exec i s := by
  simp only [markerMove, h]

end Sys2Proof.Machine

namespace Sys2Proof.Proofs

open Sys2Proof Sys2Proof.Machine

/-- Settles O4: the word does not decode, and the block's step fails it. -/
theorem reservedOpcodeFinishesIllegalOp : Obligations.ReservedOpcodeFinishesIllegalOp := by
  intro s w hb hopc
  rw [blockMove_hostWriteOp_error hb (decodeOp_unlisted hopc)]
  exact congrArg _ (fail_acceptOp hb .illegalOp w)

/-- Settles O5: a word with a nonzero must-be-zero field does not decode, and an operation checks its ranges before anything
else. -/
theorem illegalOperandFinishesBadArg : Obligations.IllegalOperandFinishesBadArg := by
  refine ⟨fun s w hb hfield => ?_, fun s i w hw hwf => exec_illFormed hw hwf⟩
  have hbad : decodeOp w = .error .badArg := by
    rcases hfield with ⟨hopc, h⟩ | ⟨hopc, h⟩ | ⟨hopc, h⟩
    · exact decodeOp_nonzeroB hopc h
    · exact decodeOp_setbaud_nonzeroN hopc h
    · exact decodeOp_nonzeroField hopc h
  rw [blockMove_hostWriteOp_error hb hbad]
  exact congrArg _ (fail_acceptOp hb .badArg w)

/-- Settles O6: the step is the listed agent's move, or the block's, and that move decodes and runs. -/
theorem stepRunsTheDecodedInstruction : Obligations.StepRunsTheDecodedInstruction := by
  refine ⟨fun s op o i rest hs hd => ⟨fun hin => ?_, fun hin => ?_⟩, fun s bs i rest hin hd => ?_,
    fun s b i rest hin hd => ?_, fun s b i rest hin hd => ?_⟩
  · rw [step_cons hin]; exact blockMove_exec hs hd
  · rw [step_nil hin, defaultMove_exec hs]; exact blockMove_exec hs hd
  · rw [step_cons hin]; exact commandMove_ok hd _
  · rw [step_cons hin]; exact signalMove_ok hd _
  · rw [step_cons hin]; exact markerMove_ok hd _

/-- Settles O7 from O6: placing puts the encoding at the head of the moves, an operation word latched in phase EXEC. -/
theorem placedTableWordRunsNext : Obligations.PlacedTableWordRunsNext := by
  intro s nbits w i h
  have hd := decode_of_decodeTableWord h
  obtain ⟨hblock, hcommand, hsignal, hmarker⟩ := stepRunsTheDecodedInstruction
  unfold State.withFetchWord
  cases he : tableEncoded nbits w <;> rw [he] at hd
  case op v => exact (hblock _ v _ i s.inputs rfl hd).1 rfl
  case frame bs => exact hcommand _ bs i s.inputs rfl hd
  case signal b => exact hsignal _ b i s.inputs rfl hd
  case marker b => exact hmarker _ b i s.inputs rfl hd

end Sys2Proof.Proofs
end

section
/-! How a checksum answers a change of one byte (40_checksum.md R80 to R86), from which the statements about the checksums
follow; and the codec's operations on written bytes (R87, R88). -/

namespace Sys2Proof.Machine

open Sys2Proof

/-! ### The term of a byte -/

/-- Masking distributes over XOR. -/
theorem xor_and (x y m : Byte) : (x ^^^ y) &&& m = (x &&& m) ^^^ (y &&& m) := by
  ext j
  simp only [BitVec.getElem_and, BitVec.getElem_xor, Bool.and_xor_distrib_right]

/-- The term of a byte is its low seven bits, complemented (R80). -/
theorem inv7_eq (b : Byte) : inv7 b = (b &&& 0x7F#8) ^^^ 0x7F#8 := by
  rw [inv7, ← BitVec.xor_allOnes, xor_and, BitVec.allOnes_and]

/-- The flips `x` of a byte are those of its term in bits 0 to 6. -/
theorem inv7_xor (b x : Byte) : inv7 (b ^^^ x) = inv7 b ^^^ (x &&& 0x7F#8) := by
  rw [inv7_eq, inv7_eq, xor_and]
  ac_rfl

/-! ### The closed form of the command checksum -/

/-- What the complements of `k` terms come to: 7F when `k` is odd (R82). -/
def complementsMask (k : Nat) : Byte := if k % 2 = 1 then 0x7F#8 else 0x00#8

theorem complementsMask_succ (k : Nat) : complementsMask (k + 1) = 0x7F#8 ^^^ complementsMask k := by
  unfold complementsMask
  rcases Nat.mod_two_eq_zero_or_one k with h | h <;> simp [Nat.succ_mod_two_eq_one_iff, h]

theorem cmdChecksum_eq_masked_xorAll (s : List Byte) :
    cmdChecksum s = (xorAll s &&& 0x7F#8) ^^^ complementsMask s.length := by
  induction s with
  | nil => rfl
  | cons b s ih =>
    rw [← blkChecksum_eq] at ih ⊢
    rw [cmdChecksum_cons, ih, blkChecksum_cons, xor_and, inv7_eq, List.length_cons, complementsMask_succ]
    ac_rfl

theorem cmdChecksum_le (s : List Byte) : (cmdChecksum s).toNat ≤ 0x7F := by
  have h : (cmdChecksum s).msb = false := cmdChecksum_bit7 s
  have := BitVec.msb_eq_false_iff_two_mul_lt.mp h
  omega

theorem cmdChecksum_perm {s t : List Byte} (h : s.Perm t) : cmdChecksum s = cmdChecksum t := by
  induction h with
  | nil => rfl
  | cons b _ ih => rw [cmdChecksum_cons, cmdChecksum_cons, ih]
  | swap b c s => simp only [cmdChecksum_cons]; ac_rfl
  | trans _ _ ih₁ ih₂ => exact ih₁.trans ih₂

/-- R83: the term of the checksum byte is its complement in 7 bits, so 7F is left. -/
theorem cmdChecksum_frame (s : List Byte) : cmdChecksum (s ++ [cmdChecksum s]) = 0x7F#8 := by
  rw [cmdChecksum_append, cmdChecksum_cons, cmdChecksum_nil, BitVec.xor_zero, inv7_of_bit7 (cmdChecksum_bit7 s),
    ← BitVec.xor_assoc, BitVec.xor_self, BitVec.zero_xor]

/-! ### Flipping bits of one byte, and of two -/

theorem cmdChecksum_flip (p q : List Byte) (b x : Byte) :
    cmdChecksum (p ++ (b ^^^ x) :: q) = cmdChecksum (p ++ b :: q) ^^^ (x &&& 0x7F#8) := by
  simp only [cmdChecksum_append, cmdChecksum_cons, inv7_xor]
  ac_rfl

theorem blkChecksum_flip (p q : List Byte) (b x : Byte) :
    blkChecksum (p ++ (b ^^^ x) :: q) = blkChecksum (p ++ b :: q) ^^^ x := by
  simp only [blkChecksum_append, blkChecksum_cons]
  ac_rfl

/-- A checksum that answers the flips `x` of a byte with the same flips `m` wherever the byte stands does not see them made
twice. -/
theorem two_flips_cancel {f : List Byte → Byte} {x m : Byte}
    (hf : ∀ p q b, f (p ++ (b ^^^ x) :: q) = f (p ++ b :: q) ^^^ m) (p q r : List Byte) (b c : Byte) :
    f (p ++ (b ^^^ x) :: (q ++ (c ^^^ x) :: r)) = f (p ++ b :: (q ++ c :: r)) := by
  have second : f (p ++ b :: (q ++ (c ^^^ x) :: r)) = f (p ++ b :: (q ++ c :: r)) ^^^ m := by
    simpa using hf (p ++ b :: q) r c
  rw [hf, second, BitVec.xor_assoc, BitVec.xor_self, BitVec.xor_zero]

theorem bit_masked_low : ∀ j ≤ 6, (1#8 <<< j) &&& 0x7F#8 = 1#8 <<< j := by decide

theorem bit_ne_zero : ∀ j ≤ 7, 1#8 <<< j ≠ 0#8 := by decide

theorem xor_ne_self {x : Byte} (hx : x ≠ 0#8) (y : Byte) : y ^^^ x ≠ y := fun h => hx (by simpa using h)

/-- R86: the XOR of a block's data is its checksum byte exactly when the XOR of both is 0. -/
theorem blkChecksum_append_singleton_eq_zero (data : List Byte) (c : Byte) :
    blkChecksum (data ++ [c]) = 0#8 ↔ blkChecksum data = c := by
  rw [blkChecksum_append, blkChecksum_cons, blkChecksum_nil, BitVec.xor_zero, BitVec.xor_eq_zero_iff]

/-! ### The codec's operations -/

section
variable {s : State} {n : BitVec 16} {bs : List Byte}

theorem exec_csumc_written (hn : txCountOk s.cfg n = true) (hread : latchedTx s.operands 0 n.toNat = some bs) :
    exec (.csumc n) s = .next (succeed (putCommandChecksum (cmdChecksum bs) s)) := by
  simp only [exec, execCsumc, hn, hread, if_true]

theorem exec_csumb_written (hn : txCountOk s.cfg n = true) (hread : latchedTx s.operands 0 n.toNat = some bs) :
    exec (.csumb n) s = .next (succeed (putBlockChecksum (blkChecksum bs) s)) := by
  simp only [exec, execCsumb, hn, hread, if_true]

end

end Sys2Proof.Machine

namespace Sys2Proof.Proofs

open Sys2Proof Sys2Proof.Machine

/-- Settles O10: the closed form by induction on the bytes, the range from bit 7, the order by the commutativity of XOR. -/
theorem commandChecksumClosedForm : Obligations.CommandChecksumClosedForm :=
  ⟨cmdChecksum_eq_masked_xorAll, cmdChecksum_le, fun _ _ => cmdChecksum_perm⟩

/-- Settles O11: the frame's checksum is 7F, so it is the command's own when that is 7F. -/
theorem commandChecksumOfAFrame : Obligations.CommandChecksumOfAFrame := by
  intro s
  rw [cmdChecksum_frame]
  exact ⟨rfl, eq_comm⟩

/-- Settles O12: the flips reach the checksum through the mask 7F, which keeps bits 0 to 6 and clears bit 7. -/
theorem commandChecksumDetectsLowBitFlips : Obligations.CommandChecksumDetectsLowBitFlips := by
  refine ⟨fun p q b j hj => ?_, fun p q b => ?_, fun p q r b c j _ => ?_⟩
  · rw [cmdChecksum_flip, bit_masked_low j hj]
  · have masked : (1#8 <<< 7) &&& 0x7F#8 = 0#8 := by decide
    rw [cmdChecksum_flip, masked, BitVec.xor_zero]
  · exact two_flips_cancel (fun p q b => cmdChecksum_flip p q b _) p q r b c

/-- Settles O13: the flips reach the block checksum as they are, and a flipped bit is not 0. -/
theorem blockChecksumDetectsEveryBitFlip : Obligations.BlockChecksumDetectsEveryBitFlip := by
  refine ⟨fun p q b j hj => ⟨blkChecksum_flip p q b _, ?_⟩, fun data j hj => ?_, fun p q r b c j _ => ?_,
    fun data c => (blkChecksum_append_singleton_eq_zero data c).symm⟩
  · rw [blkChecksum_flip]
    exact xor_ne_self (bit_ne_zero j hj) _
  · exact (xor_ne_self (bit_ne_zero j hj) _).symm
  · exact two_flips_cancel (fun p q b => blkChecksum_flip p q b _) p q r b c

/-- Settles O14: the count is in range and the bytes are written, so the operation succeeds with their checksum. -/
theorem csumcPutsTheCommandChecksumInResult : Obligations.CsumcPutsTheCommandChecksumInResult :=
  fun _ _ _ hn hread => exec_csumc_written (decide_eq_true hn) hread

/-- Settles O15: as O14, with the XOR of the bytes. -/
theorem csumbPutsTheBlockChecksumInResult : Obligations.CsumbPutsTheBlockChecksumInResult :=
  fun _ _ _ hn hread => exec_csumb_written (decide_eq_true hn) hread

end Sys2Proof.Proofs
end

section
/-! The reads of READ and RDUNT (41_transport.md R94 to R99): what a read that returned or waits has done, and what the two
operations come to, from their start and at the block's step from a wait. -/

namespace Sys2Proof.Machine

open Sys2Proof

theorem forall_mem_some_ne {b : Byte} {q : List Byte} (h : b ∉ q) : ∀ c ∈ q, some b ≠ some c :=
  fun _ hc he => h (Option.some.inj he ▸ hc)

theorem forall_limit_lt {limit : Option Nat} {n m : Nat} (hl : limit = some n) (h : m < n) : ∀ j, limit = some j → m < j :=
  fun _ hj => Option.some.inj (hl.symm.trans hj) ▸ h

/-! ### What a read has done -/

/-- A read that returned is its consuming loop: RXQ is what the loop left, the flags say why it stopped, and a loop that ran
dry had a budget (R94). -/
theorem rxContinue_returned {op : Word} {o : Operands} {r : ReadCtx} {s t : State} {got : List Byte} {seen limit : Bool}
    (h : rxContinue op o r s = .returned got seen limit t) :
    ∃ sc, ScanSpec r.term (r.limit.map (· - r.got.length)) r.budget s.rxq sc ∧ got = r.got ++ sc.taken
      ∧ t = { s with rxq := sc.rest } ∧ seen = decide (sc.stop = .term)
      ∧ limit = (decide (sc.stop = .limit) && r.term.isSome) ∧ (sc.stop = .dry → r.budget.isSome = true) := by
  obtain ⟨sc, hsc, hcases⟩ := rxContinue_cases op o r s
  refine ⟨sc, hsc ▸ rxScan_spec .., ?_⟩
  rcases hcases with ⟨hstop, he⟩ | ⟨hstop, he⟩ | ⟨hstop, hb, he⟩ | ⟨-, -, he⟩ <;> rw [he] at h <;> cases h
  · simp [hstop]
  · simp [hstop]
  · simp [hstop, hb]

/-- A loop that ran dry stopped below the limit of its read, which had `g` bytes (R94). -/
theorem ScanSpec.below_limit_of_dry {term : Option Byte} {limit budget : Option Nat} {q : List Byte} {sc : Scan} {g n : Nat}
    (sp : ScanSpec term (limit.map (· - g)) budget q sc) (hdry : sc.stop = .dry) (hn : limit = some n) :
    g + sc.taken.length < n := by
  subst hn
  have hle := sp.within (n - g) rfl
  have hne : n - g ≠ sc.taken.length := by simpa using (sp.dryStop hdry).1
  omega

/-- A read that waits has no deadline yet, its loop has run dry, and RXQ and SEQ are all that changed (R94). -/
theorem rxContinue_waiting {op : Word} {o : Operands} {r : ReadCtx} {s t : State} (h : rxContinue op o r s = .waiting t) :
    r.budget = none ∧ ∃ sc, ScanSpec r.term (r.limit.map (· - r.got.length)) r.budget s.rxq sc ∧ sc.stop = .dry
      ∧ t = { s with rxq := sc.rest, seq := .run op o (.waitRx { r with got := r.got ++ sc.taken }) } := by
  obtain ⟨sc, hsc, hcases⟩ := rxContinue_cases op o r s
  rcases hcases with ⟨-, he⟩ | ⟨-, he⟩ | ⟨-, -, he⟩ | ⟨hstop, hb, he⟩ <;> rw [he] at h <;> cases h
  exact ⟨hb, sc, hsc ▸ rxScan_spec .., hstop, rfl⟩

/-- A read with a budget returns (R95). -/
theorem rxContinue_returns_of_budget (op : Word) (o : Operands) {r : ReadCtx} {k : Nat} (hb : r.budget = some k) (s : State) :
    ∃ got seen limit t, rxContinue op o r s = .returned got seen limit t := by
  cases h : rxContinue op o r s with
  | returned got seen limit t => exact ⟨got, seen, limit, t, rfl⟩
  | waiting t => exact nomatch hb.symm.trans (rxContinue_waiting h).1

/-- A limited read without terminator, once its bytes are there or `k` is its budget, returns the first of what it has and
the `k` bytes queued, up to its limit (R94, R95). -/
theorem rxContinue_upTo {op : Word} {o : Operands} {r : ReadCtx} {s : State} {n k : Nat} {d : List Byte}
    (hl : r.limit = some n) (ht : r.term = none) (hg : r.got.length ≤ n)
    (hk : r.budget = none ∧ k = s.rxq.length ∧ n ≤ r.got.length + k ∨ r.budget = some k)
    (hd : d = (r.got ++ s.rxq.take k).take n) :
    rxContinue op o r s = .returned d false false { s with rxq := s.rxq.drop (d.length - r.got.length) } := by
  by_cases hfull : n ≤ r.got.length + min k s.rxq.length
  · have hdm : d = r.got ++ s.rxq.take (n - r.got.length) := by
      rw [hd, List.take_append, List.take_of_length_le hg, List.take_take, Nat.min_eq_left (by omega)]
    have hlen : d.length - r.got.length = n - r.got.length := by rw [hdm]; simp; omega
    rw [rxContinue_full (m := n - r.got.length) hl (by omega) (by omega) ?budget (by simp [ht]), hlen, ← hdm, ht]
    · rfl
    case budget =>
      intro j hj
      rcases hk with ⟨hnone, -, -⟩ | hsome
      · simp [hnone] at hj
      · cases hsome.symm.trans hj; omega
  · have hb : r.budget = some k := by
      rcases hk with ⟨-, rfl, hn⟩ | hsome
      · omega
      · exact hsome
    have hlen : (r.got ++ s.rxq.take k).length = r.got.length + min k s.rxq.length := by simp
    rw [List.take_of_length_le (by omega)] at hd
    have hdrop : s.rxq.drop (d.length - r.got.length) = s.rxq.drop k := by
      rw [hd, hlen, Nat.add_sub_cancel_left]
      rcases Nat.le_total k s.rxq.length with h | h
      · rw [Nat.min_eq_left h]
      · rw [Nat.min_eq_right h, List.drop_length, List.drop_of_length_le h]
    rw [rxContinue_expired hb (forall_limit_lt hl (by simpa using hfull)) (by simp [ht]), hdrop, hd]

/-- A read without terminator of timeout 0, and any that finds its bytes queued, returns the oldest ones at once (R94). -/
theorem rxRead_atOnce {op : Word} {o : Operands} {n t : Nat} {kont : Kont} {s : State} (h : n ≤ s.rxq.length ∨ t = 0) :
    rxRead op o (some n) t none kont s = .returned (s.rxq.take n) false false { s with rxq := s.rxq.drop n } := by
  by_cases hn : n ≤ s.rxq.length
  · exact rxRead_full hn (by simp)
  · obtain rfl : t = 0 := h.resolve_left hn
    rw [rxRead_short (forall_limit_lt rfl (by omega)) (by simp), List.take_of_length_le (by omega),
      List.drop_of_length_le (by omega)]

/-! ### The block's step in a wait -/

section
variable {s : State} {op : Word} {o : Operands} {r : ReadCtx}

theorem blockMove_waitRx (hs : s.seq = .run op o (.waitRx r)) : blockMove s = .next (resumeRead op o r s) := by
  simp only [blockMove, hs]

/-- When the read returns, the block goes on with its operation. -/
theorem blockMove_returned {t : State} {got : List Byte} {seen limit : Bool} (hs : s.seq = .run op o (.waitRx r))
    (h : rxContinue op o r s = .returned got seen limit t) : blockMove s = .next (afterRead o r.kont got seen limit t) := by
  rw [blockMove_waitRx hs, resumeRead, h]
  rfl

/-- Before the deadline, with too few bytes and no terminator among them, the block takes them and goes on waiting (R94). -/
theorem blockMove_waits (hs : s.seq = .run op o (.waitRx r)) (hb : r.budget = none)
    (hl : ∀ n, r.limit = some n → r.got.length + s.rxq.length < n) (ht : ∀ b ∈ s.rxq, r.term ≠ some b) :
    blockMove s = .next { s with rxq := [], seq := .run op o (.waitRx { r with got := r.got ++ s.rxq }) } := by
  rw [blockMove_waitRx hs, resumeRead, rxContinue_waits hb hl ht]
  rfl

end

/-! ### READ and RDUNT from their start, and RDUNT's end -/

theorem exec_read {s : State} {n : BitVec 16} (hn : n.toNat ≤ s.cfg.rxbufSize) :
    exec (.read n) s = .next ((rxRead (opWord 0x11#8 0#8 n) s.operands (some n.toNat) s.operands.timeout.toNat none .read
      s).andThen fun got _ _ t => readDone got t) :=
  if_pos (decide_eq_true hn)

theorem exec_rdunt {s : State} {n : BitVec 16} (b : Byte) (h1 : 1 ≤ n.toNat) (hn : n.toNat ≤ s.cfg.rxbufSize) :
    exec (.rdunt n b) s = .next ((rxRead (opWord 0x12#8 b n) s.operands (some n.toNat) s.operands.timeout.toNat (some b)
      (.rdunt b) s).andThen fun got seen limit t => rduntDone b got seen limit t) :=
  if_pos (by simp [rxLimitOk, h1, hn])

/-- A RDUNT that its terminator or its limit stopped leaves the exposure monitor alone. -/
theorem rduntDone_stopped (b : Byte) (got : List Byte) {seen limit : Bool} (h : seen = true ∨ limit = true) (s : State) :
    rduntDone b got seen limit s = succeed (putReadFlags seen limit (putReceived got s)) := by
  have : endExposure b seen limit s = s := if_neg (by rcases h with rfl | rfl <;> simp)
  rw [rduntDone, this]

/-- A RDUNT that timed out sets neither flag, and abandons the exposure when it waited for `D` (R155). -/
theorem rduntDone_timeout (b : Byte) (got : List Byte) (s : State) :
    rduntDone b got false false s =
      succeed (putReadFlags false false (putReceived got (putExposing (s.exposing && decide (b ≠ doneMarker)) s))) := by
  have : endExposure b false false s = putExposing (s.exposing && decide (b ≠ doneMarker)) s := by
    by_cases hb : b = doneMarker <;> simp [endExposure, hb, putExposing]
  rw [rduntDone, this]

end Sys2Proof.Machine

namespace Sys2Proof.Proofs

open Sys2Proof Sys2Proof.Machine

/-- Settles O17: READ's read has no terminator, so it returns the oldest bytes up to its limit and its budget, or waits. -/
theorem readReturnsTheOldestQueuedBytes : Obligations.ReadReturnsTheOldestQueuedBytes := by
  refine ⟨fun s n hn => ⟨fun h => ?_, fun hlt ht => ⟨opWord 0x11#8 0#8 n, ?_⟩⟩,
    fun s op o r n hs hkont hl ht hg => ⟨fun k hk d hd => ?_, fun hb hlt => ?_⟩⟩
  · rw [exec_read hn, rxRead_atOnce (h.imp_right (by simp +contextual)), ← List.length_take]
    rfl
  · rw [exec_read hn, rxRead_waits (BitVec.toNat_ne_iff_ne.2 ht) (forall_limit_lt rfl hlt) (by simp)]
    rfl
  · rw [blockMove_returned hs (rxContinue_upTo hl ht hg hk hd), hkont]
    rfl
  · exact blockMove_waits hs hb (forall_limit_lt hl hlt) (by simp [ht])

/-- Settles O18: the read returns what stands before the terminator. -/
theorem rduntStopsAtTheTerminator : Obligations.RduntStopsAtTheTerminator := by
  refine ⟨fun s n b pre post h1 hn hq hb hlt => ?_, fun s op o r n b pre post hs hkont hl ht hq hb hlt hk => ?_⟩
  · rw [exec_rdunt b h1 hn, rxRead_term hq (forall_limit_lt rfl hlt) hb, andThen_returned,
      rduntDone_stopped b pre (.inl rfl)]
    rfl
  · rw [blockMove_returned hs (rxContinue_term ht hq hb (forall_limit_lt hl hlt) hk), hkont, afterRead,
      rduntDone_stopped b _ (.inl rfl), ← List.length_append]
    rfl

/-- Settles O19: the terminator is not met, so the limit stops the read, or the budget does, or it waits. -/
theorem rduntStopsAtTheLimitOrTheTimeout : Obligations.RduntStopsAtTheLimitOrTheTimeout := by
  refine ⟨fun s n b h1 hn => ⟨fun hle hb => ?_, fun hlt hb ht => ?_, fun hlt hb ht => ⟨opWord 0x12#8 b n, ?_⟩⟩,
    fun s op o r n b hs hkont hl ht => ⟨fun m hm hq hb hk => ?_, fun k hk hb hlt => ?_, fun hk hb hlt => ?_⟩⟩
  · have hlen : BitVec.ofNat 16 (s.rxq.take n.toNat).length = n := by simp [hle]
    rw [exec_rdunt b h1 hn, rxRead_full hle (forall_mem_some_ne hb), andThen_returned, Option.isSome_some,
      rduntDone_stopped b _ (.inr rfl)]
    simp only [succeed, putReceived, hlen]
    rfl
  · have ht0 : s.operands.timeout.toNat = 0 := by simp [ht]
    rw [exec_rdunt b h1 hn, ht0, rxRead_short (forall_limit_lt rfl hlt) (forall_mem_some_ne hb), andThen_returned,
      rduntDone_timeout]
    rfl
  · rw [exec_rdunt b h1 hn, rxRead_waits (BitVec.toNat_ne_iff_ne.2 ht) (forall_limit_lt rfl hlt)
      (forall_mem_some_ne hb)]
    rfl
  · have hlen : (r.got ++ s.rxq.take m).length = n := by simp; omega
    rw [blockMove_returned hs (rxContinue_full hl hm hq hk (ht ▸ forall_mem_some_ne hb)), hkont, ht, afterRead,
      Option.isSome_some, rduntDone_stopped b _ (.inr rfl), ← hlen]
    rfl
  · rw [blockMove_returned hs (rxContinue_expired hk (forall_limit_lt hl hlt) (ht ▸ forall_mem_some_ne hb)), hkont,
      afterRead, rduntDone_timeout]
    rfl
  · exact blockMove_waits hs hk (forall_limit_lt hl hlt) (ht ▸ forall_mem_some_ne hb)

/-- Settles O22: what the consuming loop of a read that returned has done, and why it stopped. -/
theorem readTakesAPrefixOfTheQueue : Obligations.ReadTakesAPrefixOfTheQueue := by
  intro op o r s t got seen limit h
  obtain ⟨sc, sp, rfl, rfl, rfl, rfl, hdry⟩ := rxContinue_returned h
  have hroom : ∀ n, r.limit = some n → r.limit.map (· - r.got.length) = some (n - r.got.length) := by
    rintro n hn; rw [hn]; rfl
  refine ⟨sc.taken, rfl, ?split, ?seen, sp.noTerm, ?within, ?limit, ?budget, ?why, ?flag, rfl⟩
  case split => simpa using sp.split
  case seen => exact fun hs => (sp.termStop (of_decide_eq_true hs)).1
  case within =>
    intro n hn hg
    have := sp.within _ (hroom n hn)
    rw [List.length_append]; omega
  case limit =>
    intro hlim
    rw [Bool.and_eq_true, decide_eq_true_eq] at hlim
    refine ⟨hlim.2, fun n hn hg => ?_⟩
    have := (hroom n hn).symm.trans (sp.limitStop hlim.1)
    rw [Option.some.injEq] at this
    rw [List.length_append]; omega
  case budget =>
    intro k hk
    have := sp.budgeted k hk
    by_cases hs : sc.stop = .term <;> simpa [hs] using this
  case why =>
    intro hs
    cases hstop : sc.stop with
    | term => simp [hstop] at hs
    | limit =>
      obtain ⟨n, hn, hm⟩ := Option.map_eq_some_iff.1 (sp.limitStop hstop)
      exact .inl ⟨n, hn, by rw [List.length_append]; omega⟩
    | dry =>
      obtain ⟨k, hk⟩ := Option.isSome_iff_exists.1 (hdry hstop)
      refine .inr ⟨k, hk, (sp.dryStop hstop).2.symm.imp_left fun hb => ?_⟩
      exact (Option.some.inj (hk.symm.trans hb)).symm
  case flag =>
    intro n hs hn hle
    cases hstop : sc.stop with
    | term => simp [hstop] at hs
    | limit => simp
    | dry =>
      rw [List.length_append] at hle
      exact absurd (sp.below_limit_of_dry hstop hn) (Nat.not_lt.2 hle)

/-- Settles O23: the loop of a read that waits has run dry without a budget, so it took all of RXQ. -/
theorem readWaitsOnlyOnAnEmptyQueue : Obligations.ReadWaitsOnlyOnAnEmptyQueue := by
  intro op o r s t h
  obtain ⟨hb, sc, sp, hstop, rfl⟩ := rxContinue_waiting h
  have hrest : sc.rest = [] := (sp.dryStop hstop).2.resolve_right (by simp [hb])
  have hall : s.rxq = sc.taken := by simpa [hstop, hrest] using sp.split
  exact ⟨hb, hall ▸ sp.noTerm, fun n hn => hall ▸ sp.below_limit_of_dry hstop hn, by rw [hrest, hall]⟩

/-- Settles O24 from O22: what an expired read consumed is no longer than its budget, so the late bytes are past it. -/
theorem expiredReadTakesNoLateByte : Obligations.ExpiredReadTakesNoLateByte := by
  intro s op o r late hs hb
  refine ⟨by simp only [expireTimer, hs, hb], ?_⟩
  obtain ⟨got, seen, limit, t, h⟩ := rxContinue_returns_of_budget op o (r := { r with budget := some s.rxq.length }) rfl
    { s with rxq := s.rxq ++ late }
  obtain ⟨taken, -, hsplit, hseen, -, -, -, hbudget, -⟩ := readTakesAPrefixOfTheQueue _ _ _ _ _ _ _ _ h
  refine ⟨got, seen, limit, t, h, ?_⟩
  have hconsumed : (if seen then r.term.toList else []).length = seen.toNat := by
    cases seen with
    | false => rfl
    | true =>
      obtain ⟨b, hterm⟩ := Option.isSome_iff_exists.1 (hseen rfl)
      simp [show r.term = some b from hterm]
  have hlen := congrArg List.length hsplit
  have hk := hbudget _ rfl
  simp only [List.length_append, hconsumed] at hlen
  have hrest : t.rxq <:+ s.rxq ++ late := by
    rw [show s.rxq ++ late = _ from hsplit, ← List.append_assoc]
    exact List.suffix_append ..
  exact List.suffix_of_suffix_length_le (List.suffix_append ..) hrest (by omega)

end Sys2Proof.Proofs
end

section
/-! An accepted block and what the block's step goes on with (43_image_transfer.md R119 to R127), and the operations without a
read: WRITE, SETBAUD and DRAIN (41_transport.md R96, R100, R101). -/

namespace Sys2Proof.Machine

open Sys2Proof

/-! ### An accepted block -/

/-- What acceptance writes, its two events in order (R123, R125). -/
theorem acceptBlock_written (o : Operands) (k : Nat) (data : List Byte) (s : State) :
    acceptBlock o k data s = { s with
      imgbuf := Memory.writeBytes s.imgbuf (k * o.blockBytes) data,
      imglen := BitVec.ofNat 32 ((k + 1) * o.blockBytes), blkRcvd := BitVec.ofNat 32 (k + 1),
      progress := BitVec.ofNat 7 (progressOf (k + 1) o.totalBlocks),
      trace := s.trace ++ [Event.tx sigOk, Event.progress (BitVec.ofNat 7 (progressOf (k + 1) o.totalBlocks))] } := by
  simp [storeBlock, transmit]

theorem progressOf_self {total : Nat} (h : 0 < total) : progressOf total total = 100 := Nat.mul_div_cancel 100 h

/-- The block after the attempt `d` of block `k` has been accepted with `data`, BACC at `x` and `rest` still queued (R119,
R121, R123). -/
def acceptedAttempt (o : Operands) (k : Nat) (d data rest : List Byte) (x : Byte) (s : State) : State :=
  acceptBlock o k data (putBacc x (putBlkbuf d { s with rxq := rest }))

/-- A block read that gets a valid attempt stores the block and goes on with the blocks left (R121 to R123). -/
theorem blockMove_validAttempt {s : State} {op : Word} {o : Operands} {r : ReadCtx} {k i : Nat} {data rest : List Byte}
    {c : Byte} (hs : s.seq = .run op o (.waitRx r)) (hkont : r.kont = .xferBlock k i)
    (hl : r.limit = some (o.blockBytes + 1)) (ht : r.term = none) (hdata : data.length = o.blockBytes)
    (hg : r.got.length ≤ o.blockBytes) (hq : r.got ++ s.rxq = data ++ c :: rest)
    (hb : ∀ j, r.budget = some j → o.blockBytes + 1 ≤ r.got.length + j) (hv : o.chkDis = true ∨ c = blkChecksum data) :
    ∃ x, blockMove s = .next (blockLoop o (o.totalBlocks - (k + 1)) (k + 1)
      (acceptedAttempt o k (data ++ [c]) data rest x s)) := by
  obtain ⟨x, hj⟩ := judgeAttempt_valid (k := k) (s := { s with rxq := rest }) hdata hv
  have hd : r.got ++ s.rxq = (data ++ [c]) ++ rest := by rw [hq, List.append_assoc]; rfl
  refine ⟨x, ?_⟩
  rw [blockMove_waitRx hs, resumeRead_block_full hkont hl ht hb (by omega) hd (by simp [hdata]), xferBlockDone, hj]
  rfl

/-! ### WRITE and SETBAUD -/

theorem exec_write_written {s : State} {n : BitVec 16} {bs : List Byte} (hn : txCountOk s.cfg n = true)
    (hread : latchedTx s.operands 0 n.toNat = some bs) : exec (.write n) s = .next (succeed (transmit bs s)) := by
  simp only [exec, execWrite, hn, hread, if_true]

/-- A word with no operand in N is B above OPC (R63). -/
theorem opWord_zeroN (opc b : Byte) : opWord opc b 0#16 = (b.setWidth 32 <<< 8) ||| opc.setWidth 32 := by
  apply BitVec.eq_of_getLsbD_eq
  intro j hj
  simp only [opWord, BitVec.getLsbD_append, BitVec.getLsbD_or, BitVec.getLsbD_shiftLeft, BitVec.getLsbD_setWidth,
    BitVec.getLsbD_zero]
  by_cases h : j < 8
  · simp [h, hj]
  · have hopc : opc.getLsbD j = false := BitVec.getLsbD_of_ge opc j (by omega)
    by_cases h' : j - 8 < 8
    · simp [h, h', hj, hopc, show j - 8 < 32 by omega]
    · simp [h, h', hopc, BitVec.getLsbD_of_ge b (j - 8) (by omega)]

end Sys2Proof.Machine

namespace Sys2Proof.Proofs

open Sys2Proof Sys2Proof.Machine

/-- Settles O38: the accepted block is stored, and the blocks left are the block's step from before the next one's read; after
the last there are none. -/
theorem validBlockIsStoredAndTheNextOneRead : Obligations.ValidBlockIsStoredAndTheNextOneRead := by
  refine ⟨fun s op o r k i hs _ hl ht hb hlen => blockMove_waits hs hb (forall_limit_lt hl (by omega)) (by simp [ht]),
    fun s op o r k i data c rest hs hkont hl ht hdata hg hq hb hv => ?_⟩
  obtain ⟨x, hmove⟩ := blockMove_validAttempt hs hkont hl ht hdata hg hq hb hv
  refine ⟨fun hk hmt => ⟨xferWord, x, fun next hnext => ?_⟩, fun hk => ⟨x, ?_⟩⟩
  · have hattempt : next = attemptRead o (k + 1) 0 (acceptedAttempt o k (data ++ [c]) data rest x s) := by
      rw [hnext, acceptedAttempt, acceptBlock_written]
      rfl
    have hstep : blockMove s = blockMove next := by rw [hmove, blockLoop_eq_blockMove hk hmt, hattempt]
    refine ⟨hstep, fun hrest ht0 => ?_⟩
    rw [hstep, hattempt]
    exact blockMove_attemptRead_waits (s := acceptedAttempt o k (data ++ [c]) data rest x s) ht0 hrest
  · rw [hmove, ← hk, Nat.sub_self, blockLoop, acceptedAttempt, acceptBlock_written, ← hk, progressOf_self (Nat.succ_pos k)]
    rfl

/-- Settles O16: as O14, with the bytes transmitted. -/
theorem writeTransmitsTheBytesRaw : Obligations.WriteTransmitsTheBytesRaw :=
  fun _ _ _ hn hread => exec_write_written (decide_eq_true hn) hread

/-- Settles O20: SETBAUD's effect when its code is in range, and O5 for the words and codes it refuses. -/
theorem setbaudSelectsTheRate : Obligations.SetbaudSelectsTheRate := by
  obtain ⟨badField, badRange⟩ := illegalOperandFinishesBadArg
  refine ⟨fun s c hc => if_pos (decide_eq_true hc), fun s c hc => ?_, fun s w hb hopc hn => ?_, fun c => ?_⟩
  · exact badRange s (.setbaud c) _ rfl (decide_eq_false (Nat.not_le.2 hc))
  · exact badField s w hb (.inr (.inl ⟨congrArg BitVec.toNat hopc, hn⟩))
  · exact congrArg Encoded.op (opWord_zeroN 0x13#8 c)

/-- Settles O21: DRAIN's effect, after which an arriving byte is the first, and O5 for the words it refuses. -/
theorem drainDiscardsTheQueue : Obligations.DrainDiscardsTheQueue := by
  refine ⟨fun s => rfl, fun s t b h hdepth => ?_, fun s w hb hopc hfield => ?_, rfl⟩
  · cases h
    exact congrArg State.rxq (receive_room (s := succeed (clearRxq s)) b hdepth)
  · exact illegalOperandFinishesBadArg.1 s w hb (.inr (.inr ⟨by rw [hopc]; decide, hfield⟩))

end Sys2Proof.Proofs
end

section
/-! The command protocol's operations (42_command_protocol.md R103 to R111): what framing a written command comes to, what
SENDV and EXPECT do with the bytes their read returned, and each operation as its frame followed by its read. -/

namespace Sys2Proof.Machine

open Sys2Proof

/-! ### The frame -/

/-- A command that is not `T` during an exposure is framed, and its operation goes on (R103, R155). -/
theorem frameCommand_allowed {cmd : List Byte} {s : State} (h : (isTakeImage cmd && s.exposing) = false)
    (k : State → Host.Outcome State Fault Refusal) :
    frameCommand cmd s k = k (framed cmd (s.exposing || isTakeImage cmd) s) := by
  rw [frameCommand, h]
  rfl

@[simp] theorem framed_rxq (cmd : List Byte) (e : Bool) (s : State) : (framed cmd e s).rxq = s.rxq := rfl

theorem allowed_of_frameCommand_next {cmd : List Byte} {s t : State} {k : State → Host.Outcome State Fault Refusal}
    (h : frameCommand cmd s k = .next t) : (isTakeImage cmd && s.exposing) = false := by
  unfold frameCommand at h
  split at h
  · cases h
  · next hn => exact Bool.eq_false_iff.2 hn

/-! ### What follows a read -/

/-- SENDV with the byte it read: OK exactly when the byte is the checksum (R105, R107). -/
theorem sendvDone_byte (cmd : List Byte) (b : Byte) (s : State) :
    sendvDone cmd [b] s = { s with
      rxbuf := Memory.writeBytes s.rxbuf 0 [b], rxlen := 1#16,
      status := (if b = cmdChecksum cmd then s.status.finish true .noError else s.status.finish false .nack),
      seq := .idle } := by
  unfold sendvDone
  by_cases h : b = cmdChecksum cmd
  · rw [if_pos (by rw [h]), if_pos h]; rfl
  · rw [if_neg (by simpa using h), if_neg h]; rfl

/-- SENDV without a byte (R107). -/
theorem sendvDone_nil (cmd : List Byte) (s : State) :
    sendvDone cmd [] s = { s with rxlen := 0#16, status := s.status.finish false .nack, seq := .idle } := rfl

/-- EXPECT's comparison of lengths and tails is the suffix test (R110). -/
theorem expectMatches_iff (cmd reply got : List Byte) :
    expectMatches cmd reply got = true ↔ (cmdChecksum cmd :: reply) <:+ got := by
  rw [expectMatches, Bool.and_eq_true, decide_eq_true_eq, decide_eq_true_eq]
  constructor
  · rintro ⟨-, htail⟩
    exact htail ▸ List.drop_suffix ..
  · intro h
    exact ⟨h.length_le, (List.suffix_iff_eq_drop.1 h).symm⟩

/-- EXPECT with all the bytes it read: the last RXBUF_SIZE are kept, LIMIT says that there were more, and OK and ERR that
they end with the checksum and the reply (R110, R111). -/
theorem expectDone_eq (cmd reply got : List Byte) (s : State) :
    expectDone cmd reply got s = { s with
      rxbuf := Memory.writeBytes s.rxbuf 0 (got.drop (got.length - s.cfg.rxbufSize)),
      rxlen := BitVec.ofNat 16 (min got.length s.cfg.rxbufSize),
      status := { s.status with
        limit := decide (s.cfg.rxbufSize < got.length), done := true,
        ok := decide ((cmdChecksum cmd :: reply) <:+ got),
        err := (if (cmdChecksum cmd :: reply) <:+ got then .noError else .nack) },
      seq := .idle } := by
  have hlen : min got.length s.cfg.rxbufSize = (tailN s.cfg.rxbufSize got).length := by simp [tailN]; omega
  simp only [expectDone, expectMatches_iff, hlen]
  by_cases h : (cmdChecksum cmd :: reply) <:+ got <;> simp only [h, if_true, if_false, decide_true, decide_false] <;> rfl

/-! ### The operations on written bytes -/

section
variable {s : State} {n : BitVec 16} {cmd : List Byte} (h1 : 1 ≤ n.toNat)
include h1

theorem exec_send_written (hn : n.toNat ≤ s.cfg.txbufSize) (hcmd : latchedTx s.operands 0 n.toNat = some cmd) :
    exec (.send n) s = frameCommand cmd s fun u => .next (succeed u) := by
  have hok : commandCountOk s.cfg n = true := by simp [commandCountOk, h1, hn]
  simp only [exec, execSend, hok, hcmd, if_true]

theorem exec_sendv_written (hn : n.toNat ≤ s.cfg.txbufSize) (hcmd : latchedTx s.operands 0 n.toNat = some cmd) :
    exec (.sendv n) s = frameCommand cmd s fun u => .next ((rxRead (opWord 0x21#8 0#8 n) s.operands (some 1)
      s.operands.timeout.toNat none (.sendv cmd) u).andThen fun got _ _ t => sendvDone cmd got t) := by
  have hok : commandCountOk s.cfg n = true := by simp [commandCountOk, h1, hn]
  simp only [exec, execSendv, hok, hcmd, if_true]

theorem exec_expect_written {m : Byte} {reply : List Byte} (hn : n.toNat + m.toNat ≤ s.cfg.txbufSize)
    (hm : m.toNat + 1 ≤ s.cfg.rxbufSize) (hcmd : latchedTx s.operands 0 n.toNat = some cmd)
    (hreply : latchedTx s.operands n.toNat m.toNat = some reply) :
    exec (.expect n m) s = frameCommand cmd s fun u => .next ((rxRead (opWord 0x22#8 m n) s.operands none
      s.operands.timeout.toNat none (.expect cmd reply) u).andThen fun got _ _ t => expectDone cmd reply got t) := by
  have hok : expectCountOk s.cfg n m = true := by simp [expectCountOk, h1, hn, hm]
  simp only [exec, execExpect, hok, hcmd, hreply, if_true]

end

end Sys2Proof.Machine

namespace Sys2Proof.Proofs

open Sys2Proof Sys2Proof.Machine

/-- Settles O26: the frame leaves, and SEND succeeds without a read. -/
theorem sendTransmitsTheFrame : Obligations.SendTransmitsTheFrame := by
  intro s n cmd h1 hn hcmd hallowed
  rw [exec_send_written h1 hn hcmd, frameCommand_allowed hallowed]
  rfl

/-- Settles O27: the read of one byte returns the oldest queued one, and SENDV compares it. -/
theorem sendvComparesTheFirstByteRead : Obligations.SendvComparesTheFirstByteRead := by
  refine ⟨fun s n cmd b rest h1 hn hcmd hallowed hq => ?_, fun s op o r cmd b rest hs hkont hl ht hg hb hq => ?_⟩
  · rw [exec_sendv_written h1 hn hcmd, frameCommand_allowed hallowed, rxRead_full (by simp [hq]) (by simp),
      andThen_returned, framed_rxq, hq]
    exact congrArg _ (sendvDone_byte ..)
  · have hbudget : ∀ k, r.budget = some k → 1 ≤ k := by
      intro k hk; exact Nat.one_le_iff_ne_zero.2 fun h0 => hb (h0 ▸ hk)
    rw [blockMove_returned hs (rxContinue_full (m := 1) hl (by simp [hg]) (by simp [hq]) hbudget (by simp [ht])), hkont,
      hg, hq]
    exact congrArg _ (sendvDone_byte ..)

/-- Settles O28: with nothing to take, the read of one byte returns none when it has expired, and else waits. -/
theorem sendvWithoutAByteFailsOrWaits : Obligations.SendvWithoutAByteFailsOrWaits := by
  refine ⟨fun s n cmd h1 hn hcmd hallowed hq => ?_,
    fun s op o r cmd hs hkont hl ht hg => ⟨fun hk => ?_, fun hb hq => ?_⟩⟩
  · rw [exec_sendv_written h1 hn hcmd, frameCommand_allowed hallowed]
    refine ⟨fun ht => ?_, fun ht => ⟨opWord 0x21#8 0#8 n, ?_⟩⟩
    · rw [ht, BitVec.toNat_zero, rxRead_short (by simp [hq]) (by simp), andThen_returned, framed_rxq, hq, sendvDone_nil]
      rfl
    · rw [rxRead_waits (BitVec.toNat_ne_iff_ne.2 ht) (by simp [hq]) (by simp), andThen_waiting, framed_rxq, hq]
      rfl
  · obtain ⟨k, hbudget, htake, hdrop⟩ : ∃ k, r.budget = some k ∧ s.rxq.take k = [] ∧ s.rxq.drop k = s.rxq := by
      rcases hk with h0 | ⟨hsome, hq⟩
      · exact ⟨0, h0, rfl, rfl⟩
      · obtain ⟨k, hk⟩ := Option.ne_none_iff_exists'.1 hsome
        exact ⟨k, hk, by simp [hq], by simp [hq]⟩
    rw [blockMove_returned hs (rxContinue_expired hbudget (by simp [hl, hg, htake]) (by simp [ht])), hkont, hg, htake,
      hdrop]
    exact congrArg _ (sendvDone_nil ..)
  · rw [blockMove_waits hs hb (by simp [hl, hg, hq]) (by simp [ht]), hq, List.append_nil, ← hq, ← hs]

/-- Settles O29 from O28 and O27: SENDV has started, so it waits; the device's byte is the one its read returns. -/
theorem sendvSucceedsExactlyOnTheEcho : Obligations.SendvSucceedsExactlyOnTheEcho := by
  intro s s1 n cmd b h1 hn hcmd hq ht hdepth hexec
  have hallowed : (isTakeImage cmd && s.exposing) = false := by
    rw [exec_sendv_written h1 hn hcmd] at hexec
    exact allowed_of_frameCommand_next hexec
  obtain ⟨op, hwait⟩ := (sendvWithoutAByteFailsOrWaits.1 s n cmd h1 hn hcmd hallowed hq).2 ht
  cases hexec.symm.trans hwait
  refine ⟨_, _, congrArg Host.Outcome.next (receive_room b ?room),
    sendvComparesTheFirstByteRead.2 _ op _ _ cmd b [] rfl rfl rfl rfl rfl (by simp) ?queued, rfl, ?done, ?ok, rfl⟩
  case room => simpa [hq] using hdepth
  case queued => simp [hq]
  case done => split <;> rfl
  case ok => by_cases hecho : b = cmdChecksum cmd <;> simp [hecho]

/-- Settles O30: the read without limit takes all of RXQ at once. -/
theorem expectComparesTheTail : Obligations.ExpectComparesTheTail := by
  intro s n m cmd reply h1 hn hm hcmd hreply hallowed ht
  rw [exec_expect_written h1 hn hm hcmd hreply, frameCommand_allowed hallowed, ht, BitVec.toNat_zero,
    rxRead_short (by simp) (by simp), andThen_returned, expectDone_eq]
  rfl

/-- Settles O31: the read without limit takes what is queued and waits, until its budget is all that it may still take. -/
theorem expectWaitsForItsDeadline : Obligations.ExpectWaitsForItsDeadline := by
  refine ⟨fun s n m cmd reply h1 hn hm hcmd hreply hallowed ht => ⟨opWord 0x22#8 m n, ?_⟩,
    fun s op o r hs hl ht hb => blockMove_waits hs hb (by simp [hl]) (by simp [ht]),
    fun s op o r cmd reply all k hs hkont hl ht hk _ hall => ?_⟩
  · rw [exec_expect_written h1 hn hm hcmd hreply, frameCommand_allowed hallowed,
      rxRead_waits (BitVec.toNat_ne_iff_ne.2 ht) (by simp) (by simp)]
    rfl
  · rw [blockMove_returned hs (rxContinue_expired hk (by simp [hl]) (by simp [ht])), hkont, ← hall]
    exact congrArg _ (expectDone_eq ..)

end Sys2Proof.Proofs
end

section
/-! The transfer's rules on their own: its configuration checks, what makes an attempt valid, the progress value and the block
timeout (43_image_transfer.md R115, R119, R121, R125). -/

namespace Sys2Proof.Machine

open Sys2Proof

/-! ### The configuration checks -/

theorem exec_xfer_illegal {s : State} (h : xferConfigOk s.cfg s.operands = false) : exec .xfer s = .next (fail .badArg s) := by
  simp only [exec, execXfer, h, Bool.false_eq_true, if_false]

theorem exec_xfer_legal {s : State} (h : xferConfigOk s.cfg s.operands = true) :
    exec .xfer s = .next (beginTransfer s.operands s) := by
  simp only [exec, execXfer, h, if_true]

/-! ### The checksum of an attempt -/

/-- A byte sequence ends with the checksum of its other bytes exactly when the XOR of all is 0 (R121). -/
theorem blkChecksum_eq_zero_iff {n : Nat} {d : List Byte} (h : d.length = n + 1) :
    blkChecksum d = 0#8 ↔ d[n]? = some (blkChecksum (d.take n)) := by
  have hn : n < d.length := by omega
  have hsplit : blkChecksum d = blkChecksum (d.take n) ^^^ d[n] := by
    conv_lhs => rw [← List.take_append_drop n d, blkChecksum_append, List.drop_eq_getElem_cons hn,
      List.drop_of_length_le (Nat.le_of_eq h), blkChecksum_cons, blkChecksum_nil, BitVec.xor_zero]
  rw [hsplit, BitVec.xor_eq_zero_iff, List.getElem?_eq_getElem hn, Option.some.injEq, eq_comm]

/-! ### Progress -/

theorem progressOf_mono {k j : Nat} (total : Nat) (h : k ≤ j) : progressOf k total ≤ progressOf j total :=
  Nat.div_le_div_right (Nat.mul_le_mul_left 100 h)

theorem progressOf_lt_hundred {k total : Nat} (h : k < total) : progressOf k total < 100 :=
  (Nat.div_lt_iff_lt_mul (by omega)).2 (by omega)

/-- With at most 100 blocks, each one adds at least 1 to the progress value (R125). -/
theorem progressOf_lt_succ {k total : Nat} (h : k < total) (hsmall : total ≤ 100) :
    progressOf k total < progressOf (k + 1) total :=
  calc 100 * k / total + 1 = (100 * k + total) / total := (Nat.add_div_right _ (by omega)).symm
    _ ≤ 100 * (k + 1) / total := Nat.div_le_div_right (by omega)

/-! ### The block timeout -/

/-- The quotient rounded up is the least number whose product with the divisor reaches the dividend (R119). -/
theorem ceilDiv_bounds (num : Nat) {den : Nat} (h : 0 < den) :
    num ≤ den * ((num + (den - 1)) / den) ∧ den * ((num + (den - 1)) / den) < num + den := by
  have hdiv := Nat.div_add_mod (num + (den - 1)) den
  have hmod := Nat.mod_lt (num + (den - 1)) h
  omega

end Sys2Proof.Machine

namespace Sys2Proof.Proofs

open Sys2Proof Sys2Proof.Machine

/-- Settles O34: each way to be illegal contradicts a check. -/
theorem xferRefusesIllegalConfigurations : Obligations.XferRefusesIllegalConfigurations := by
  intro s hbad
  have hillegal : xferConfigOk s.cfg s.operands = false := by
    refine Bool.eq_false_iff.2 fun hok => ?_
    simp only [xferConfigOk, Bool.and_eq_true, decide_eq_true_eq] at hok
    obtain ⟨⟨⟨⟨⟨⟨⟨hpixels, hsize⟩, htries⟩, hw⟩, hh⟩, hwhole⟩, hblock⟩, himage⟩ := hok
    rcases hbad with h | h | h | h | h | h | h | h
    · exact hpixels h
    · exact hsize h
    · exact htries h
    · exact hw h
    · exact hh h
    · exact h hwhole
    · exact Nat.not_le.2 h hblock
    · exact Nat.not_le.2 h himage
  exact exec_xfer_illegal hillegal

/-- Settles O41: the three outcomes of an attempt exclude each other. -/
theorem attemptAcceptanceRule : Obligations.AttemptAcceptanceRule := by
  intro o k d s hle
  have hxor := fun h : d.length = o.blockBytes + 1 => blkChecksum_eq_zero_iff h
  rcases judgeAttempt_cases o k d s with ⟨hshort, hj⟩ | ⟨hfull, hvalid, x, hj⟩ | ⟨hfull, hchecked, hbad, x, hj⟩
  · have hne : d.length ≠ o.blockBytes + 1 := by omega
    simp [hj, hne, hshort]
  · have hlen : d.length = o.blockBytes + 1 := by omega
    rw [← hxor hlen] at hvalid
    refine ⟨by simp [hj, hlen, hvalid], by simp [hj, hlen], ?_, hxor⟩
    rcases hvalid with hdis | hzero
    · simp [hj, hdis]
    · simp [hj, hzero]
  · have hlen : d.length = o.blockBytes + 1 := by omega
    rw [ne_eq, ← hxor hlen] at hbad
    exact ⟨by simp [hj, hchecked, hbad], by simp [hj, hlen], by simp [hj, hlen, hchecked, hbad], hxor⟩

/-- Settles O42 from the laws of the progress value. -/
theorem progressReachesOneHundredAtTheLastBlock : Obligations.ProgressReachesOneHundredAtTheLastBlock :=
  fun total _ h => ⟨progressOf_mono total (Nat.le_succ _), progressOf_lt_hundred h, progressOf_self (by omega),
    progressOf_lt_succ h⟩

/-- Settles O43: the default block timeout is a quotient rounded up. -/
theorem blockTimeoutIsTheSlackedTransferTime : Obligations.BlockTimeoutIsTheSlackedTransferTime :=
  ⟨fun baud bb h => ceilDiv_bounds (3 * 8 * (bb + 1) * 1000000) (by omega : 0 < 2 * baud), by decide, by decide⟩

end Sys2Proof.Proofs
end

section
/-! Failed attempts (43_image_transfer.md R118, R120, R124, R126): what one leaves behind, and the block's step going on with the
next attempt or giving the transfer up. -/

namespace Sys2Proof.Machine

open Sys2Proof

/-! ### What a failed attempt leaves -/

/-- The bytes `d` are a failed attempt of the block read `r`: a full-length mismatch, in a read that has not expired or within its
budget, or the short read of what its budget admits (R120, R121, R124). -/
def AttemptFails (o : Operands) (r : ReadCtx) (d : List Byte) (s : State) : Prop :=
  d.length = o.blockBytes + 1 ∧ r.got.length ≤ o.blockBytes
      ∧ (∀ j, r.budget = some j → o.blockBytes + 1 ≤ r.got.length + j) ∧ o.chkDis = false
      ∧ d[o.blockBytes]? ≠ some (blkChecksum (d.take o.blockBytes))
    ∨ d.length ≤ o.blockBytes ∧ ∃ j, r.budget = some j ∧ d = r.got ++ s.rxq.take j

/-- The cause of the failed attempt `d` (R120, R121). -/
def failureCause (o : Operands) (d : List Byte) : ErrCode := if d.length = o.blockBytes + 1 then .checksum else .timeout

/-- What a failed attempt sends at once: an `R` for a mismatch under LITERAL_DOUBLE (R124). -/
def failureSignal (c : Config) (o : Operands) (d : List Byte) : List Byte :=
  if c.retrySignalPolicy = .literalDouble ∧ d.length = o.blockBytes + 1 then [sigResend] else []

/-- The block after the failed attempt `d`, BACC at `x` and `rest` still queued (R119, R124). -/
def failedAttempt (o : Operands) (d rest : List Byte) (x : Byte) (s : State) : State :=
  transmit (failureSignal s.cfg o d) (putBacc x (putBlkbuf d { s with rxq := rest }))

/-- The events of a failed attempt: what it sends at once, then the byte `b` of the retry or the abort (R124, R126). -/
theorem failureSignal_events (c : Config) (o : Operands) (d : List Byte) (b : Byte) :
    (failureSignal c o d).map Event.tx ++ [Event.tx b] =
      if c.retrySignalPolicy = .literalDouble ∧ d.length = o.blockBytes + 1 then [Event.tx 0x52#8, Event.tx b]
      else [Event.tx b] := by
  unfold failureSignal
  split <;> rfl

theorem failedAttempt_written (o : Operands) (d rest : List Byte) (x : Byte) (s : State) :
    failedAttempt o d rest x s = { s with
      rxq := rest, bacc := x, blkbuf := Memory.writeBytes s.blkbuf 0 d,
      trace := s.trace ++ (failureSignal s.cfg o d).map Event.tx } := rfl

theorem signalMismatch_eq {o : Operands} {d : List Byte} (s : State) (h : d.length = o.blockBytes + 1) :
    signalMismatch s = transmit (failureSignal s.cfg o d) s := by
  cases hp : s.cfg.retrySignalPolicy <;> simp [signalMismatch, failureSignal, hp, h, transmit]

/-- A full-length attempt that is not valid fails with CHECKSUM (R121, R124). -/
theorem judgeAttempt_mismatch {o : Operands} {k : Nat} {d rest : List Byte} {s : State} (hlen : d.length = o.blockBytes + 1)
    (hchecked : o.chkDis = false) (hbad : d[o.blockBytes]? ≠ some (blkChecksum (d.take o.blockBytes))) :
    ∃ x, judgeAttempt o k d { s with rxq := rest } = .failed (failureCause o d) (failedAttempt o d rest x s) := by
  rcases judgeAttempt_cases o k d { s with rxq := rest } with ⟨hshort, -⟩ | ⟨-, hvalid, -⟩ | ⟨-, -, -, x, hj⟩
  · omega
  · simp [hchecked, hbad] at hvalid
  · exact ⟨x, by rw [hj, signalMismatch_eq _ hlen, failureCause, if_pos hlen]; rfl⟩

/-- A short attempt fails with TIMEOUT and sends nothing at once (R120). -/
theorem judgeAttempt_short {o : Operands} {k : Nat} {d rest : List Byte} {s : State} (hshort : d.length ≤ o.blockBytes) :
    ∃ x, judgeAttempt o k d { s with rxq := rest } = .failed (failureCause o d) (failedAttempt o d rest x s) := by
  have hne : d.length ≠ o.blockBytes + 1 := by omega
  rcases judgeAttempt_cases o k d { s with rxq := rest } with ⟨-, hj⟩ | ⟨hfull, -⟩ | ⟨hfull, -⟩
  · exact ⟨s.bacc, by simp [hj, failureCause, failedAttempt, failureSignal, hne, transmit, putBacc, putBlkbuf]⟩
  · omega
  · omega

/-- A block read that gets a failed attempt judges it, the bytes past it still queued (R119, R183). -/
theorem blockMove_failedAttempt {s : State} {op : Word} {o : Operands} {r : ReadCtx} {k i : Nat} {d rest : List Byte}
    (hs : s.seq = .run op o (.waitRx r)) (hkont : r.kont = .xferBlock k i) (hl : r.limit = some (o.blockBytes + 1))
    (ht : r.term = none) (hq : r.got ++ s.rxq = d ++ rest) (hfail : AttemptFails o r d s) :
    ∃ x, judgeAttempt o k d { s with rxq := rest } = .failed (failureCause o d) (failedAttempt o d rest x s)
      ∧ blockMove s = .next (xferBlockDone o k i d { s with rxq := rest }) := by
  rw [blockMove_waitRx hs]
  rcases hfail with ⟨hlen, hg, hb, hchecked, hbad⟩ | ⟨hshort, j, hj, hd⟩
  · obtain ⟨x, hjudge⟩ := judgeAttempt_mismatch (k := k) (rest := rest) (s := s) hlen hchecked hbad
    exact ⟨x, hjudge, by rw [resumeRead_block_full hkont hl ht hb (by omega) hq hlen]⟩
  · obtain ⟨x, hjudge⟩ := judgeAttempt_short (k := k) (rest := rest) (s := s) hshort
    have hrest : s.rxq.drop j = rest := by
      rw [hd, List.append_assoc] at hq
      exact List.append_cancel_left ((List.take_append_drop j s.rxq).trans (List.append_cancel_left hq))
    refine ⟨x, hjudge, ?_⟩
    rw [resumeRead_block_short hkont hl ht hj (by rw [← hd]; omega), ← hd, hrest]

/-! ### What follows a failed attempt -/

section
variable {o : Operands} {k i : Nat} {d : List Byte} {cause : ErrCode} {s t : State}
  (hj : judgeAttempt o k d s = .failed cause t)
include hj

/-- When an attempt is left, the transfer goes on as the block's step from before its read (R124). -/
theorem xferBlockDone_retries (h : i + 1 < o.maxTries) :
    .next (xferBlockDone o k i d s) = blockMove (attemptRead o k (i + 1) t) := by
  rw [xferBlockDone, hj]
  exact (blockMove_attemptRead (cause := cause) h).symm

/-- When none is left, the transfer is given up (R126). -/
theorem xferBlockDone_aborts (h : o.maxTries ≤ i + 1) : xferBlockDone o k i d s = abortTransfer cause t := by
  rw [xferBlockDone, hj, Nat.sub_eq_zero_of_le h]
  rfl

end

/-- A step that goes on as the block's step from before the read of an attempt waits in it when too few bytes are queued (R94,
R118). -/
theorem goes_on_as_attemptRead {o : Operands} {k i : Nat} {s next : State} {outcome : Host.Outcome State Fault Refusal}
    (h : outcome = blockMove (attemptRead o k i s)) (hnext : next = attemptRead o k i s) :
    outcome = blockMove next ∧ (s.rxq.length ≤ o.blockBytes → o.blockReadTimeout s.cfg ≠ 0 → outcome = .next { next with
      rxq := [],
      seq := .run xferWord o (.waitRx ⟨s.rxq, some (o.blockBytes + 1), none, none, o.blockReadTimeout s.cfg,
        .xferBlock k i⟩) }) := by
  subst hnext
  exact ⟨h, fun hlen ht0 => h.trans (blockMove_attemptRead_waits ht0 hlen)⟩

end Sys2Proof.Machine

namespace Sys2Proof.Proofs

open Sys2Proof Sys2Proof.Machine

/-- Settles O39: the failed attempt is judged, and the next one is the block's step from before its read. -/
theorem failedAttemptAsksForTheSameBlock : Obligations.FailedAttemptAsksForTheSameBlock := by
  intro s op o r k i d rest hs hkont hl ht htries hq hfail
  obtain ⟨x, hjudge, hmove⟩ := blockMove_failedAttempt hs hkont hl ht hq hfail
  refine ⟨xferWord, x, fun next hnext => ?_⟩
  refine goes_on_as_attemptRead (s := failedAttempt o d rest x s) (hmove.trans (xferBlockDone_retries hjudge htries)) ?_
  rw [hnext, ← failureSignal_events, ← List.append_assoc, failedAttempt_written]
  rfl

/-- Settles O40: the failed attempt is judged, and no attempt is left. -/
theorem lastFailedAttemptAbortsTheTransfer : Obligations.LastFailedAttemptAbortsTheTransfer := by
  intro s op o r k i d rest hs hkont hl ht htries hq hfail
  obtain ⟨x, hjudge, hmove⟩ := blockMove_failedAttempt hs hkont hl ht hq hfail
  refine ⟨x, ?_⟩
  rw [hmove, xferBlockDone_aborts hjudge htries, ← failureSignal_events, ← List.append_assoc, failedAttempt_written]
  rfl

end Sys2Proof.Proofs
end

section
/-! The transfer's begin (43_image_transfer.md R116, R117): the echo read, from its start and from a wait, as one step of the
block, and the first attempt it goes on with. -/

namespace Sys2Proof.Machine

open Sys2Proof

/-! ### What follows the echo read -/

/-- Anything but the one byte 27 fails the transfer with PROTOCOL (R117). -/
theorem xferEchoDone_other (o : Operands) {got : List Byte} (h : got ≠ [0x27#8]) (s : State) :
    xferEchoDone o got s = fail .protocol (putReceived got s) := if_neg h

theorem xferEchoDone_echo (o : Operands) (s : State) :
    xferEchoDone o [0x27#8] s = blockLoop o o.totalBlocks 0 (putReceived [0x27#8] s) := by
  simp only [xferEchoDone]
  exact if_pos rfl

theorem xferEchoDone_seq (o : Operands) (got : List Byte) (s : State) (q : Seq) :
    xferEchoDone o got { s with seq := q } = xferEchoDone o got s := by
  by_cases h : got = [0x27#8]
  · rw [h, xferEchoDone_echo, xferEchoDone_echo]
    exact blockLoop_seq _ _ _ (putReceived [0x27#8] s) q
  · rw [xferEchoDone_other o h, xferEchoDone_other o h]
    rfl

/-- An operation whose rest does not look at SEQ does the same from its read whatever SEQ is (R94). -/
theorem rxRead_andThen_seq {op : Word} {o : Operands} {limit : Option Nat} {t : Nat} {term : Option Byte} {kont : Kont}
    {f : List Byte → Bool → Bool → State → State}
    (hf : ∀ got seen lim u q, f got seen lim { u with seq := q } = f got seen lim u)
    (s : State) (q : Seq) : (rxRead op o limit t term kont { s with seq := q }).andThen f
      = (rxRead op o limit t term kont s).andThen f := by
  rw [rxRead_seq op o limit t term kont s q]
  cases rxRead op o limit t term kont s with
  | returned got seen lim u => exact hf got seen lim u q
  | waiting u => rfl

/-- A legal transfer starts with the first attempt of block 0 (R115, R118). -/
theorem blockLoop_first {o : Operands} {c : Config} (hx : xferConfigOk c o = true) (s : State) :
    .next (blockLoop o o.totalBlocks 0 s) = blockMove (attemptRead o 0 0 s) :=
  blockLoop_eq_blockMove (xferArith hx).pos (Nat.pos_of_ne_zero (xferArith hx).tries)

/-! ### The read of one byte -/

section
variable {op : Word} {o : Operands} {r : ReadCtx} {s : State} (hl : r.limit = some 1) (ht : r.term = none) (hg : r.got = [])
include hl ht hg

/-- A read of one byte with a byte queued that its budget admits returns it (R94). -/
theorem rxContinue_oneByte {b : Byte} {rest : List Byte} (hb : r.budget ≠ some 0) (hq : s.rxq = b :: rest) :
    rxContinue op o r s = .returned [b] false false { s with rxq := rest } := by
  have hbudget : ∀ k, r.budget = some k → 1 ≤ k := fun k hk => Nat.one_le_iff_ne_zero.2 fun h0 => hb (h0 ▸ hk)
  rw [rxContinue_full (m := 1) hl (by simp [hg]) (by simp [hq]) hbudget (by simp [ht]), hg, hq, ht]
  rfl

/-- A read of one byte that has expired with none to take returns none (R94, R95). -/
theorem rxContinue_noByte (hb : r.budget = some 0 ∨ r.budget ≠ none ∧ s.rxq = []) :
    rxContinue op o r s = .returned [] false false s := by
  obtain ⟨k, hk, htake, hdrop⟩ : ∃ k, r.budget = some k ∧ s.rxq.take k = [] ∧ s.rxq.drop k = s.rxq := by
    rcases hb with h0 | ⟨hsome, hq⟩
    · exact ⟨0, h0, rfl, rfl⟩
    · obtain ⟨k, hk⟩ := Option.ne_none_iff_exists'.1 hsome
      exact ⟨k, hk, by simp [hq], by simp [hq]⟩
  rw [rxContinue_expired hk (by simp [hl, hg, htake]) (by simp [ht]), hg, htake, hdrop]
  rfl

end

/-! ### The echo read at the block's step -/

section
variable {op : Word} {o : Operands} {r : ReadCtx} {s : State} (hs : s.seq = .run op o (.waitRx r)) (hkont : r.kont = .xferEcho)
  (hl : r.limit = some 1) (ht : r.term = none) (hg : r.got = [])
include hs hl ht hg

theorem blockMove_echo_waits (hb : r.budget = none) (hq : s.rxq = []) : blockMove s = .next s := by
  rw [blockMove_waits hs hb (by simp [hl, hg, hq]) (by simp [ht]), hq, List.append_nil, ← hq, ← hs]

include hkont

theorem blockMove_echo_missing (hb : r.budget = some 0 ∨ r.budget ≠ none ∧ s.rxq = []) :
    blockMove s = .next { s with rxlen := 0#16, status := s.status.finish false .protocol, seq := .idle } := by
  rw [blockMove_returned hs (rxContinue_noByte hl ht hg hb), hkont]
  exact congrArg _ (xferEchoDone_other o (List.cons_ne_nil _ _).symm s)

variable {b : Byte} {rest : List Byte} (hb : r.budget ≠ some 0)
include hb

theorem blockMove_echo_other (hq : s.rxq = b :: rest) (hne : b ≠ 0x27#8) :
    blockMove s = .next { s with
      rxq := rest, rxbuf := Memory.writeBytes s.rxbuf 0 [b], rxlen := 1#16, status := s.status.finish false .protocol,
      seq := .idle } := by
  rw [blockMove_returned hs (rxContinue_oneByte hl ht hg hb hq), hkont]
  exact congrArg _ (xferEchoDone_other o (by simpa using hne) _)

/-- The echo starts the first attempt of block 0, with the bytes past it queued (R117, R118). -/
theorem blockMove_echo_taken {c : Config} (hx : xferConfigOk c o = true) (hq : s.rxq = 0x27#8 :: rest) :
    blockMove s = blockMove (attemptRead o 0 0
      { s with rxq := rest, rxbuf := Memory.writeBytes s.rxbuf 0 [0x27#8], rxlen := 1#16 }) := by
  rw [blockMove_returned hs (rxContinue_oneByte hl ht hg hb hq), hkont, ← blockLoop_first hx]
  exact congrArg _ (xferEchoDone_echo o _)

end

/-! ### XFER with a legal configuration -/

/-- The session's start and the begin frame 58 27, whose checksum RESULT takes (R33, R116, R117). -/
theorem transferBegun_written (o : Operands) (s : State) : transferBegun o s = { s with
    blkTotal := BitVec.ofNat 32 o.totalBlocks, blkRcvd := 0#32, tryNo := 0#8, progress := 0#7, imglen := 0#32,
    cacc := 0x27#8, result := 0x27#8, trace := s.trace ++ [Event.tx 0x58#8, Event.tx 0x27#8] } := rfl

/-- A read that starts with bytes queued may take one (R94). -/
theorem ReadCtx.start_budget_of_queued {limit : Option Nat} {t : Nat} {term : Option Byte} {kont : Kont} {s : State}
    {b : Byte} {rest : List Byte} (h : s.rxq = b :: rest) : (ReadCtx.start limit t term kont s).budget ≠ some 0 := by
  simp only [ReadCtx.start]
  split <;> simp [h]

/-- The block before XFER's echo read, with what is queued (R117). -/
def echoRead (o : Operands) (s : State) : State :=
  { s with seq := .run xferWord o (.waitRx (.start (some 1) o.timeout.toNat none .xferEcho s)) }

section
variable {s : State} (hx : xferConfigOk s.cfg s.operands = true)
include hx

/-- Under XFER_BEGIN_ACK = ECHO, XFER is the block's step from before its echo read (R117). -/
theorem exec_xfer_echo (hack : s.cfg.xferBeginAck = .echo) :
    exec .xfer s = blockMove (echoRead s.operands (transferBegun s.operands s)) := by
  have hbegin : beginTransfer s.operands s = (rxRead xferWord s.operands (some 1) s.operands.timeout.toNat none .xferEcho
      (transferBegun s.operands s)).andThen fun got _ _ u => xferEchoDone s.operands got u := by
    rw [beginTransfer, hack]; rfl
  have hseq := rxRead_andThen_seq (op := xferWord) (o := s.operands) (limit := some 1) (t := s.operands.timeout.toNat)
    (term := none) (kont := .xferEcho) (fun got _ _ u q => xferEchoDone_seq s.operands got u q) (transferBegun s.operands s)
    (echoRead s.operands (transferBegun s.operands s)).seq
  rw [exec_xfer_legal hx, hbegin, ← hseq]
  rfl

/-- Under XFER_BEGIN_ACK = NONE, XFER starts with the first attempt of block 0 (R117, R118). -/
theorem exec_xfer_noEcho (hack : s.cfg.xferBeginAck = .noEcho) :
    exec .xfer s = .next (blockLoop s.operands s.operands.totalBlocks 0 (transferBegun s.operands s)) := by
  rw [exec_xfer_legal hx, beginTransfer, hack]
  rfl

end

end Sys2Proof.Machine

namespace Sys2Proof.Proofs

open Sys2Proof Sys2Proof.Machine

/-- Settles O35: the echo read ends as its byte says, and XFER is the block's step from before that read. -/
theorem xferBeginsWithTheXFrame : Obligations.XferBeginsWithTheXFrame := by
  refine ⟨fun s begun hx hbegun => ?_, fun s op o r hs hkont hl ht hg => ?_⟩
  · rw [← transferBegun_written] at hbegun
    subst hbegun
    refine ⟨fun hack => ?_, fun hack => ⟨xferWord, fun next hnext => ?_⟩⟩
    · rw [exec_xfer_echo hx hack]
      refine ⟨fun hq ht => ⟨xferWord, ?_⟩, fun hq ht => ?_, fun b rest hq hne => ?_,
        fun rest hq => ⟨xferWord, fun next hnext => ?_⟩⟩
      · have ht0 : s.operands.timeout.toNat ≠ 0 := BitVec.toNat_ne_iff_ne.2 ht
        rw [blockMove_echo_waits (s := echoRead s.operands (transferBegun s.operands s)) rfl rfl rfl rfl (if_neg ht0) hq]
        simp [echoRead, ReadCtx.start, ht0]
      · have hexpired : (if s.operands.timeout.toNat = 0 then some s.rxq.length else none) ≠ none := by simp [ht]
        exact blockMove_echo_missing (s := echoRead s.operands (transferBegun s.operands s)) rfl rfl rfl rfl rfl
          (.inr ⟨hexpired, hq⟩)
      · exact blockMove_echo_other (s := echoRead s.operands (transferBegun s.operands s)) (b := b) (rest := rest) rfl rfl rfl
          rfl rfl (ReadCtx.start_budget_of_queued hq) hq hne
      · have hmove := blockMove_echo_taken (s := echoRead s.operands (transferBegun s.operands s)) rfl rfl rfl rfl rfl
          (ReadCtx.start_budget_of_queued hq) hx hq
        exact goes_on_as_attemptRead hmove hnext
    · have hmove := (exec_xfer_noEcho hx hack).trans (blockLoop_first hx _)
      exact goes_on_as_attemptRead (s := transferBegun s.operands s) hmove hnext
  · refine ⟨blockMove_echo_waits hs hl ht hg, blockMove_echo_missing hs hkont hl ht hg,
      fun b rest hb => blockMove_echo_other hs hkont hl ht hg hb, fun rest hb hq hx => ⟨xferWord, fun next hnext => ?_⟩⟩
    exact goes_on_as_attemptRead (blockMove_echo_taken hs hkont hl ht hg hb hx hq) hnext

end Sys2Proof.Proofs
end

section
/-! The whole image (43_image_transfer.md R114, R123, R125, R127): blocks that are all queued and valid, accepted one after the
other at their first attempt. -/

namespace Sys2Proof.Machine

open Sys2Proof Sys2Proof.Safety

/-! ### Storing block after block -/

theorem Memory.writeBytes_append (m : Memory) (a : Nat) (xs ys : List Byte) :
    Memory.writeBytes m a (xs ++ ys) = Memory.writeBytes (Memory.writeBytes m a xs) (a + xs.length) ys := by
  induction xs generalizing m a with
  | nil => rfl
  | cons x xs ih => rw [List.cons_append, Memory.writeBytes, ih, Memory.writeBytes, List.length_cons, Nat.add_right_comm]; rfl

theorem length_flatten_of_forall {blocks : List (List Byte)} {n : Nat} (h : ∀ d ∈ blocks, d.length = n) :
    blocks.flatten.length = blocks.length * n := by
  rw [List.length_flatten, List.map_congr_left h, List.map_const', List.sum_replicate, smul_eq_mul]

/-- The first attempt of a block that is queued and valid is accepted (R121, R123). -/
theorem attemptLoop_valid {o : Operands} {k left : Nat} {cause : ErrCode} {d rest : List Byte} {s : State}
    (hd : d.length = o.blockBytes) (hq : s.rxq = wireBlock d ++ rest) :
    ∃ x, attemptLoop o k (left + 1) 0 cause s = .accepted (acceptedAttempt o k (wireBlock d) d rest x (putTry 0 s)) := by
  have hlen : (wireBlock d).length = o.blockBytes + 1 := by rw [wireBlock_length, hd]
  have hread : rxRead xferWord o (some (o.blockBytes + 1)) (o.blockReadTimeout s.cfg) none (.xferBlock k 0) (startAttempt 0 s)
      = .returned (wireBlock d) false false { putTry 0 s with rxq := rest } := by
    rw [rxRead_full (by rw [startAttempt_rxq, hq, List.length_append]; omega) (by simp), startAttempt_rxq, hq,
      List.take_left' hlen, List.drop_left' hlen]
    rfl
  obtain ⟨x, hj⟩ := judgeAttempt_valid (k := k) (s := { putTry 0 s with rxq := rest }) hd (.inr rfl)
  refine ⟨x, ?_⟩
  rw [attemptLoop, hread]
  simp only [wireBlock, hj]
  rfl

/-- The session registers when `k` blocks have been accepted (R116, R125). -/
def HasAccepted (o : Operands) (k : Nat) (s : State) : Prop :=
  s.blkRcvd = BitVec.ofNat 32 k ∧ s.progress = BitVec.ofNat 7 (progressOf k o.totalBlocks)
    ∧ s.imglen = BitVec.ofNat 32 (k * o.blockBytes)

/-- `s` after the blocks from `k` on have been stored: BACC at `x`, BLKBUF `m`, and `rest` still queued (R123, R125). -/
def blocksStored (o : Operands) (k : Nat) (blocks : List (List Byte)) (rest : List Byte) (x : Byte) (m : Memory)
    (s : State) : State :=
  { s with
    rxq      := rest
    bacc     := x
    blkbuf   := m
    tryNo    := if blocks = [] then s.tryNo else 1#8
    imgbuf   := Memory.writeBytes s.imgbuf (k * o.blockBytes) blocks.flatten
    imglen   := BitVec.ofNat 32 ((k + blocks.length) * o.blockBytes)
    blkRcvd  := BitVec.ofNat 32 (k + blocks.length)
    progress := BitVec.ofNat 7 (progressOf (k + blocks.length) o.totalBlocks)
    trace    := s.trace ++ acceptedEvents o.totalBlocks blocks.length k }

theorem blocksStored_nil {o : Operands} {k : Nat} {s : State} (h : HasAccepted o k s) :
    blocksStored o k [] s.rxq s.bacc s.blkbuf s = s := by
  obtain ⟨hrcvd, hprogress, himglen⟩ := h
  simp [blocksStored, acceptedEvents, Memory.writeBytes, ← hrcvd, ← hprogress, ← himglen]

/-- Storing the first block and then the others is storing them all. -/
theorem blocksStored_cons {o : Operands} {k : Nat} {d : List Byte} (hd : d.length = o.blockBytes) (ds : List (List Byte))
    (a q rest : List Byte) (x x' : Byte) (m : Memory) (s : State) :
    blocksStored o (k + 1) ds rest x' m (acceptedAttempt o k a d q x (putTry 0 s)) = blocksStored o k (d :: ds) rest x' m s := by
  have haddr : (k + 1) * o.blockBytes = k * o.blockBytes + d.length := by rw [Nat.add_mul, Nat.one_mul, hd]
  have hcount : k + (d :: ds).length = k + 1 + ds.length := by rw [List.length_cons]; omega
  simp only [blocksStored, hcount, List.flatten_cons, Memory.writeBytes_append, ← haddr, acceptedAttempt, acceptBlock_written]
  simp [putTry, acceptedEvents]

/-- Blocks that are queued and valid are stored one after the other, and the transfer succeeds (R114, R123, R127). -/
theorem blockLoop_stores {o : Operands} (htries : o.maxTries ≠ 0) (blocks : List (List Byte)) (rest : List Byte) (k : Nat)
    (s : State) (hlen : ∀ d ∈ blocks, d.length = o.blockBytes) (hq : s.rxq = blockStream blocks ++ rest)
    (hk : HasAccepted o k s) :
    ∃ x m, blockLoop o blocks.length k s = succeed (blocksStored o k blocks rest x m s) := by
  induction blocks generalizing k s with
  | nil =>
    obtain rfl : s.rxq = rest := hq
    exact ⟨s.bacc, s.blkbuf, by rw [blocksStored_nil hk]; rfl⟩
  | cons d ds ih =>
    have hd : d.length = o.blockBytes := hlen d (by simp)
    obtain ⟨left, hleft⟩ := Nat.exists_eq_succ_of_ne_zero htries
    obtain ⟨x, hattempt⟩ := attemptLoop_valid (k := k) (left := left) (cause := .noError) (rest := blockStream ds ++ rest) hd
      (by rw [hq, blockStream_cons, List.append_assoc])
    obtain ⟨x', m, hloop⟩ := ih (k + 1) (acceptedAttempt o k (wireBlock d) d (blockStream ds ++ rest) x (putTry 0 s))
      (fun e he => hlen e (by simp [he])) rfl ⟨rfl, rfl, rfl⟩
    refine ⟨x', m, ?_⟩
    rw [List.length_cons, blockLoop, hleft, hattempt, ← blocksStored_cons hd, ← hloop]

/-! ### The transfer of a queued image -/

/-- XFER that finds what its begin asks for, with `q` queued past it, goes on with the blocks: RXBUF and RXLEN hold the echo,
or are as before without one (R116, R117). -/
theorem exec_xfer_acknowledged {s : State} {q : List Byte} (hx : xferConfigOk s.cfg s.operands = true)
    (hq : s.rxq = beginEcho s.cfg.xferBeginAck ++ q) :
    ∃ m n, exec .xfer s = .next (blockLoop s.operands s.operands.totalBlocks 0
        { transferBegun s.operands s with rxq := q, rxbuf := m, rxlen := n })
      ∧ (s.cfg.xferBeginAck = .echo ∧ m = Memory.writeBytes s.rxbuf 0 [0x27#8] ∧ n = 1#16
        ∨ s.cfg.xferBeginAck = .noEcho ∧ m = s.rxbuf ∧ n = s.rxlen) := by
  cases hack : s.cfg.xferBeginAck with
  | echo =>
    replace hq : s.rxq = 0x27#8 :: q := by rw [hq, hack]; rfl
    refine ⟨_, _, ?_, .inl ⟨rfl, rfl, rfl⟩⟩
    rw [exec_xfer_echo hx hack, blockLoop_first hx]
    exact blockMove_echo_taken (s := echoRead s.operands (transferBegun s.operands s)) rfl rfl rfl rfl rfl
      (ReadCtx.start_budget_of_queued hq) hx hq
  | noEcho =>
    obtain rfl : s.rxq = q := by rw [hq, hack]; rfl
    exact ⟨_, _, exec_xfer_noEcho hx hack, .inr ⟨rfl, rfl, rfl⟩⟩

/-- The blocks of a legal configuration hold the image's pixels (R115, R116). -/
theorem totalBlocks_mul_blockBytes {c : Config} {o : Operands} (hx : xferConfigOk c o = true) :
    o.totalBlocks * o.blockBytes = o.imgW * o.imgH * o.pixelSize := by
  simp only [xferConfigOk, Bool.and_eq_true, decide_eq_true_eq] at hx
  obtain ⟨⟨⟨-, hwhole⟩, -⟩, -⟩ := hx
  rw [Operands.blockBytes, ← Nat.mul_assoc, Operands.totalBlocks, Nat.div_mul_cancel (Nat.dvd_of_mod_eq_zero hwhole)]

end Sys2Proof.Machine

namespace Sys2Proof.Proofs

open Sys2Proof Sys2Proof.Machine Sys2Proof.Safety

/-- Settles O36: XFER goes on with the blocks, and they are stored one after the other. -/
theorem xferAssemblesTheImage : Obligations.XferAssemblesTheImage := by
  intro s blocks rest hwf hx hholds
  obtain ⟨hcount, hlen, hq⟩ := hholds
  have arith := xferArith hx
  obtain ⟨m, n, hexec, hbegin⟩ := exec_xfer_acknowledged hx hq
  obtain ⟨x, blk, hloop⟩ := blockLoop_stores arith.tries blocks rest 0
    { transferBegun s.operands s with rxq := blockStream blocks ++ rest, rxbuf := m, rxlen := n } hlen rfl
    ⟨rfl, by simp [transferBegun, progressOf], by simp [transferBegun]⟩
  rw [← hcount, hloop] at hexec
  simp only [succeed, finish, blocksStored, transferBegun_written, hcount, Nat.zero_add, Nat.zero_mul,
    progressOf_self arith.pos] at hexec
  have hne : blocks ≠ [] := List.ne_nil_of_length_pos (hcount ▸ arith.pos)
  have htotal : (BitVec.ofNat 32 s.operands.totalBlocks).toNat = s.operands.totalBlocks := by
    rw [BitVec.toNat_ofNat, Nat.mod_eq_of_lt arith.fits]
  have himage : (BitVec.ofNat 32 (s.operands.totalBlocks * s.operands.blockBytes)).toNat = blocks.flatten.length := by
    obtain ⟨-, -, -, himgbuf⟩ := wf_sizes hwf
    have := arith.image
    rw [BitVec.toNat_ofNat, Nat.mod_eq_of_lt (by omega), length_flatten_of_forall hlen, hcount]
  refine ⟨_, hexec, rfl, rfl, htotal, htotal, if_neg hne, rfl, ?imglen, fun j hj => ?inside, fun j hj => ?outside, rfl, rfl,
    rfl, ?rxlen, ?echo, fun j hj => ?rxbuf, rfl, rfl, rfl, rfl, rfl, rfl, rfl, rfl, rfl⟩
  case imglen => rw [himage, length_flatten_of_forall hlen, hcount, totalBlocks_mul_blockBytes hx]
  case inside =>
    have hj' : j < blocks.flatten.length := himage ▸ hj
    have hread := Memory.read_writeBytes_inside s.imgbuf 0 blocks.flatten hj'
    rwa [Nat.zero_add, ← List.getElem?_eq_getElem hj'] at hread
  case outside => exact Memory.read_writeBytes_outside _ _ _ (.inr (by rwa [Nat.zero_add, ← himage]))
  case rxlen => rcases hbegin with ⟨hack, -, rfl⟩ | ⟨hack, -, rfl⟩ <;> rw [hack]
  case echo =>
    rcases hbegin with ⟨hack, rfl, -⟩ | ⟨hack, rfl, -⟩ <;> rw [hack]
    exact Memory.read_writeBytes_inside s.rxbuf 0 [0x27#8] (j := 0) Nat.one_pos
  case rxbuf =>
    rcases hbegin with ⟨-, rfl, -⟩ | ⟨-, rfl, -⟩
    · exact Memory.read_writeBytes_outside _ _ _ (.inr hj)
    · rfl

end Sys2Proof.Proofs
end

section
/-! The wire rows (44_wire_commands.md R132 to R148, R155): the host operation each row is, the state its accepted OP write
leaves, and the frame of `T` that faults. -/

namespace Sys2Proof.Machine

open Sys2Proof

/-! ### The host operation of a row -/

/-- Every framed command but `X` and `B` is `CMD` of its bytes (R77, R132 to R145). -/
theorem exec_frame_issuesCommand {i : Instr} {cmd : List Byte} (hi : encode i = .frame cmd) (hx : i ≠ .wireX)
    (hb : ∀ d, i ≠ .wireB d) (s : State) : exec i s = issueCommand cmd s := by
  cases i
  case wireX => exact absurd rfl hx
  case wireB d => exact absurd rfl (hb d)
  all_goals cases hi <;> rfl

/-- A signal row is `SIG` of its byte (R77, R146 to R148). -/
theorem exec_signal_issuesSignal {i : Instr} {b : Byte} (hi : encode i = .signal b) (s : State) :
    exec i s = issueSignal b s := by
  cases i
  case signalK | signalR | signalS => cases hi; rfl
  all_goals cases hi

/-- The row `X` is the OP write of XFER, no byte stored before it (R117, R143). -/
theorem exec_wireX (s : State) : exec .wireX s =
    if s.busy then .next (rejectOp { s with bus := .ack }) else exec .xfer (acceptOp xferWord { s with bus := .ack }) := rfl

/-- A framed command has its opcode (R71). -/
theorem frame_length_pos {i : Instr} {cmd : List Byte} (hi : encode i = .frame cmd) : 1 ≤ cmd.length := by
  cases cmd with
  | nil =>
    have hdecode := Proofs.decodeOfEncodeIsIdentity i
    rw [hi] at hdecode
    cases hdecode
  | cons opcode args => exact Nat.succ_pos _

theorem busy_of_seq_ne_idle {s : State} (h : s.seq ≠ .idle) : s.busy = true := by rw [busy_eq_decide, decide_eq_true h]

/-! ### The accepted OP write -/

/-- The block once the host has issued `bs` with `op` and the OP write was accepted: the bytes in TXBUF, the operation started
(R77). -/
def issued (bs : List Byte) (op : Word) (s : State) : State :=
  acceptOp op { s with bus := .ack, txbuf := Memory.writeBytes s.txbuf 0 bs }

/-- The operation latches the bytes issued with it (R53). -/
theorem issued_latched {bs : List Byte} {n : Nat} (h : n = bs.length) (op : Word) (s : State) :
    latchedTx (issued bs op s).operands 0 n = some bs := readBytes_stored s.txbuf bs h

/-- From IDLE the operation runs from there (R30, R77). -/
theorem issueOp_eq_issued (bs : List Byte) (op : Word) (run : State → Host.Outcome State Fault Refusal) {s : State}
    (h : s.seq = .idle) (hlen : bs.length ≤ s.cfg.txbufSize) (hsize : s.cfg.txbufSize ≤ 4096) :
    issueOp bs op run s = run (issued bs op s) := issueOp_idle h hlen hsize

/-! ### The frame of `T` -/

/-- R155: a `T` framed during an exposure faults. -/
theorem frameCommand_faults {cmd : List Byte} {s : State} (hT : isTakeImage cmd = true) (he : s.exposing = true)
    (k : State → Host.Outcome State Fault Refusal) : frameCommand cmd s k = .fault .takeImageDuringExposure := by
  rw [frameCommand, hT, he]
  rfl

/-! ### The tick bytes of `T` -/

/-- Three bytes hold a count below 2^24 (R141). -/
theorem ticks_of_three_bytes {ticks : Nat} (h : ticks < 2 ^ 24) :
    (BitVec.ofNat 8 (ticks / 65536)).toNat * 65536 + (BitVec.ofNat 8 (ticks / 256)).toNat * 256
      + (BitVec.ofNat 8 ticks).toNat = ticks := by
  simp only [BitVec.toNat_ofNat]
  omega

end Sys2Proof.Machine

namespace Sys2Proof.Proofs

open Sys2Proof Sys2Proof.Machine

/-- Settles O32: each of the three operations comes to the frame of the `T`. -/
theorem takeImageDuringExposureFaults : Obligations.TakeImageDuringExposureFaults := by
  rintro s n m t0 t1 t2 m0 m1 rfl he hsize hrx hcmd
  have hpos : 1 ≤ (6#16).toNat := by decide
  have hn : (6#16).toNat ≤ s.cfg.txbufSize := Nat.le_of_add_right_le hsize
  refine ⟨?send, ?sendv, fun hreply => ?expect⟩
  case send => rw [exec_send_written hpos hn hcmd, frameCommand_faults rfl he]
  case sendv => rw [exec_sendv_written hpos hn hcmd, frameCommand_faults rfl he]
  case expect =>
    obtain ⟨reply, hreply⟩ := Option.isSome_iff_exists.1 hreply
    rw [exec_expect_written hpos hsize hrx hcmd hreply, frameCommand_faults rfl he]

/-- Settles O37: by O36 from the state after the accepted OP write, which changes nothing the transfer reads. -/
theorem beginTransferCommandRunsXfer : Obligations.BeginTransferCommandRunsXfer := by
  have hidle : ∀ s : State, s.seq = .idle → exec .wireX s = exec .xfer (acceptOp xferWord { s with bus := .ack }) :=
    fun s h => by rw [exec_wireX, busy_idle h]; rfl
  refine ⟨fun s h => ⟨xferWord, rfl, hidle s h⟩, fun s h => ?_, fun s blocks rest h hwf hx hholds => ?_⟩
  · rw [exec_wireX, busy_of_seq_ne_idle h]
    rfl
  · rw [hidle s h]
    exact xferAssemblesTheImage (acceptOp xferWord { s with bus := .ack }) blocks rest hwf hx hholds

/-- Settles O44: from IDLE by O27 and O28 from the state after the accepted OP write, whose TXBUF holds the command. -/
theorem wireCommandsAreSentAndVerified : Obligations.WireCommandsAreSentAndVerified := by
  rintro i cmd s stored sent hi hx hb hlen hsize rfl rfl
  let n := BitVec.ofNat 16 cmd.length
  let started := issued cmd (opWord 0x21#8 0#8 n) s
  have hn : n.toNat = cmd.length := by rw [BitVec.toNat_ofNat, Nat.mod_eq_of_lt (by omega)]
  have hpos : 1 ≤ n.toNat := hn ▸ frame_length_pos hi
  have hfits : n.toNat ≤ s.cfg.txbufSize := hn ▸ hlen
  have hcmd : latchedTx started.operands 0 n.toNat = some cmd := issued_latched hn _ s
  have hidle : s.seq = .idle → exec i s = exec (.sendv n) started :=
    fun h => (exec_frame_issuesCommand hi hx hb s).trans (issueOp_eq_issued _ _ _ h hlen hsize)
  refine ⟨fun h => ⟨_, rfl, hidle h⟩, fun h hT he => ?during, fun h hallowed => ⟨fun b rest hq => ?byte, fun hq ht => ?none,
    fun hq ht => ?waits⟩, fun h => ?busy⟩
  case during => rw [hidle h, exec_sendv_written (s := started) hpos hfits hcmd, frameCommand_faults (s := started) hT he]
  case byte =>
    rw [hidle h, sendvComparesTheFirstByteRead.1 started n cmd b rest hpos hfits hcmd hallowed hq, ← h]
    rfl
  case none =>
    rw [hidle h, (sendvWithoutAByteFailsOrWaits.1 started n cmd hpos hfits hcmd hallowed hq).1 ht, ← h]
    rfl
  case waits =>
    obtain ⟨op, hwait⟩ := (sendvWithoutAByteFailsOrWaits.1 started n cmd hpos hfits hcmd hallowed hq).2 ht
    exact ⟨op, (hidle h).trans hwait⟩
  case busy => exact (exec_frame_issuesCommand hi hx hb s).trans (issueOp_busy (busy_of_seq_ne_idle h) hlen hsize)

/-- Settles O45: from IDLE by O26, `B` being no `T`. -/
theorem baudSelectIsSentUnverified : Obligations.BaudSelectIsSentUnverified := by
  refine fun d s hlen hsize => ⟨fun h => ?_, fun h => issueOp_busy (busy_of_seq_ne_idle h) hlen hsize⟩
  have hmonitor : ∀ e : Bool, (e || isTakeImage [0x42#8, d]) = e := fun e => Bool.or_false e
  let started := issued [0x42#8, d] (opWord 0x20#8 0#8 2#16) s
  have hissue : exec (.wireB d) s = exec (.send 2#16) started := issueOp_eq_issued _ _ _ h hlen hsize
  rw [hissue, sendTransmitsTheFrame started 2#16 [0x42#8, d] (by decide) hlen (issued_latched rfl _ s) rfl, hmonitor,
    ← h]
  rfl

/-- Settles O46: from IDLE by O16, the byte at TXBUF[0] being the one that WRITE 1 transmits. -/
theorem signalBytesAreSentUnframed : Obligations.SignalBytesAreSentUnframed := by
  refine fun i b s hi hlen hsize => ⟨fun h => ?_, fun h =>
    (exec_signal_issuesSignal hi s).trans (issueOp_busy (busy_of_seq_ne_idle h) hlen hsize)⟩
  let started := issued [b] (opWord 0x10#8 0#8 1#16) s
  have hissue : exec i s = exec (.write 1#16) started :=
    (exec_signal_issuesSignal hi s).trans (issueOp_eq_issued _ _ _ h hlen hsize)
  rw [hissue, writeTransmitsTheBytesRaw started 1#16 [b] hlen (issued_latched rfl _ s), ← h]
  rfl

/-- Settles O47: the three bytes of the count, and the closed form of the command checksum (O10). -/
theorem takeImageCarriesTheTickCount : Obligations.TakeImageCarriesTheTickCount := by
  refine ⟨fun c ticks h => ?_, fun m0 m1 => ?_, fun c hc => ?_⟩
  · cases hc : c.tickByteOrder with
    | msbFirst => exact ⟨_, _, _, by rw [takeImage, hc], by rw [ticksOfBytes, hc]; exact ticks_of_three_bytes h⟩
    | lsbFirst => exact ⟨_, _, _, by rw [takeImage, hc], by rw [ticksOfBytes, hc]; exact ticks_of_three_bytes h⟩
  · have hfixed : cmdChecksum [0x54#8, 0x00#8, 0x13#8, 0x88#8] = 0x4F#8 := by decide
    have hmodes : cmdChecksum [m0, m1] = (m0 ^^^ m1) &&& 0x7F#8 := by
      simp [cmdChecksum_eq_masked_xorAll, xorAll, complementsMask]
    rw [← hfixed, ← hmodes, ← cmdChecksum_append]
    rfl
  · rw [takeImage, hc]
    rfl

end Sys2Proof.Proofs
end

section
/-! Every operation comes to its end with the block and the timer alone (41_transport.md R95, 43_image_transfer.md R128,
70_reset_and_hazards.md R189): a read in progress returns, what follows it is IDLE or a read of a later attempt, and the
attempts of a transfer are finitely many. -/

namespace Sys2Proof.Machine

open Sys2Proof

/-- With no move of another agent to come, some number of steps leads to IDLE (R189). -/
def FinishesAlone (s : State) : Prop :=
  s.inputs = [] → ∃ n t, Sys2Proof.core.run n s = .next t ∧ t.seq = .idle

theorem finishesAlone_of_idle {s : State} (h : s.seq = .idle) : FinishesAlone s := fun _ => ⟨0, s, rfl, h⟩

/-- A state finishes when the one its default move leads to does. -/
theorem finishesAlone_of_defaultMove {s t : State} (hmove : agentMove (defaultMove s) s = .next t)
    (hinputs : t.inputs = s.inputs) (ht : FinishesAlone t) : FinishesAlone s := by
  intro hs
  obtain ⟨n, u, hrun, hidle⟩ := ht (hinputs.trans hs)
  exact ⟨n + 1, u, (run_next Sys2Proof.core ((step_nil hs).trans hmove)).trans hrun, hidle⟩

theorem finishesAlone_of_blockMove {s t : State} (hbusy : s.seq ≠ .idle) (hdefault : defaultMove s = .block)
    (hmove : blockMove s = .next t) (ht : FinishesAlone t) : FinishesAlone s := by
  obtain ⟨⟨-, hinputs, -⟩, -, -⟩ := Proofs.blockStepKeepsHostRegistersAndTrace s t hmove hbusy
  exact finishesAlone_of_defaultMove (by rw [hdefault]; exact hmove) hinputs ht

/-! ### A read in progress

It returns: at the block's step, or at the one after the timer's. `hdone` says that what follows it finishes. -/

section
variable {s : State} {op : Word} {o : Operands} {r : ReadCtx}

theorem defaultMove_waitRx (hs : s.seq = .run op o (.waitRx r)) :
    defaultMove s = if s.rxq = [] ∧ r.budget = none then .timer else .block := by
  simp only [defaultMove, hs]

/-- The deadline of a read that has not expired gives it the budget of what is queued (R95). -/
theorem expireTimer_waitRx (hs : s.seq = .run op o (.waitRx r)) (hb : r.budget = none) :
    expireTimer s = { s with seq := .run op o (.waitRx { r with budget := some s.rxq.length }) } := by
  simp only [expireTimer, hs, hb]

variable (hs : s.seq = .run op o (.waitRx r))
  (hdone : ∀ got seen limit u, FinishesAlone (afterRead o r.kont got seen limit u))
include hdone

include hs in
theorem finishesAlone_expired {k : Nat} (hb : r.budget = some k) : FinishesAlone s := by
  obtain ⟨got, seen, limit, t, hread⟩ := rxContinue_returns_of_budget op o hb s
  have hdefault : defaultMove s = .block := by simp [defaultMove_waitRx hs, hb]
  exact finishesAlone_of_blockMove (by simp [hs]) hdefault (blockMove_returned hs hread)
    (hdone _ _ _ _)

include hs in
theorem finishesAlone_emptyQueue (hq : s.rxq = []) : FinishesAlone s := by
  cases hb : r.budget with
  | some k => exact finishesAlone_expired hs hdone hb
  | none =>
    refine finishesAlone_of_defaultMove (t := expireTimer s) ?_ ?_ ?_
    · rw [defaultMove_waitRx hs, if_pos ⟨hq, hb⟩]; rfl
    · rw [expireTimer_waitRx hs hb]
    · rw [expireTimer_waitRx hs hb]
      exact finishesAlone_expired rfl hdone rfl

/-- The block's step with a read returns from it, or leaves RXQ empty. -/
theorem finishesAlone_resumeRead (u : State) : FinishesAlone (resumeRead op o r u) :=
  resumeRead_rule (fun _ _ _ _ _ _ => hdone _ _ _ _) fun _ _ => finishesAlone_emptyQueue rfl hdone rfl

include hs in
theorem finishesAlone_waitRx : FinishesAlone s := by
  by_cases hq : s.rxq = []
  · exact finishesAlone_emptyQueue hs hdone hq
  · have hdefault : defaultMove s = .block := by simp [defaultMove_waitRx hs, hq]
    exact finishesAlone_of_blockMove (by simp [hs]) hdefault (blockMove_waitRx hs) (finishesAlone_resumeRead hdone s)

end

/-! ### The transfer -/

theorem finishesAlone_of_waitsAt {o : Operands} {C : Nat → Nat → Prop} {t : State} (h : WaitsAt o C t)
    (hdone : ∀ k i, C k i → ∀ d u, FinishesAlone (xferBlockDone o k i d u)) : FinishesAlone t := by
  rcases h with hidle | ⟨op, r, k, i, hseq, hk, hC⟩
  · exact finishesAlone_of_idle hidle
  · refine finishesAlone_waitRx hseq fun got seen limit u => ?_
    rw [hk]
    exact hdone k i hC got u

/-- Each wait is in a later attempt of the block or in a later block, so the transfer finishes (R128). -/
theorem finishesAlone_xferBlockDone (o : Operands) (k i : Nat) (d : List Byte) (s : State) :
    FinishesAlone (xferBlockDone o k i d s) :=
  finishesAlone_of_waitsAt (xferBlockDone_waitsAt o k i d s) fun k' i' _ d' u =>
    finishesAlone_xferBlockDone o k' i' d' u
termination_by (o.totalBlocks - k, o.maxTries - i)
decreasing_by simp only [Prod.lex_def]; omega

theorem finishesAlone_blockLoop (o : Operands) (s : State) : FinishesAlone (blockLoop o o.totalBlocks 0 s) :=
  finishesAlone_of_waitsAt (blockLoop_waitsAt o 0 s) fun k i _ d u => finishesAlone_xferBlockDone o k i d u

/-! ### Every operation -/

theorem finishesAlone_afterRead (o : Operands) (kont : Kont) (got : List Byte) (seen limit : Bool) (s : State) :
    FinishesAlone (afterRead o kont got seen limit s) := by
  cases kont with
  | read => exact finishesAlone_of_idle rfl
  | rdunt b => exact finishesAlone_of_idle rfl
  | sendv cmd =>
    obtain ⟨ok, err, he⟩ := sendvDone_cases cmd got s
    exact finishesAlone_of_idle (congrArg State.seq he)
  | expect cmd reply =>
    obtain ⟨ok, err, lim, he⟩ := expectDone_cases cmd reply got s
    exact finishesAlone_of_idle (congrArg State.seq he)
  | xferEcho =>
    rw [afterRead, xferEchoDone]
    split
    · exact finishesAlone_blockLoop o _
    · exact finishesAlone_of_idle rfl
  | xferBlock k i => exact finishesAlone_xferBlockDone o k i got s

theorem RunsTo.finishesAlone {s t : State} {i : Instr} (h : RunsTo s i t) : FinishesAlone t := by
  cases h
  case reads => exact finishesAlone_resumeRead (finishesAlone_afterRead _ _) _
  case transfer => exact finishesAlone_blockLoop _ _
  all_goals exact finishesAlone_of_idle rfl

/-! ### The faults of an operation -/

/-- A next state, or one of the two faults the spec gives an operation: an unwritten TXBUF byte (R54), and `T` during an
exposure (R155). -/
def NextOrFault (r : Host.Outcome State Fault Refusal) : Prop :=
  (∃ t, r = .next t) ∨ r = .fault .txbufUnwritten ∨ r = .fault .takeImageDuringExposure

theorem nextOrFault_next (t : State) : NextOrFault (.next t) := .inl ⟨t, rfl⟩

theorem nextOrFault_unwritten : NextOrFault (.fault .txbufUnwritten) := .inr (.inl rfl)

theorem nextOrFault_frameCommand (cmd : List Byte) (s : State) (f : State → State) :
    NextOrFault (frameCommand cmd s fun u => .next (f u)) := by
  rcases frameCommand_cases cmd s fun u => .next (f u) with ⟨h, -⟩ | h <;> rw [h]
  · exact .inr (.inr rfl)
  · exact nextOrFault_next _

/-- An operation that reads TXBUF can fault there, and one that frames a command can fault on `T`; no other way is open. -/
theorem nextOrFault_exec {i : Instr} {w : Word} (hw : encode i = .op w) (s : State) : NextOrFault (exec i s) := by
  cases i
  case csumc | csumb | write =>
    simp only [exec, execCsumc, execCsumb, execWrite]
    split
    · split
      · exact nextOrFault_next _
      · exact nextOrFault_unwritten
    · exact nextOrFault_next _
  case send | sendv =>
    simp only [exec, execSend, execSendv]
    split
    · split
      · exact nextOrFault_frameCommand ..
      · exact nextOrFault_unwritten
    · exact nextOrFault_next _
  case expect =>
    simp only [exec, execExpect]
    split
    · split
      · exact nextOrFault_frameCommand ..
      · exact nextOrFault_unwritten
      · exact nextOrFault_unwritten
    · exact nextOrFault_next _
  case read | rdunt | setbaud | xfer =>
    simp only [exec, execRead, execRdunt, execSetbaud, execXfer]
    split
    · exact nextOrFault_next _
    · exact nextOrFault_next _
  case drain => exact nextOrFault_next _
  all_goals cases hw

/-- In phase EXEC the block runs the operation or refuses its word, so it finishes unless the operation faults (R66 to R68). -/
theorem finishesAlone_exec_or_fault {s : State} {op : Word} {o : Operands} (hs : s.seq = .run op o .exec) :
    FinishesAlone s ∨ blockMove s = .fault .txbufUnwritten ∨ blockMove s = .fault .takeImageDuringExposure := by
  have goesOn {t : State} : blockMove s = .next t → FinishesAlone t → FinishesAlone s :=
    finishesAlone_of_blockMove (by simp [hs]) (defaultMove_exec hs)
  cases hd : decodeOp op with
  | ok i =>
    obtain ⟨w, hw⟩ := decodeOp_encode hd
    have hmove : blockMove s = exec i s := blockMove_exec hs hd
    rcases nextOrFault_exec hw s with ⟨t, ht⟩ | hfault
    · exact .inl (goesOn (hmove.trans ht) (exec_runsTo hw ht).finishesAlone)
    · exact .inr (hmove ▸ hfault)
  | error e =>
    have hreject : blockMove s = .next (rejectWord e s) := by simp only [blockMove, hs, runOperation, decode, hd]
    exact .inl (goesOn hreject (by cases e <;> exact finishesAlone_of_idle rfl))

end Sys2Proof.Machine

namespace Sys2Proof.Proofs

open Sys2Proof Sys2Proof.Machine

/-- Settles O49: the reset input is the step's move, and it takes the block's state to its reset values. -/
theorem resetAbandonsTheOperation : Obligations.ResetAbandonsTheOperation :=
  fun _ _ h => step_cons h

/-- Settles O60: the block's step in phase EXEC faults or leads to a state that finishes, and a state in WAIT_RX finishes. -/
theorem everyOperationFinishes : Obligations.EveryOperationFinishes := by
  intro s hin
  suffices h : FinishesAlone s ∨ step s = .fault .txbufUnwritten ∨ step s = .fault .takeImageDuringExposure by
    rcases h with hfin | hfault | hfault
    · obtain ⟨n, hrun⟩ := hfin hin
      exact ⟨n, .inl hrun⟩
    · exact ⟨1, .inr (.inl (run_fault Sys2Proof.core hfault))⟩
    · exact ⟨1, .inr (.inr (run_fault Sys2Proof.core hfault))⟩
  cases hs : s.seq with
  | idle => exact .inl (finishesAlone_of_idle hs)
  | run op o phase =>
    cases phase with
    | waitRx r => exact .inl (finishesAlone_waitRx hs (finishesAlone_afterRead o r.kont))
    | exec =>
      have hstep : step s = blockMove s := by rw [step_nil hin, defaultMove_exec hs]; rfl
      exact hstep ▸ finishesAlone_exec_or_fault hs

end Sys2Proof.Proofs
end
